-- ==== Sys2Proof/Word.lean ====
section
/-! DEFINITION. The word types of CORE: bytes, 16-bit register values, physical quantities, groups of four. -/

namespace Sys2Proof

/-- A byte of a frame (00_scope.md R11). -/
abbrev Byte := BitVec 8

/-- An AFE register value, an unsigned 16-bit word (00_scope.md R8 `WORD_BITS`, R12). -/
abbrev Word := BitVec 16

/-- The carrier of the physical quantities (00_scope.md R12): exact rationals, the reference `NUM`. A binary
floating-point value is a rational too; how its operations round is the parameter `NUM` (Machine/Numerics.lean). -/
abbrev Q := Rat

/-- Four like things: the NTC channels (00_scope.md R8, `NNTC` = 4). -/
structure Four (α : Type) where
  t0 : α
  t1 : α
  t2 : α
  t3 : α
deriving DecidableEq, Repr, Inhabited

end Sys2Proof
end

