-- ==== Sys2Proof/Config.lean ====
section
/-! DEFINITION. What an implementation of CORE fixes (the parameters of 00_scope.md R9 and the configuration of
10_state.md R33 to R36), the records its open functions range over, and the FREE VALUES: opaque constants with no body,
of which no proof can know a value. -/

namespace Sys2Proof

/-! ## Records -/

/-- The command record `C[p]` (10_state.md R37). -/
structure Cmd where
  chargeEnable : Bool
  dischargeEnable : Bool
  alertClearReq : Bool
  resetReq : Bool
deriving DecidableEq, Repr, Inhabited

/-- The hardware flag record of 10_state.md R28 and R29, over any type of flag `β` and of power code `γ`: the decoded
record holds booleans, a field map holds bit positions. `anyCellOv`, `anyCellUv` are the flags `CELL_OV`, `CELL_UV`;
`cellOv`, `cellUv` are the per-cell maps. -/
structure HwOf (β γ : Type) where
  occ : β
  ocd : β
  sc : β
  wdtOvf : β
  extProt : β
  reset : β
  sleep : β
  refAbn : β
  muxAbn : β
  railAbn : β
  eepromAbn : β
  clkAbn : β
  dieOt : β
  dieUt : β
  ntcOt : β
  ntcUt : β
  commErr : β
  auxRail : β
  diagFault : β
  packOv : β
  packUv : β
  anyCellOv : β
  anyCellUv : β
  cellMismatch : β
  cellOv : List β
  cellUv : List β
  balElapsed : β
  dsgOn : β
  chgOn : β
  pchgOn : β
  pwrCode : γ
deriving DecidableEq, Repr, Inhabited

/-- `T[p].hw`: the decoded hardware flags (10_state.md R28, R29). -/
abbrev HwFlags := HwOf Bool Nat

/-- The raw measurement record `PROFILE.rawMeas` yields (20_memory.md R66, 41_register_facade.md R156): a work record
of `READ_TELEMETRY`, never stored in State. -/
structure RawMeas where
  current : Word
  packV : Word
  auxV : Word
  dieT : Word
  ntc : Four Word
  cell : Nat → Word
deriving Inhabited

/-- The calibration `G[p].cal` (10_state.md R35): NTC polynomial coefficients and one scale per measured quantity, the shape
the reference `CONV` needs. DESIGN CHOICE, log 35: the `CONV` of an implementation, whose shape the spec leaves open, gets
this shape too. -/
structure Cal where
  ntcCoef : List Q
  iScale : Q
  vScale : Q
  auxScale : Q
  dieScale : Q
  cellScale : Q
deriving DecidableEq, Repr, Inhabited

/-- One entry of the current-limit table (10_state.md R33). -/
structure TableEntry where
  temp : Q
  chg : Q
  dsg : Q
deriving DecidableEq, Repr, Inhabited

/-- One register write: an address and a 16-bit value (20_memory.md R66, 10_state.md R36). -/
structure RegWrite where
  addr : Nat
  value : Word
deriving DecidableEq, Repr, Inhabited

/-- One burst: a start address and a register count (20_memory.md R66). -/
structure Burst where
  addr : Nat
  count : Nat
deriving DecidableEq, Repr, Inhabited

/-- The configuration `G[p]` of a pack (10_state.md R33 to R36). `userRegs` is the list as stored; what `ST_INIT` applies
is `userList` of it (Machine/Operands.lean), which ends at the sentinel (30_encoding.md R107). -/
structure PackConfig where
  table : List TableEntry
  chgCeilFull : Q
  chgCeilReduced : Q
  dsgCeilFull : Q
  dsgCeilReduced : Q
  i2tCeiling : Q
  i2tDecay : Q
  balStartV : Q
  balDiff : Q
  diagThreshold : Q
  prechgTol : Q
  cal : Cal
  userRegs : List RegWrite
deriving DecidableEq, Repr, Inhabited

/-- The telemetry record `T[p]` (10_state.md R22, R24 to R32). `capacity`, `health`, `cycles` are the reserved fields of
R27, one opaque zero each. -/
structure Telemetry where
  id : Nat
  state : BitVec 4
  raw : List (List Word)
  hw : HwFlags
  swAlerts : BitVec 32
  mosfetDrive : BitVec 3
  i2t : Q
  availChg : Q
  availDsg : Q
  current : Q
  voltage : Q
  cellV : List Q
  ntc : Four Q
  dieTemp : Q
  auxV : Q
  capacity : Nat
  health : Nat
  cycles : Nat
deriving DecidableEq, Repr, Inhabited

/-! ## The environment's moves and answers -/

/-- What the environment answers to one `BusXfer` (20_memory.md R62): an error, or the bytes received. -/
inductive BusAnswer where
  | busError
  | ok (rx : List Byte)
deriving DecidableEq, Repr, Inhabited

/-- One write of the environment to what it owns (10_state.md R37, R39, R43; 60_exceptions.md R320). -/
inductive EnvWrite where
  | cmd (p : Nat) (c : Cmd)
  | shutdown (b : Bool)
  | vbus (v : Q)
  | sanity (p : Nat) (b : Bool)
deriving DecidableEq, Repr, Inhabited

/-! ## Parameters -/

/-- A 16-bit word of the blocks a telemetry read returned. -/
structure WordPos where
  block : Nat
  idx : Nat
deriving DecidableEq, Repr, Inhabited

/-- One bit of one word (41_register_facade.md R157). -/
structure BitPos where
  block : Nat
  idx : Nat
  bit : Nat
deriving DecidableEq, Repr, Inhabited

/-- A bit field `hi` down to `lo` of one word. -/
structure FieldPos where
  block : Nat
  idx : Nat
  hi : Nat
  lo : Nat
deriving DecidableEq, Repr, Inhabited

/-- Where the power code stands: a bit field, or any function of the words, which may join registers
(41_register_facade.md R157, 90_conflicts.md C18; opaque). DESIGN CHOICE, log 3: safe. -/
inductive PwrField where
  | field (pos : FieldPos)
  | implementation
deriving DecidableEq, Repr, Inhabited

/-- `PROFILE.decodeHw`: where each hardware flag stands. The form is the rule's: each flag is one bit of one word, and the
profile says which (41_register_facade.md R157). -/
abbrev HwMap := HwOf BitPos PwrField

/-- Where each raw measurement stands. -/
structure MeasMap where
  current : WordPos
  packV : WordPos
  auxV : WordPos
  dieT : WordPos
  ntc : Four WordPos
  cell : List WordPos
deriving DecidableEq, Repr, Inhabited

/-- `PROFILE.rawMeas`: a field map, or any total function (opaque). DESIGN CHOICE, log 3: safe. -/
inductive MeasDecode where
  | fields (m : MeasMap)
  | implementation
deriving DecidableEq, Repr, Inhabited

/-- `PROFILE.cellsOf`: which of the words read are the cells, or any extractor (opaque). DESIGN CHOICE, log 3: safe. -/
inductive CellsDecode where
  | indices (is : List Nat)
  | implementation
deriving DecidableEq, Repr, Inhabited

/-- `PROFILE.pwrCodeOf`: a bit field, or any extractor (opaque). DESIGN CHOICE, log 3: safe. -/
inductive PwrDecode where
  | field (hi lo : Nat)
  | implementation
deriving DecidableEq, Repr, Inhabited

/-- `PROFILE.balPack`: the reference packing at a given address (20_memory.md R70), or any total function (opaque).
DESIGN CHOICE, log 3: safe. -/
inductive BalPacking where
  | durationOverMask (addr : Nat)
  | implementation
deriving DecidableEq, Repr, Inhabited

/-- The AFE register profile (20_memory.md R66), field by field. -/
structure Profile where
  statusAddr : Nat
  pwrCodeOf : PwrDecode
  powerupCode : Nat
  mosfetCtrlAddr : Nat
  balOff : RegWrite
  clrReset : RegWrite
  balWindow : RegWrite
  diagUnlock : RegWrite
  diagPullUp : RegWrite
  diagPullDown : RegWrite
  diagClear : RegWrite
  clrErrors : List RegWrite
  wdtArm : RegWrite
  cellBlocks : List Burst
  cellsOf : CellsDecode
  telemBlocks : List Burst
  decodeHw : HwMap
  rawMeas : MeasDecode
  balPack : BalPacking
  balDuration : Nat
deriving DecidableEq, Repr, Inhabited

/-- `CONV`: the reference conversions of 41_register_facade.md R159, or the implementation's (opaque). -/
inductive ConvSel where
  | reference
  | implementation
deriving DecidableEq, Repr, Inhabited

/-- `NUM`: exact rationals, or arithmetic that rounds in a way not stated (opaque) (00_scope.md R12, D1). -/
inductive NumSel where
  | exact
  | rounded
deriving DecidableEq, Repr, Inhabited

/-- `DSG_INDEX_SRC` (43_limits_thermal.md R223). -/
inductive IndexSrc where
  | tmin
  | tmax
deriving DecidableEq, Repr, Inhabited

/-- `tempMismatchCond`, `currAbnormalCond`: constant false, or any total predicate (opaque) (44_alert_aggregator.md
R246). -/
inductive CondSel where
  | constFalse
  | implementation
deriving DecidableEq, Repr, Inhabited

/-- The implementation parameters of 00_scope.md R9. They never change (20_memory.md R75). -/
structure Params where
  nsel : Nat
  npack : Nat
  ncell : Nat
  k : Nat
  cycleS : Q
  crcPoly : Byte
  enabled : List Bool
  profile : Profile
  conv : ConvSel
  num : NumSel
  warnMask : BitVec 32
  dsgIndexSrc : IndexSrc
  tempMismatch : CondSel
  currAbnormal : CondSel
deriving DecidableEq, Repr, Inhabited

/-- The six quantities `CONV` converts (41_register_facade.md R158). -/
inductive Quantity where
  | current
  | packV
  | auxV
  | dieT
  | ntc
  | cellV
deriving DecidableEq, Repr, Inhabited

/-! ## Open functions of an implementation (log 3, 4) -/

/-- `PROFILE.pwrCodeOf` of the implementation (20_memory.md R66). -/
opaque Config.pwrCodeOf : Word → Nat

/-- `PROFILE.cellsOf` of the implementation: the words read, and the cell asked for. -/
opaque Config.cellsOf : List Word → Nat → Word

/-- The power code of the flag record, as an implementation reads it from the words (41_register_facade.md R157). -/
opaque Config.hwPwrCode : List (List Word) → Nat

/-- `PROFILE.rawMeas` of the implementation (20_memory.md R66). -/
opaque Config.rawMeas : List (List Word) → RawMeas

/-- `PROFILE.balPack` of the implementation; an address of 7 bits, since every address of a profile is at most 127. -/
opaque Config.balPack : List Bool → Nat → BitVec 7 × Word

/-- `CONV` of the implementation: six total functions of the raw word and the calibration alone
(41_register_facade.md R158). DESIGN CHOICE, log 35: the calibration has the shape `Cal` here too. -/
opaque Config.conv : Quantity → Word → Cal → Q

/-- `+` of an implementation's `NUM` (00_scope.md R12). -/
opaque Config.roundAdd : Q → Q → Q

/-- `-` of an implementation's `NUM`. -/
opaque Config.roundSub : Q → Q → Q

/-- `*` of an implementation's `NUM`. -/
opaque Config.roundMul : Q → Q → Q

/-- `/` by a natural of an implementation's `NUM`. -/
opaque Config.roundDiv : Q → Nat → Q

/-- `tempMismatchCond` of the implementation (44_alert_aggregator.md R246). -/
opaque Config.tempMismatchCond : Telemetry → PackConfig → Bool

/-- `currAbnormalCond` of the implementation (44_alert_aggregator.md R246). -/
opaque Config.currAbnormalCond : Telemetry → PackConfig → Bool

/-! ## Free values, each applied to the draw counter of State -/

/-- A free answer of `SelDrive` (20_memory.md R63): true is `Ok`. -/
opaque Config.freeDrive : Nat → Bool

/-- A free answer of `BusXfer` (20_memory.md R62). -/
opaque Config.freeAnswer : Nat → BusAnswer

/-- A free batch of environment writes between two steps (10_state.md R43, 60_exceptions.md R304). -/
opaque Config.freeMove : Nat → List EnvWrite

/-- A select line after a failed drive (40_transport_framer.md R124, U4): draw, line. -/
opaque Config.freeLine : Nat → Nat → Bool

/-- An element of `diagBuf` after the evaluation (42_pack_supervisor.md R181, U6): draw, index. -/
opaque Config.freeSample : Nat → Nat → Q

end Sys2Proof
end

