-- ==== Sys2Proof/Machine/Numerics.lean ====
section
/-! DEFINITION. The numerics parameter `NUM` (00_scope.md R12, R226): which operations round, and which are exact in every
`NUM`. With `.exact` (the reference) every operation is the rational one; with `.rounded` the results of `+`, `-`, `*` and
`/` are the implementation's (opaque). Comparisons, `min`, `max`, `abs` and copies are exact in both. Log 4. -/

namespace Sys2Proof.Machine

/-- `a + b` in `NUM`. -/
def numAdd (num : NumSel) (a b : Q) : Q :=
  match num with
  | .exact => a + b
  | .rounded => Config.roundAdd a b

/-- `a - b` in `NUM`. -/
def numSub (num : NumSel) (a b : Q) : Q :=
  match num with
  | .exact => a - b
  | .rounded => Config.roundSub a b

/-- `a * b` in `NUM`. -/
def numMul (num : NumSel) (a b : Q) : Q :=
  match num with
  | .exact => a * b
  | .rounded => Config.roundMul a b

/-- `a / n` in `NUM`, `n` a non-zero natural. -/
def numDiv (num : NumSel) (a : Q) (n : Nat) : Q :=
  match num with
  | .exact => a / (n : Q)
  | .rounded => Config.roundDiv a n

/-- `min`, exact in every `NUM`. -/
def qMin (a b : Q) : Q := if a ≤ b then a else b

/-- `max`, exact in every `NUM`. -/
def qMax (a b : Q) : Q := if a ≤ b then b else a

/-- `abs`, exact in every `NUM`. -/
def qAbs (a : Q) : Q := if 0 ≤ a then a else -a

/-- The smallest of four (43_limits_thermal.md R222, `tmin`). -/
def fourMin (f : Four Q) : Q := qMin (qMin f.t0 f.t1) (qMin f.t2 f.t3)

/-- The largest of four (43_limits_thermal.md R222, `tmax`). -/
def fourMax (f : Four Q) : Q := qMax (qMax f.t0 f.t1) (qMax f.t2 f.t3)

/-- A function on each of four. -/
def fourMap {α β : Type} (g : α → β) (f : Four α) : Four β := ⟨g f.t0, g f.t1, g f.t2, g f.t3⟩

/-- `v[0] + v[1] + ...`, left to right (46_diag_balancer.md R286). -/
def numSum (num : NumSel) : List Q → Q
  | [] => 0
  | v :: vs => vs.foldl (numAdd num) v

/-- The arithmetic mean of `n` values (46_diag_balancer.md R286). -/
def numMean (num : NumSel) (n : Nat) (vs : List Q) : Q := numDiv num (numSum num vs) n

end Sys2Proof.Machine
end

