-- ==== Sys2Proof/Machine/Profile.lean ====
section
/-! DEFINITION. The functions of the parameters `PROFILE` and `CONV` (20_memory.md R66, 41_register_facade.md R157 to R159)
and the reference values: REF-AFE, the reference conversions, the reference configuration. -/

namespace Sys2Proof.Machine

/-! ## Reading fields of the blocks (41_register_facade.md R157)

A position outside the words read gives 0: the functions are total (log 32). -/

/-- The word at a position. -/
def wordAt (blocks : List (List Word)) (q : WordPos) : Word := (blocks.getD q.block []).getD q.idx 0

/-- The bit at a position. -/
def bitAt (blocks : List (List Word)) (q : BitPos) : Bool := (wordAt blocks ⟨q.block, q.idx⟩).getLsbD q.bit

/-- `w[hi:lo]` as a natural. -/
def bitField (w : Word) (hi lo : Nat) : Nat := (w.toNat >>> lo) % 2 ^ (hi + 1 - lo)

/-- The power code of the flag record. -/
def hwPwrCode (f : PwrField) (blocks : List (List Word)) : Nat :=
  match f with
  | .field q => bitField (wordAt blocks ⟨q.block, q.idx⟩) q.hi q.lo
  | .implementation => Config.hwPwrCode blocks

/-- The flag record a field map reads: each flag one bit of one word (41_register_facade.md R157). -/
def hwFields (m : HwMap) (blocks : List (List Word)) : HwFlags where
  occ := bitAt blocks m.occ
  ocd := bitAt blocks m.ocd
  sc := bitAt blocks m.sc
  wdtOvf := bitAt blocks m.wdtOvf
  extProt := bitAt blocks m.extProt
  reset := bitAt blocks m.reset
  sleep := bitAt blocks m.sleep
  refAbn := bitAt blocks m.refAbn
  muxAbn := bitAt blocks m.muxAbn
  railAbn := bitAt blocks m.railAbn
  eepromAbn := bitAt blocks m.eepromAbn
  clkAbn := bitAt blocks m.clkAbn
  dieOt := bitAt blocks m.dieOt
  dieUt := bitAt blocks m.dieUt
  ntcOt := bitAt blocks m.ntcOt
  ntcUt := bitAt blocks m.ntcUt
  commErr := bitAt blocks m.commErr
  auxRail := bitAt blocks m.auxRail
  diagFault := bitAt blocks m.diagFault
  packOv := bitAt blocks m.packOv
  packUv := bitAt blocks m.packUv
  anyCellOv := bitAt blocks m.anyCellOv
  anyCellUv := bitAt blocks m.anyCellUv
  cellMismatch := bitAt blocks m.cellMismatch
  cellOv := m.cellOv.map (bitAt blocks)
  cellUv := m.cellUv.map (bitAt blocks)
  balElapsed := bitAt blocks m.balElapsed
  dsgOn := bitAt blocks m.dsgOn
  chgOn := bitAt blocks m.chgOn
  pchgOn := bitAt blocks m.pchgOn
  pwrCode := hwPwrCode m.pwrCode blocks

/-- The first `n` elements by index, `d` where there is none: the per-cell arrays have exactly `NCELL` elements
(10_state.md R28). -/
def exactly {α : Type} (n : Nat) (d : α) (l : List α) : List α := (List.range n).map fun i => l.getD i d

/-- `PROFILE.decodeHw`, with per-cell maps of `NCELL` flags. -/
def decodeHw (par : Params) (blocks : List (List Word)) : HwFlags :=
  let h := hwFields par.profile.decodeHw blocks
  { h with cellOv := exactly par.ncell false h.cellOv, cellUv := exactly par.ncell false h.cellUv }

/-- `PROFILE.rawMeas`. -/
def rawMeas (f : Profile) (blocks : List (List Word)) : RawMeas :=
  match f.rawMeas with
  | .fields m =>
    { current := wordAt blocks m.current, packV := wordAt blocks m.packV, auxV := wordAt blocks m.auxV,
      dieT := wordAt blocks m.dieT, ntc := fourMap (wordAt blocks) m.ntc,
      cell := fun i => (m.cell.map (wordAt blocks)).getD i 0 }
  | .implementation => Config.rawMeas blocks

/-- `PROFILE.cellsOf`: the word of cell `i` among the words of `cellBlocks`. -/
def cellsOf (f : Profile) (words : List Word) (i : Nat) : Word :=
  match f.cellsOf with
  | .indices is => words.getD (is.getD i words.length) 0
  | .implementation => Config.cellsOf words i

/-- `PROFILE.pwrCodeOf`. -/
def pwrCodeOf (f : Profile) (w : Word) : Nat :=
  match f.pwrCodeOf with
  | .field hi lo => bitField w hi lo
  | .implementation => Config.pwrCodeOf w

/-- The mask as a number, bit `i` for cell `i`. -/
def maskNat : List Bool → Nat
  | [] => 0
  | b :: bs => (if b then 1 else 0) + 2 * maskNat bs

/-- `PROFILE.balPack`: the register value that carries the mask and the duration (20_memory.md R70 for the reference:
`(d << 8) | zext_8(mask)`). DESIGN CHOICE, log 3: what does not fit that packing is cut, a mask of more than eight cells to
its low byte and a duration above 255 to `d` modulo 256. -/
def balPack (f : Profile) (mask : List Bool) (d : Nat) : RegWrite :=
  match f.balPack with
  | .durationOverMask a => ⟨a, (BitVec.ofNat 16 d <<< 8) ||| BitVec.ofNat 16 (maskNat mask % 256)⟩
  | .implementation => ⟨(Config.balPack mask d).1.toNat, (Config.balPack mask d).2⟩

/-! ## Conversions (41_register_facade.md R158, R159) -/

/-- `s16(w)`: the word read as a two's-complement integer. -/
def s16 (w : Word) : Q := (w.toInt : Q)

/-- `u(w)`: the word read as an unsigned integer. -/
def u16 (w : Word) : Q := (w.toNat : Q)

/-- `sum over k of coef[k] * x^k`. -/
def polynomial (coef : List Q) (x : Q) : Q :=
  match coef with
  | [] => 0
  | a :: rest => a + x * polynomial rest x

/-- `CONV`: the reference formulas, exact whatever `NUM` is (log 30), or the implementation's. -/
def conv (sel : ConvSel) (q : Quantity) (w : Word) (cal : Cal) : Q :=
  match sel with
  | .implementation => Config.conv q w cal
  | .reference =>
    match q with
    | .current => s16 w * cal.iScale
    | .packV => u16 w * cal.vScale
    | .auxV => u16 w * cal.auxScale
    | .dieT => s16 w * cal.dieScale
    | .ntc => polynomial cal.ntcCoef (s16 w)
    | .cellV => u16 w * cal.cellScale

/-! ## Reference values -/

/-- A flag of REF-AFE: block 0 of `telemBlocks` is registers 00 to 0F, so register `r` is word `r` (20_memory.md R70). -/
def refBit (r b : Nat) : BitPos := ⟨0, r, b⟩

/-- The flag positions of REF-AFE (20_memory.md R70). -/
def refHwMap : HwMap where
  occ := refBit 1 0
  ocd := refBit 1 1
  sc := refBit 1 2
  wdtOvf := refBit 0 4
  extProt := refBit 0 5
  reset := refBit 0 6
  sleep := refBit 0 7
  refAbn := refBit 0 8
  muxAbn := refBit 0 9
  railAbn := refBit 0 10
  eepromAbn := refBit 0 11
  clkAbn := refBit 0 12
  dieOt := refBit 1 3
  dieUt := refBit 1 4
  ntcOt := refBit 1 5
  ntcUt := refBit 1 6
  commErr := refBit 1 7
  auxRail := refBit 5 0
  diagFault := refBit 5 1
  packOv := refBit 1 8
  packUv := refBit 1 9
  anyCellOv := refBit 1 10
  anyCellUv := refBit 1 11
  cellMismatch := refBit 1 12
  cellOv := (List.range 4).map (refBit 3)
  cellUv := (List.range 4).map (refBit 4)
  balElapsed := refBit 7 0
  dsgOn := refBit 6 0
  chgOn := refBit 6 1
  pchgOn := refBit 6 2
  pwrCode := .field ⟨0, 0, 3, 0⟩

/-- The measurement positions of REF-AFE (20_memory.md R70). -/
def refMeasMap : MeasMap where
  current := ⟨0, 0x0F⟩
  packV := ⟨0, 0x08⟩
  auxV := ⟨0, 0x09⟩
  dieT := ⟨0, 0x0A⟩
  ntc := ⟨⟨0, 0x0B⟩, ⟨0, 0x0C⟩, ⟨0, 0x0D⟩, ⟨0, 0x0E⟩⟩
  cell := (List.range 4).map fun i => ⟨1, i⟩

/-- The reference profile REF-AFE (20_memory.md R70). -/
def refAfe : Profile where
  statusAddr := 0x00
  pwrCodeOf := .field 3 0
  powerupCode := 5
  mosfetCtrlAddr := 0x20
  balOff := ⟨0x21, 0x0000⟩
  clrReset := ⟨0x26, 0x0001⟩
  balWindow := ⟨0x22, 0x0001⟩
  diagUnlock := ⟨0x23, 0x0001⟩
  diagPullUp := ⟨0x23, 0x0002⟩
  diagPullDown := ⟨0x23, 0x0003⟩
  diagClear := ⟨0x23, 0x0000⟩
  clrErrors := [⟨0x24, 0xFFFF⟩]
  wdtArm := ⟨0x25, 0x0064⟩
  cellBlocks := [⟨0x10, 4⟩]
  cellsOf := .indices [0, 1, 2, 3]
  telemBlocks := [⟨0x00, 16⟩, ⟨0x10, 4⟩]
  decodeHw := refHwMap
  rawMeas := .fields refMeasMap
  balPack := .durationOverMask 0x21
  balDuration := 10

/-- The reference parameters (00_scope.md R9, 95_test_vectors.md 1.1). DESIGN CHOICE of the reset state, log 1: unsafe. -/
def refParams : Params where
  nsel := 3
  npack := 2
  ncell := 4
  k := 3
  cycleS := 1 / 4
  crcPoly := 0x8C
  enabled := [true, true]
  profile := refAfe
  conv := .reference
  num := .exact
  warnMask := 0xFFFFFFFF
  dsgIndexSrc := .tmin
  tempMismatch := .constFalse
  currAbnormal := .constFalse

/-- The reference calibration (41_register_facade.md R159). -/
def refCal : Cal where
  ntcCoef := [0, 1 / 10]
  iScale := 1 / 100
  vScale := 1 / 100
  auxScale := 1 / 1000
  dieScale := 1 / 10
  cellScale := 1 / 1000

/-- The reference configuration (95_test_vectors.md 1.2). DESIGN CHOICE of the reset state, log 2: unsafe. -/
def refConfig : PackConfig where
  table := [⟨-20, 5, -50⟩, ⟨0, 157 / 10, -157⟩, ⟨45, 314 / 10, -157⟩]
  chgCeilFull := 157
  chgCeilReduced := 10
  dsgCeilFull := -157
  dsgCeilReduced := -100
  i2tCeiling := 100
  i2tDecay := 10
  balStartV := 4
  balDiff := 1 / 100
  diagThreshold := 1 / 2
  prechgTol := 1
  cal := refCal
  userRegs := []

end Sys2Proof.Machine
end

