-- ==== Sys2Proof/Machine/Flags.lean ====
section
/-! DEFINITION. Every flag computation, as pure functions: the software alert field (10_state.md R30, 44_alert_aggregator.md
R241 to R246) and the arbiter's error terms (45_mosfet_arbiter.md R261). -/

namespace Sys2Proof.Machine

/-- Bit `n` of the alert field, set when `b`. -/
def alertBit (n : Nat) (b : Bool) : BitVec 32 := if b then BitVec.ofNat 32 (2 ^ n) else 0

/-- The nine chip-state conditions (44_alert_aggregator.md R243). -/
def chipFault (h : HwFlags) : Bool :=
  h.wdtOvf || h.extProt || h.reset || h.sleep || h.refAbn || h.muxAbn || h.railAbn || h.eepromAbn || h.clkAbn

/-- `tempMismatchCond` (44_alert_aggregator.md R246). -/
def tempMismatch (par : Params) (t : Telemetry) (g : PackConfig) : Bool :=
  match par.tempMismatch with
  | .constFalse => false
  | .implementation => Config.tempMismatchCond t g

/-- `currAbnormalCond` (44_alert_aggregator.md R246). -/
def currAbnormal (par : Params) (t : Telemetry) (g : PackConfig) : Bool :=
  match par.currAbnormal with
  | .constFalse => false
  | .implementation => Config.currAbnormalCond t g

/-- The threshold of the last table entry, `table[K-1].temp`. -/
def topTemp (g : PackConfig) : Q := (g.table.getD (g.table.length - 1) default).temp

/-- The threshold of the first table entry, `table[0].temp`. -/
def bottomTemp (g : PackConfig) : Q := (g.table.getD 0 default).temp

/-- The two bits that are copied (44_alert_aggregator.md R241). -/
def copiedAlerts (h : HwFlags) : BitVec 32 := alertBit 0 h.occ ||| alertBit 1 h.ocd

/-- The conditions that latch, each with its bit (10_state.md R30; 44_alert_aggregator.md R242 to R246). -/
def latchConditions (par : Params) (t : Telemetry) (g : PackConfig) : List (Nat × Bool) :=
  [(2, decide (t.availChg < t.current)),
   (3, decide (t.current < t.availDsg)),
   (4, t.hw.sc),
   (5, chipFault t.hw),
   (6, t.hw.dieOt),
   (7, t.hw.dieUt),
   (8, t.hw.ntcOt),
   (9, t.hw.ntcUt),
   (10, decide (topTemp g < fourMax t.ntc)),
   (11, decide (fourMin t.ntc < bottomTemp g)),
   (12, tempMismatch par t g),
   (13, t.hw.commErr),
   (14, t.hw.auxRail || t.hw.diagFault),
   (15, t.hw.packOv),
   (16, t.hw.anyCellOv),
   (17, t.hw.packUv),
   (18, t.hw.anyCellUv),
   (19, t.hw.cellMismatch),
   (20, decide (g.i2tCeiling < t.i2t)),
   (21, currAbnormal par t g)]

/-- The bits this cycle's conditions set. -/
def latchedAlerts (conds : List (Nat × Bool)) : BitVec 32 :=
  conds.foldl (fun a c => a ||| alertBit c.1 c.2) 0

/-- The new software alert field (44_alert_aggregator.md R240): bits 0 and 1 overwritten, the others OR-latched; bits 31:22
are not written (log 29). -/
def newAlerts (par : Params) (t : Telemetry) (g : PackConfig) : BitVec 32 :=
  (t.swAlerts &&& ~~~(3 : BitVec 32)) ||| copiedAlerts t.hw ||| latchedAlerts (latchConditions par t g)

/-- `errorAll` (45_mosfet_arbiter.md R261): bits 4 to 14 and 19 to 21. -/
def errorAll (a : BitVec 32) : Bool :=
  a.getLsbD 4 || a.getLsbD 5 || a.getLsbD 6 || a.getLsbD 7 || a.getLsbD 8 || a.getLsbD 9 || a.getLsbD 10 ||
  a.getLsbD 11 || a.getLsbD 12 || a.getLsbD 13 || a.getLsbD 14 || a.getLsbD 19 || a.getLsbD 20 || a.getLsbD 21

/-- `errorCharge` (45_mosfet_arbiter.md R261): `HW_OCC`, `SW_OCC`, `PACK_OV`, `CELL_OV`. -/
def errorCharge (a : BitVec 32) : Bool :=
  a.getLsbD 0 || a.getLsbD 2 || a.getLsbD 15 || a.getLsbD 16

/-- `errorDischarge` (45_mosfet_arbiter.md R261): `HW_OCD`, `SW_OCD`, `PACK_UV`, `CELL_UV`. -/
def errorDischarge (a : BitVec 32) : Bool :=
  a.getLsbD 1 || a.getLsbD 3 || a.getLsbD 17 || a.getLsbD 18

end Sys2Proof.Machine
end

