-- ==== Sys2Proof/Syntax.lean ====
section
/-! DEFINITION. The 35 operations of spec/opcode_table.json, one constructor per row, and the coded forms an operation can
have on CORE's ports (30_encoding.md R90). -/

namespace Sys2Proof

/-- The operations of CORE, in the order of spec/opcode_table.json. Addresses, counts and indices are naturals, since an
operand out of range has an effect of its own (30_encoding.md R101). `p` is a pack index, `c` the sampled command. -/
inductive Instr where
  | select (index : Nat)
  | wrreg (address : Nat) (value : Word)
  | rdreg (address : Nat) (count : Nat)
  | packStep (p : Nat)
  | stDisabled (p : Nat)
  | stWaitinit (p : Nat)
  | stInit (p : Nat)
  | stWaitdiag0 (p : Nat)
  | stDiag0 (p : Nat)
  | stWaitdiag1 (p : Nat)
  | stDiag1 (p : Nat)
  | stWaitdiag2 (p : Nat)
  | stDiag2 (p : Nat)
  | stConfig (p : Nat)
  | stRun (p : Nat) (c : Cmd)
  | stRunwarning (p : Nat) (c : Cmd)
  | stSanitycheck (p : Nat) (c : Cmd)
  | stError (p : Nat) (c : Cmd)
  | crc8 (bs : List Byte)
  | frameOk (f : List Byte)
  | afeWrite (p : Nat) (address : Nat) (value : Word)
  | afeRead (p : Nat) (address : Nat) (count : Nat)
  | readStatus (p : Nat)
  | readCells (p : Nat)
  | readTelemetry (p : Nat)
  | pass
  | runs (u : List RegWrite)
  | runBody (p : Nat) (c : Cmd)
  | nextRunState (p : Nat)
  | limits (p : Nat)
  | i2t (p : Nat)
  | alerts (p : Nat)
  | arbiter (a : BitVec 32) (h : HwFlags) (c : Cmd) (vpack vb tol : Q)
  | diagEval (buf : List Q) (thr : Q)
  | balance (p : Nat)
deriving DecidableEq, Repr

/-- A coded request at the framer's interface: a request frame (formats W and RQ), or a select-line code (format SEL),
line 0 first. -/
inductive Request where
  | frame (bytes : List Byte)
  | lines (ls : List Bool)
deriving DecidableEq, Repr, Inhabited

/-- The coded form of an operation: a request, or the state code of a pack step (format ST) with the operands its place
gives it, the pack and the sampled command (30_encoding.md R90, R97, 42_pack_supervisor.md R171). -/
inductive Coded where
  | request (r : Request)
  | state (p : Nat) (c : Cmd) (code : BitVec 4)
deriving DecidableEq, Repr

end Sys2Proof
end

