-- ==== Sys2Proof/Machine/Operands.lean ====
section
/-! DEFINITION. Operand forms of the bus and of the supervisor, as pure functions: byte order, CRC-8, the frames, the
select-line code, the drive word, the user register list and its readback runs. -/

namespace Sys2Proof.Machine

/-! ## Ranges (00_scope.md R8) -/

/-- "address 0 to 127" (00_scope.md R8 `ADDR_MAX`). -/
def addressOk (a : Nat) : Bool := a ≤ 127

/-- "count 1 to 32" (00_scope.md R8 `BURST_MAX`). -/
def countOk (n : Nat) : Bool := 1 ≤ n && n ≤ 32

/-! ## Byte order (20_memory.md R64) -/

/-- `v[15:8]`, the byte sent first. -/
def hiByte (v : Word) : Byte := v.extractLsb' 8 8

/-- `v[7:0]`. -/
def loByte (v : Word) : Byte := v.extractLsb' 0 8

/-- `h ∥ l`: the first byte received is the more significant one. -/
def joinBytes (h l : Byte) : Word := h ++ l

/-! ## CRC-8 (40_transport_framer.md R121, R122; PRESUMED by the spec from general knowledge, U2 and U3, log 24) -/

/-- One of the eight steps that generate a table entry (40_transport_framer.md R122). -/
def crcShift (poly v : Byte) : Byte :=
  if v.getLsbD 0 then (v >>> 1) ^^^ poly else v >>> 1

/-- `CRC_TABLE[i]` for the polynomial `poly` (40_transport_framer.md R122). -/
def crcTable (poly i : Byte) : Byte :=
  Nat.repeat (crcShift poly) 8 i

/-- `crc8`: seed 0x00, `c <- CRC_TABLE[c ^ b]` for each byte, no final inversion (40_transport_framer.md R121). -/
def crc8 (poly : Byte) (bs : List Byte) : Byte :=
  bs.foldl (fun c b => crcTable poly (c ^^^ b)) 0

/-- `FRAME_OK(f)`: `crc8(f) = 0` (40_transport_framer.md R127). -/
def frameOk (poly : Byte) (f : List Byte) : Bool :=
  crc8 poly f == 0

/-! ## Frames (30_encoding.md R91 to R95) -/

/-- Byte 0 of a request: the address in bits 7:1, the write flag in bit 0 (30_encoding.md R94). -/
def headByte (address : Nat) (w : Bool) : Byte :=
  (BitVec.ofNat 8 address <<< 1) ||| (if w then 1 else 0)

/-- The first three bytes of a write frame (30_encoding.md R91). -/
def wrHead (address : Nat) (value : Word) : List Byte :=
  [headByte address true, hiByte value, loByte value]

/-- Format W: the three bytes and their CRC (30_encoding.md R91, 40_transport_framer.md R125). -/
def wrFrame (poly : Byte) (address : Nat) (value : Word) : List Byte :=
  wrHead address value ++ [crc8 poly (wrHead address value)]

/-- Byte 1 of a read request: `h` and bits 6:5 zero, `count - 1` in bits 4:0 (30_encoding.md R92, R94). -/
def countByte (count : Nat) : Byte := BitVec.ofNat 8 (count - 1)

/-- Format RQ: the header and `2 * count + 1` filler bytes 0x00 (30_encoding.md R92, 40_transport_framer.md R126). -/
def rdFrame (address count : Nat) : List Byte :=
  [headByte address false, countByte count] ++ List.replicate (2 * count + 1) 0

/-- The `count` words of a response, register `address + i` from bytes `2 + 2i`, `3 + 2i` (30_encoding.md R93, R95). -/
def wordsOf (count : Nat) (rx : List Byte) : List Word :=
  (List.range count).map fun i => joinBytes (rx.getD (2 + 2 * i) 0) (rx.getD (3 + 2 * i) 0)

/-! ## Select lines and drive word (30_encoding.md R96, R105) -/

/-- Format SEL: index bit `i` drives line `i`, for `0 <= i < NSEL` (30_encoding.md R96). -/
def selLines (nsel index : Nat) : List Bool :=
  (List.range nsel).map fun i => index.testBit i

/-- The index the lines carry, line 0 the least significant. -/
def lineIndex : List Bool → Nat
  | [] => 0
  | b :: ls => (if b then 1 else 0) + 2 * lineIndex ls

/-- `zext_16(drive)`: the drive pattern as a register value, bits 15:3 zero (30_encoding.md R105). -/
def driveWord (d : BitVec 3) : Word := d.zeroExtend 16

/-! ## The user register list (10_state.md R36, 30_encoding.md R107, 42_pack_supervisor.md R175) -/

/-- The list read from its stored form: the pairs in order, up to and without the first pair `(0, 0)` (30_encoding.md
R107). -/
def userList (stored : List RegWrite) : List RegWrite :=
  stored.takeWhile fun w => !(w.addr == 0 && w.value == 0)

/-- The runs of the entries that follow, when the run under way began at index `k0`, has `n` entries and ended at address
`prev`: it is extended exactly by an entry at `prev + 1` while it has fewer than 32 (42_pack_supervisor.md R175). -/
def runsFrom (k0 n prev : Nat) : List RegWrite → List (Nat × Nat)
  | [] => [(k0, n)]
  | w :: rest =>
    if n < 32 && w.addr == prev + 1 then runsFrom k0 (n + 1) w.addr rest
    else (k0, n) :: runsFrom (k0 + n) 1 w.addr rest

/-- `RUNS(U)`: the partition of the list into readback bursts, pairs (first index, length) (42_pack_supervisor.md
R175). -/
def runs : List RegWrite → List (Nat × Nat)
  | [] => []
  | w :: rest => runsFrom 0 1 w.addr rest

end Sys2Proof.Machine
end

