-- ==== Sys2Proof/WellFormed.lean ====
section
/-! DEFINITION. When the operands of an operation lie in the ranges the spec gives them. -/

namespace Sys2Proof

open Machine (addressOk countOk)

/-- The operands of an operation lie in the ranges the spec gives them (30_encoding.md R94, R96, R101; 10_state.md R21,
R36, R41). An operation out of range still has the meaning the spec gives it (`Err(BadArgument)`), but no encoding. -/
def Instr.wellFormed (par : Params) : Instr → Bool
  | .select index => index < 2 ^ par.nsel
  | .wrreg address _ => addressOk address
  | .rdreg address count => addressOk address && countOk count
  | .packStep p => p < par.npack
  | .stDisabled p => p < par.npack
  | .stWaitinit p => p < par.npack
  | .stInit p => p < par.npack
  | .stWaitdiag0 p => p < par.npack
  | .stDiag0 p => p < par.npack
  | .stWaitdiag1 p => p < par.npack
  | .stDiag1 p => p < par.npack
  | .stWaitdiag2 p => p < par.npack
  | .stDiag2 p => p < par.npack
  | .stConfig p => p < par.npack
  | .stRun p _ => p < par.npack
  | .stRunwarning p _ => p < par.npack
  | .stSanitycheck p _ => p < par.npack
  | .stError p _ => p < par.npack
  | .crc8 _ => true
  | .frameOk _ => true
  | .afeWrite p address _ => p < par.npack && addressOk address
  | .afeRead p address count => p < par.npack && addressOk address && countOk count
  | .readStatus p => p < par.npack
  | .readCells p => p < par.npack
  | .readTelemetry p => p < par.npack
  | .pass => true
  | .runs u => u.all (fun w => addressOk w.addr)
  | .runBody p _ => p < par.npack
  | .nextRunState p => p < par.npack
  | .limits p => p < par.npack
  | .i2t p => p < par.npack
  | .alerts p => p < par.npack
  | .arbiter _ _ _ _ _ tol => 0 ≤ tol
  | .diagEval buf thr => buf.length == 3 * par.ncell && 0 ≤ thr
  | .balance p => p < par.npack

end Sys2Proof
end

