-- ==== Sys2Proof/Decode.lean ====
section
/-! DEFINITION. Decoding the coded forms (30_encoding.md R90 to R99), total, rejecting by name, and the encoder written from
the same tables. -/

namespace Sys2Proof

/-- Why a coded form is no operation. -/
inductive DecodeError where
  /-- the frame has fewer bytes than its header -/
  | shortFrame
  /-- the frame's length is not that of its format (30_encoding.md R98) -/
  | wrongLength
  /-- byte 1 bits 6:5 of a read request are not 0 (30_encoding.md R92, R100) -/
  | reservedBits
  /-- byte 1 bit 7 (`h`) of a read request is not 0 (30_encoding.md R92, R100) -/
  | highAddressBit
  /-- a filler byte of a read request is not 0x00 (30_encoding.md R92) -/
  | fillerNotZero
  /-- a select code that does not have `NSEL` lines (30_encoding.md R96) -/
  | wrongLineCount
  /-- state code 14 or 15 (30_encoding.md R104) -/
  | reservedCode
deriving DecidableEq, Repr

open Machine

/-- A request frame. Byte 0 bit 0 is the only opcode bit (30_encoding.md R99); the operands are read back as in R95. The
CRC byte of a write frame is no operand and is not compared here (R95; `FRAME_OK` is the check, log 10). What CORE never
sends (reserved bits, `h`, filler) is rejected: DESIGN CHOICE, log 25, safe. -/
def decodeFrame : List Byte → Except DecodeError Instr
  | b0 :: b1 :: rest =>
    if b0.getLsbD 0 then
      match rest with
      | [b2, _] => .ok (.wrreg (b0 >>> 1).toNat (joinBytes b1 b2))
      | _ => .error .wrongLength
    else if b1.getLsbD 7 then .error .highAddressBit
    else if b1.extractLsb' 5 2 != 0 then .error .reservedBits
    else if rest.length != 2 * ((b1.extractLsb' 0 5).toNat + 1) + 1 then .error .wrongLength
    else if rest.any (fun b => b != 0) then .error .fillerNotZero
    else .ok (.rdreg (b0 >>> 1).toNat ((b1.extractLsb' 0 5).toNat + 1))
  | _ => .error .shortFrame

/-- A select-line code (30_encoding.md R96). -/
def decodeLines (nsel : Nat) (ls : List Bool) : Except DecodeError Instr :=
  if ls.length = nsel then .ok (.select (lineIndex ls)) else .error .wrongLineCount

/-- The state code of a pack step selects its operation (10_state.md R22, 30_encoding.md R97, 42_pack_supervisor.md R171);
14 and 15 are reserved (30_encoding.md R104). -/
def decodeState (p : Nat) (c : Cmd) (code : BitVec 4) : Except DecodeError Instr :=
  match code.toNat with
  | 0 => .ok (.stDisabled p)
  | 1 => .ok (.stWaitinit p)
  | 2 => .ok (.stInit p)
  | 3 => .ok (.stWaitdiag0 p)
  | 4 => .ok (.stDiag0 p)
  | 5 => .ok (.stWaitdiag1 p)
  | 6 => .ok (.stDiag1 p)
  | 7 => .ok (.stWaitdiag2 p)
  | 8 => .ok (.stDiag2 p)
  | 9 => .ok (.stConfig p)
  | 10 => .ok (.stRun p c)
  | 11 => .ok (.stRunwarning p c)
  | 12 => .ok (.stSanitycheck p c)
  | 13 => .ok (.stError p c)
  | _ => .error .reservedCode

/-- A request at the framer's interface. -/
def decodeRequest (nsel : Nat) : Request → Except DecodeError Instr
  | .frame bytes => decodeFrame bytes
  | .lines ls => decodeLines nsel ls

/-- The operation a coded form stands for, on a machine with `nsel` select lines. -/
def decode (nsel : Nat) : Coded → Except DecodeError Instr
  | .request r => decodeRequest nsel r
  | .state p c code => decodeState p c code

/-- The coded form of an operation, where it has one: the frames and lines CORE drives for it, or its state code.
`PACK_STEP` has none of its own (its four bits are the contents of the state register, which select an `ST_` operation,
30_encoding.md R97, R99), and an operation of class `unit` has none (R109). The state operations without operand `c`
carry the all-zero command. -/
def encode (par : Params) : Instr → Option Coded
  | .select index => some (.request (.lines (selLines par.nsel index)))
  | .wrreg address value => some (.request (.frame (wrFrame par.crcPoly address value)))
  | .rdreg address count => some (.request (.frame (rdFrame address count)))
  | .packStep _ => none
  | .stDisabled p => some (.state p default 0)
  | .stWaitinit p => some (.state p default 1)
  | .stInit p => some (.state p default 2)
  | .stWaitdiag0 p => some (.state p default 3)
  | .stDiag0 p => some (.state p default 4)
  | .stWaitdiag1 p => some (.state p default 5)
  | .stDiag1 p => some (.state p default 6)
  | .stWaitdiag2 p => some (.state p default 7)
  | .stDiag2 p => some (.state p default 8)
  | .stConfig p => some (.state p default 9)
  | .stRun p c => some (.state p c 10)
  | .stRunwarning p c => some (.state p c 11)
  | .stSanitycheck p c => some (.state p c 12)
  | .stError p c => some (.state p c 13)
  | .crc8 _ => none
  | .frameOk _ => none
  | .afeWrite _ _ _ => none
  | .afeRead _ _ _ => none
  | .readStatus _ => none
  | .readCells _ => none
  | .readTelemetry _ => none
  | .pass => none
  | .runs _ => none
  | .runBody _ _ => none
  | .nextRunState _ => none
  | .limits _ => none
  | .i2t _ => none
  | .alerts _ => none
  | .arbiter _ _ _ _ _ _ => none
  | .diagEval _ _ => none
  | .balance _ => none

/-! ## The table's words

spec/opcode_table.json writes a frame as one number with byte 0 in its most significant byte, a select code as three bits
and a state code as four. Both codes take one byte, and nothing in them says which is meant (30_encoding.md R99: the place
does). Log 10. -/

/-- Byte `i` of a number of `n` bytes, byte 0 the most significant. -/
def tableByte (n w i : Nat) : Byte := BitVec.ofNat 8 (w >>> (8 * (n - 1 - i)))

/-- The bytes of a frame whose first `n` bytes are the number `w`, zeros after them up to the length its header tells
(30_encoding.md R98): four for a write, `2 * count + 3` for a read. -/
def tableFrame (n w : Nat) : List Byte :=
  let head := (List.range n).map (tableByte n w)
  let len := if (head.getD 0 0).getLsbD 0 then 4 else 2 * (((head.getD 1 0).extractLsb' 0 5).toNat + 1) + 3
  head ++ List.replicate (len - n) 0

/-- The coded form a table word of `nbits` bits stands for: up to 3 bits a select code (the table's `NSEL` is 3), up to 8
bits a state code of pack 0 with the all-zero command, longer a frame. -/
def tableCoded (nbits w : Nat) : Option Coded :=
  if nbits ≤ 3 then
    if w < 8 then some (.request (.lines (selLines 3 w))) else none
  else if nbits ≤ 8 then
    if w < 16 then some (.state 0 default (BitVec.ofNat 4 w)) else none
  else some (.request (.frame (tableFrame ((nbits + 7) / 8) w)))

/-- The operation the decoder reads from a table word. -/
def decodeTableWord (nbits w : Nat) : Option Instr :=
  match tableCoded nbits w with
  | some f =>
    match decode 3 f with
    | .ok i => some i
    | .error _ => none
  | none => none

end Sys2Proof
end

