-- ==== Sys2Proof/Machine/Validity.lean ====
section
/-! DEFINITION. Valid parameter sets and configurations (00_scope.md R9, R19): what the spec says a model refuses. -/

namespace Sys2Proof.Machine

/-- Each element stands in the relation `r` to the next one. -/
def chained {α : Type} (r : α → α → Bool) : List α → Bool
  | [] => true
  | [_] => true
  | a :: b :: rest => r a b && chained r (b :: rest)

/-- 00_scope.md R19 (b) and (c) for two neighbouring table entries. -/
def entryAscends (a b : TableEntry) : Bool :=
  a.temp ≤ b.temp && a.chg ≤ b.chg && b.dsg ≤ a.dsg

/-- A burst of a profile is within the contract (00_scope.md R19 (d)). -/
def burstValid (b : Burst) : Bool := addressOk b.addr && countOk b.count

/-- The single command writes of a profile (20_memory.md R66). -/
def commandWrites (f : Profile) : List RegWrite :=
  [f.balOff, f.clrReset, f.balWindow, f.diagUnlock, f.diagPullUp, f.diagPullDown, f.diagClear, f.wdtArm] ++ f.clrErrors

/-- Every address of the profile is at most 127 and every count in 1 to 32 (00_scope.md R19 (d), 20_memory.md R66). An
opaque `balPack` yields 7-bit addresses by its type. -/
def profileValid (f : Profile) : Bool :=
  addressOk f.statusAddr && addressOk f.mosfetCtrlAddr &&
  (commandWrites f).all (fun w => addressOk w.addr) &&
  f.cellBlocks.all burstValid && f.telemBlocks.all burstValid &&
  (match f.balPack with
   | .durationOverMask a => addressOk a
   | .implementation => true)

/-- The constraints of 00_scope.md R9, with the profile's: a parameter set that breaks one is not a CORE. -/
def paramsValid (par : Params) : Bool :=
  1 ≤ par.nsel && 1 ≤ par.npack && par.npack ≤ 2 ^ par.nsel && 1 ≤ par.ncell && 1 ≤ par.k &&
  0 < par.cycleS && par.crcPoly.getLsbD 7 && profileValid par.profile

/-- The ceilings and the table's current entries have the right signs: charge at or above 0, discharge at or below 0
(70_reset_and_hazards.md R343 (a), which names no sign; 10_state.md R33, R34 and 43_limits_thermal.md R223 do; log 20). -/
def ceilingSigns (g : PackConfig) : Bool :=
  0 ≤ g.chgCeilFull && 0 ≤ g.chgCeilReduced && g.dsgCeilFull ≤ 0 && g.dsgCeilReduced ≤ 0 &&
  g.table.all fun e => 0 ≤ e.chg && e.dsg ≤ 0

/-- The configuration of one pack is valid (00_scope.md R19 (b) to (e), 70_reset_and_hazards.md R343 (a); the table has `K`
entries, 10_state.md R33). -/
def configValid (par : Params) (g : PackConfig) : Bool :=
  g.table.length == par.k && chained entryAscends g.table && ceilingSigns g &&
  (userList g.userRegs).all (fun w => addressOk w.addr) &&
  0 ≤ g.i2tDecay && 0 ≤ g.i2tCeiling && 0 ≤ g.diagThreshold && 0 ≤ g.prechgTol

end Sys2Proof.Machine
end

