-- ==== Sys2Proof/Machine/State.lean ====
section
/-! DEFINITION. The state of CORE (10_state.md), its reset value (R46), and the reasons a step can stop. -/

namespace Sys2Proof.Machine

/-- The three error kinds of transport and facade operations (60_exceptions.md R300). -/
inductive ErrKind where
  | badArgument
  | transport
  | crc
deriving DecidableEq, Repr, Inhabited

/-- What a report names: an error kind (60_exceptions.md R300), or one of the two pack faults (R301). -/
inductive ReportKind where
  | err (k : ErrKind)
  | configFault
  | diagFault
deriving DecidableEq, Repr, Inhabited

/-- An event of the observable trace (10_state.md R45). `sel` tells whether the drive answered `Ok`; `xfer` the device
index on the lines, the frame sent and the answer; `report` the pack, its state at the start of the step, the kind. -/
inductive Event where
  | sel (index : Nat) (ok : Bool)
  | xfer (dev : Nat) (tx : List Byte) (answer : BusAnswer)
  | report (p : Nat) (state : BitVec 4) (kind : ReportKind)
deriving DecidableEq, Repr, Inhabited

/-- What the operation executed last gave back: the MODEL's own register, log 11. `done` is `Ok(())` or the end of an
operation that returns nothing, `err` a returned `Err(kind)`, `aborted` a step abort that was taken. -/
inductive OpResult where
  | none
  | done
  | err (k : ErrKind)
  | aborted (k : ErrKind)
  | byte (b : Byte)
  | bool (b : Bool)
  | words (ws : List Word)
  | code (n : Nat)
  | samples (vs : List Q)
  | runs (rs : List (Nat × Nat))
  | drive (d : BitVec 3)
  | verdict (pass : Bool)
deriving DecidableEq, Repr, Inhabited

/-- The environment as the model sees it, the MODEL's own fields (log 5, 6): scripted moves and answers, and the number of
free values drawn so far. Where a script is empty the move or answer is free. -/
structure Env where
  moves : List (List EnvWrite)
  drives : List Bool
  answers : List BusAnswer
  draws : Nat
deriving DecidableEq, Repr, Inhabited

/-- One pack: its telemetry record `T[p]`, command record `C[p]`, configuration `G[p]` and input `sanityTrigger[p]`
(10_state.md R20, R43). -/
structure Pack where
  tel : Telemetry
  cmd : Cmd
  cfg : PackConfig
  sanityTrigger : Bool
deriving DecidableEq, Repr, Inhabited

/-- The state of CORE (10_state.md R20 to R45). `cur` is a value only during a pass (R21). `diagLock` is `none` when
`held = 0`, and `some owner` when `held = 1` (R40). `sel` is one Bool per line, line 0 first (R42). `par` are the
parameters, which nothing writes (R47, log 1). `env`, `request`, `result` are the model's own (log 5, 9, 11). -/
structure State where
  par : Params
  packs : List Pack
  cur : Option Nat
  sync : Bool
  shutdown : Bool
  halted : Bool
  diagLock : Option Nat
  diagBuf : List Q
  sel : List Bool
  vbus : Q
  trace : List Event
  env : Env
  request : Option Request
  result : OpResult
deriving DecidableEq, Repr

/-- CORE has no process-level fatal error: "There is no process-level fatal error path in the core itself"
(60_exceptions.md R303). Transport errors are results and events, safety faults are alert bits (R302). So nothing raises a
fault and the type has no constructor; log 31, safe. -/
inductive Fault where
deriving DecidableEq, Repr

/-- Where the spec says that a model refuses, and where an operand names nothing. Each is safe: the machine stops where the
spec gives no behaviour. -/
inductive Refusal where
  /-- raised by `exec`'s arm of an instruction that has no meaning yet; safe -/
  | notModelled (mnemonic : String)
  /-- raised by an operation on a pack `p` that is not one of the packs (10_state.md R20: `0 <= p < NPACK`); safe, log 21 -/
  | noSuchPack (p : Nat)
  /-- raised by `PACK_STEP` on state code 14 or 15 (30_encoding.md R104: "a model ... refuses"); safe, log 33 -/
  | reservedState (code : BitVec 4)
  /-- raised by a pack's operation and by `PASS` under parameters that break 00_scope.md R9 ("a model refuses it"); safe,
  log 20 -/
  | invalidParams
  /-- raised by a pack's operation whose configuration breaks 00_scope.md R19 ("a model refuses to run a pack") or the
  signs of 70_reset_and_hazards.md R343 ("a model refuses it"); safe, log 20 -/
  | invalidConfig (p : Nat)
  /-- raised by `PASS` while a pass is under way (70_reset_and_hazards.md R356, U10: "refuse"); safe, log 8 -/
  | passOverrun
  /-- raised by `step` for a pending request that is no frame and no select code; safe, log 9 -/
  | undecodable (e : DecodeError)
deriving DecidableEq, Repr

/-! ## Reset (10_state.md R46) -/

/-- No flag set, power code 0, per-cell maps of `n` clear flags. -/
def hwReset (n : Nat) : HwFlags where
  occ := false
  ocd := false
  sc := false
  wdtOvf := false
  extProt := false
  reset := false
  sleep := false
  refAbn := false
  muxAbn := false
  railAbn := false
  eepromAbn := false
  clkAbn := false
  dieOt := false
  dieUt := false
  ntcOt := false
  ntcUt := false
  commErr := false
  auxRail := false
  diagFault := false
  packOv := false
  packUv := false
  anyCellOv := false
  anyCellUv := false
  cellMismatch := false
  cellOv := List.replicate n false
  cellUv := List.replicate n false
  balElapsed := false
  dsgOn := false
  chgOn := false
  pchgOn := false
  pwrCode := 0

/-- `T[p]` after reset: everything zero but the identity and, for an enabled pack, the state `WaitInit` (10_state.md R46,
D44, D46). -/
def telReset (par : Params) (p : Nat) : Telemetry where
  id := p
  state := if par.enabled.getD p false then 1 else 0
  raw := par.profile.telemBlocks.map fun b => List.replicate b.count 0
  hw := hwReset par.ncell
  swAlerts := 0
  mosfetDrive := 0
  i2t := 0
  availChg := 0
  availDsg := 0
  current := 0
  voltage := 0
  cellV := List.replicate par.ncell 0
  ntc := ⟨0, 0, 0, 0⟩
  dieTemp := 0
  auxV := 0
  capacity := 0
  health := 0
  cycles := 0

/-- The state after reset of a CORE with parameters `par` whose loader gave pack `p` the configuration `cfg p`
(10_state.md R46). Values the spec does not give: `diagBuf` all 0 (log 14), `vbus` 0 and no sanity trigger (log 18), the
model's own fields empty (log 5, 9, 11): DESIGN CHOICE, unsafe. -/
def State.resetWith (par : Params) (cfg : Nat → PackConfig) : State where
  par := par
  packs := (List.range par.npack).map fun p =>
    { tel := telReset par p, cmd := ⟨false, false, false, false⟩, cfg := cfg p, sanityTrigger := false }
  cur := none
  sync := false
  shutdown := false
  halted := false
  diagLock := none
  diagBuf := List.replicate (3 * par.ncell) 0
  sel := List.replicate par.nsel false
  vbus := 0
  trace := []
  env := ⟨[], [], [], 0⟩
  request := none
  result := .none

/-- The machine right after reset: the reference parameters and configuration of the spec's own vectors (log 1, 2). -/
def State.reset : State := State.resetWith refParams fun _ => refConfig

end Sys2Proof.Machine
end

