-- ==== Sys2Proof/Machine/Ops.lean ====
section
/-! DEFINITION. The named operations over State that the meanings share: packs, events, the two ports and their free
answers, the environment's moves, what a failing transaction does to the rest of an operation, and TAKING A STEP ABORT. -/

namespace Sys2Proof.Machine

/-! ## Packs -/

/-- Pack `p` (the default pack where there is none; a meaning looks first, `onPack`). -/
def State.pack (s : State) (p : Nat) : Pack := s.packs.getD p default

/-- `T[p]`. -/
def State.tel (s : State) (p : Nat) : Telemetry := (s.pack p).tel

/-- `C[p]`. -/
def State.cmd (s : State) (p : Nat) : Cmd := (s.pack p).cmd

/-- `G[p]`. -/
def State.cfg (s : State) (p : Nat) : PackConfig := (s.pack p).cfg

/-- Write `T[p]`; every other pack, and the rest of pack `p`, unchanged. -/
def State.setTel (s : State) (p : Nat) (t : Telemetry) : State :=
  { s with packs := s.packs.set p { s.pack p with tel := t } }

/-- `T[p].state <- code` (00_scope.md R13: the state register is the program counter). -/
def State.setCode (s : State) (p : Nat) (code : BitVec 4) : State :=
  s.setTel p { s.tel p with state := code }

/-- `T[p].swAlerts <- a`. -/
def State.setAlerts (s : State) (p : Nat) (a : BitVec 32) : State :=
  s.setTel p { s.tel p with swAlerts := a }

/-- `T[p].mosfetDrive <- d`. -/
def State.setDrive (s : State) (p : Nat) (d : BitVec 3) : State :=
  s.setTel p { s.tel p with mosfetDrive := d }

/-! ## Events, results, free values -/

/-- `emit e`: append an event to the trace (00_scope.md R13). -/
def State.emit (s : State) (e : Event) : State := { s with trace := s.trace ++ [e] }

/-- Record what an operation gave back (log 11). -/
def State.setResult (s : State) (r : OpResult) : State := { s with result := r }

/-- One free value has been drawn. -/
def State.draw (s : State) : State := { s with env := { s.env with draws := s.env.draws + 1 } }

/-! ## The environment's moves (60_exceptions.md R304, R320; log 6) -/

/-- One write of the environment. A pack index that is no pack writes nothing. -/
def applyWrite (s : State) : EnvWrite → State
  | .cmd p c => { s with packs := s.packs.modify p fun k => { k with cmd := c } }
  | .shutdown b => { s with shutdown := b }
  | .vbus v => { s with vbus := v }
  | .sanity p b => { s with packs := s.packs.modify p fun k => { k with sanityTrigger := b } }

/-- A batch of writes, in order. -/
def applyMove (s : State) (m : List EnvWrite) : State := m.foldl applyWrite s

/-- What the environment does between two steps: the next scripted batch, or a free one. -/
def envMove (s : State) : State :=
  match s.env.moves with
  | m :: ms => applyMove { s with env := { s.env with moves := ms } } m
  | [] => applyMove s.draw (Config.freeMove s.env.draws)

/-! ## The select port (20_memory.md R63) -/

/-- The environment's answer to a drive, scripted or free. -/
def driveAnswer (s : State) : Bool × State :=
  match s.env.drives with
  | b :: bs => (b, { s with env := { s.env with drives := bs } })
  | [] => (Config.freeDrive s.env.draws, s.draw)

/-- `SelDrive(index)`: the answer, and the event `Sel(index, answer)`. -/
def selDrive (index : Nat) (s : State) : Bool × State :=
  match driveAnswer s with
  | (ok, s1) => (ok, s1.emit (.sel index ok))

/-- After a failed drive the lines hold any value: one free bit per line (40_transport_framer.md R124, U4; log 13). -/
def freeSel (s : State) : State :=
  { s.draw with sel := (List.range s.par.nsel).map (Config.freeLine s.env.draws) }

/-! ## The bus port (20_memory.md R62) -/

/-- An answer of exactly `n` bytes: the port returns as many bytes as were sent (log 7). -/
def fitAnswer (n : Nat) : BusAnswer → BusAnswer
  | .busError => .busError
  | .ok rx => .ok (exactly n 0 rx)

/-- The environment's answer to a transfer, scripted or free. -/
def busAnswer (s : State) : BusAnswer × State :=
  match s.env.answers with
  | a :: rest => (a, { s with env := { s.env with answers := rest } })
  | [] => (Config.freeAnswer s.env.draws, s.draw)

/-- `BusXfer(tx)`: addressed to the device on the lines; the answer, and the event `Xfer(sel, tx, answer)`. -/
def busXfer (tx : List Byte) (s : State) : BusAnswer × State :=
  match busAnswer s with
  | (a, s1) => (fitAnswer tx.length a, s1.emit (.xfer (lineIndex s.sel) tx (fitAnswer tx.length a)))

/-! ## Codes of the error kinds and of the pack faults (92_eei_decisions.md D9) -/

/-- The number of an error kind (60_exceptions.md R300). -/
def ErrKind.code : ErrKind → Nat
  | .badArgument => 1
  | .transport => 2
  | .crc => 3

/-- The number of what a report names: an error kind (60_exceptions.md R300) or a pack fault (R301). -/
def ReportKind.code : ReportKind → Nat
  | .err k => k.code
  | .configFault => 4
  | .diagFault => 5

/-! ## Replies: `Ok(value)` or `Err(kind)` (00_scope.md R13) -/

/-- `Ok(value)` or `Err(kind)`. -/
inductive Reply (α : Type) where
  | ok (a : α)
  | err (k : ErrKind)
deriving DecidableEq, Repr

/-- What an operation that may fail gives: its reply and the state it leaves. A failed operation leaves every effect it had
(60_exceptions.md R310 (b)). -/
structure Run (α : Type) where
  reply : Reply α
  state : State

/-- Success without a transaction. -/
def Run.pure {α : Type} (a : α) (s : State) : Run α := ⟨.ok a, s⟩

/-- `try` (00_scope.md R13): go on with the value; on `Err(kind)` skip the rest and undo nothing (60_exceptions.md R310 (a),
(b)). -/
def Run.andThen {α β : Type} (r : Run α) (f : α → State → Run β) : Run β :=
  match r.reply with
  | .ok a => f a r.state
  | .err k => ⟨.err k, r.state⟩

/-- An operation that RETURNS its reply to its caller (transport and facade): the value or the error kind stands in
`result`. -/
def Run.returned {α : Type} (r : Run α) (value : α → OpResult) : State :=
  match r.reply with
  | .ok a => r.state.setResult (value a)
  | .err k => r.state.setResult (.err k)

/-! ## The step abort (60_exceptions.md R310, R311) -/

/-- TAKING A STEP ABORT: what a failing transaction of kind `k` in pack `p`'s step does, `code` being the state at the start
of the step. Nothing is undone, the state register is not written, one report is emitted; no state is saved, nothing is
masked, control goes to no vector (60_exceptions.md R310, R311). There is no return from it (R312): the next pass runs the
same operation again. -/
def takeAbort (p : Nat) (code : BitVec 4) (k : ErrKind) (s : State) : State :=
  (s.emit (.report p code (.err k))).setResult (.aborted k)

/-- The end of an operation of pack `p` that may raise a step abort: its value in `result`, or the abort taken. `code` is the
state code at its start. -/
def Run.finished {α : Type} (r : Run α) (p : Nat) (code : BitVec 4) (value : α → OpResult) : State :=
  match r.reply with
  | .ok a => r.state.setResult (value a)
  | .err k => takeAbort p code k r.state

/-! ## Which packs run -/

/-- Run a pack's operation where `p` is a pack; its configuration is not looked at. -/
def onSlot (p : Nat) (s : State) (next : State) : Host.Outcome State Fault Refusal :=
  if p < s.packs.length then .next next else .refused (.noSuchPack p)

/-- Run a pack's operation where `p` is a pack, the parameters are a CORE's and the pack's configuration is valid
(00_scope.md R9, R19; log 20, 21). -/
def onPack (p : Nat) (s : State) (next : State) : Host.Outcome State Fault Refusal :=
  if s.packs.length ≤ p then .refused (.noSuchPack p)
  else if !paramsValid s.par then .refused .invalidParams
  else if !configValid s.par (s.cfg p) then .refused (.invalidConfig p)
  else .next next

end Sys2Proof.Machine
end

