-- ==== Sys2Proof/Machine/Alerts.lean ====
section
/-! DEFINITION. The Alert Aggregator (44_alert_aggregator.md): `ALERTS`. -/

namespace Sys2Proof.Machine

/-- `ALERTS(p)` (44_alert_aggregator.md R240): `T[p].swAlerts` only. -/
def alerts (p : Nat) (s : State) : State := s.setAlerts p (newAlerts s.par (s.tel p) (s.cfg p))

/-- `ALERTS` (44_alert_aggregator.md R240). -/
def execAlerts (p : Nat) (s : State) : Host.Outcome State Fault Refusal :=
  onPack p s ((alerts p s).setResult .done)

end Sys2Proof.Machine
end

