-- ==== Sys2Proof/Machine/Arbiter.lean ====
section
/-! DEFINITION. The MOSFET Arbiter (45_mosfet_arbiter.md): `ARBITER`, a pure function of its operands (R260). -/

namespace Sys2Proof.Machine

/-- `allowCharge` (45_mosfet_arbiter.md R262). -/
def allowCharge (a : BitVec 32) (c : Cmd) : Bool := c.chargeEnable && !(errorAll a || errorCharge a)

/-- `allowDischarge` (45_mosfet_arbiter.md R262). -/
def allowDischarge (a : BitVec 32) (c : Cmd) : Bool := c.dischargeEnable && !(errorAll a || errorDischarge a)

/-- `preOk` (45_mosfet_arbiter.md R263). -/
def preOk (num : NumSel) (h : HwFlags) (vpack vb tol : Q) : Bool :=
  h.pchgOn && decide (qAbs (numSub num vpack vb) ≤ tol)

/-- Bit `n` of the drive pattern, set when `b`. -/
def driveBit (n : Nat) (b : Bool) : BitVec 3 := if b then BitVec.ofNat 3 (2 ^ n) else 0

/-- Drive bit assembly (45_mosfet_arbiter.md R264): bit 0 discharge, bit 1 charge, bit 2 precharge. -/
def assembleDrive (aD aC dsgOn chgOn pre : Bool) : BitVec 3 :=
  (if aD then driveBit 0 dsgOn ||| driveBit 2 (!dsgOn) ||| driveBit 0 pre else 0) |||
  (if aC then driveBit 1 chgOn ||| driveBit 2 (!chgOn) ||| driveBit 1 pre else 0)

/-- `ARBITER(A, H, c, vpack, vb, tol)` (45_mosfet_arbiter.md R260). -/
def arbiter (num : NumSel) (a : BitVec 32) (h : HwFlags) (c : Cmd) (vpack vb tol : Q) : BitVec 3 :=
  assembleDrive (allowDischarge a c) (allowCharge a c) h.dsgOn h.chgOn (preOk num h vpack vb tol)

/-- `ARBITER` (45_mosfet_arbiter.md R260): the pattern, no state written. -/
def execArbiter (a : BitVec 32) (h : HwFlags) (c : Cmd) (vpack vb tol : Q) (s : State) :
    Host.Outcome State Fault Refusal :=
  .next (s.setResult (.drive (arbiter s.par.num a h c vpack vb tol)))

end Sys2Proof.Machine
end

