-- ==== Sys2Proof/Machine/Transport.lean ====
section
/-! DEFINITION. The Transport Framer (40_transport_framer.md): `CRC8`, `FRAME_OK`, `SELECT`, `WRREG`, `RDREG`. -/

namespace Sys2Proof.Machine

/-- `SELECT(index)` (40_transport_framer.md R124): out of range is rejected with no event and `sel` unchanged; else the lines
are driven, and set when the drive answered `Ok`, any value when it failed. -/
def select (index : Nat) (s : State) : Run Unit :=
  if 2 ^ s.par.nsel ≤ index then ⟨.err .badArgument, s⟩
  else
    match selDrive index s with
    | (true, s1) => ⟨.ok (), { s1 with sel := selLines s1.par.nsel index }⟩
    | (false, s1) => ⟨.err .transport, freeSel s1⟩

/-- `WRREG(address, value)` (40_transport_framer.md R125): one write frame; the bytes received are not examined. -/
def wrreg (address : Nat) (value : Word) (s : State) : Run Unit :=
  if addressOk address then
    match busXfer (wrFrame s.par.crcPoly address value) s with
    | (.busError, s1) => ⟨.err .transport, s1⟩
    | (.ok _, s1) => ⟨.ok (), s1⟩
  else ⟨.err .badArgument, s⟩

/-- `RDREG(address, count)` (40_transport_framer.md R126): count tested before address, both before any bus activity; then one
transfer; a response whose CRC is wrong delivers nothing. -/
def rdreg (address count : Nat) (s : State) : Run (List Word) :=
  if !countOk count then ⟨.err .badArgument, s⟩
  else if !addressOk address then ⟨.err .badArgument, s⟩
  else
    match busXfer (rdFrame address count) s with
    | (.busError, s1) => ⟨.err .transport, s1⟩
    | (.ok rx, s1) =>
      if frameOk s.par.crcPoly rx then ⟨.ok (wordsOf count rx), s1⟩ else ⟨.err .crc, s1⟩

/-! ## The meanings -/

/-- `CRC8` (40_transport_framer.md R121): a byte, no state written. -/
def execCrc8 (bs : List Byte) (s : State) : Host.Outcome State Fault Refusal :=
  .next (s.setResult (.byte (crc8 s.par.crcPoly bs)))

/-- `FRAME_OK` (40_transport_framer.md R127): a boolean, no state written. -/
def execFrameOk (f : List Byte) (s : State) : Host.Outcome State Fault Refusal :=
  .next (s.setResult (.bool (frameOk s.par.crcPoly f)))

/-- `SELECT` (40_transport_framer.md R124). -/
def execSelect (index : Nat) (s : State) : Host.Outcome State Fault Refusal :=
  .next ((select index s).returned fun _ => .done)

/-- `WRREG` (40_transport_framer.md R125). -/
def execWrreg (address : Nat) (value : Word) (s : State) : Host.Outcome State Fault Refusal :=
  .next ((wrreg address value s).returned fun _ => .done)

/-- `RDREG` (40_transport_framer.md R126). -/
def execRdreg (address count : Nat) (s : State) : Host.Outcome State Fault Refusal :=
  .next ((rdreg address count s).returned .words)

end Sys2Proof.Machine
end

