-- ==== Sys2Proof/Machine/Facade.lean ====
section
/-! DEFINITION. The Register Access Facade (41_register_facade.md): `AFE_WRITE`, `AFE_READ`, `READ_STATUS`, `READ_CELLS`,
`READ_TELEMETRY`. No caching: every call performs its transactions (R160). -/

namespace Sys2Proof.Machine

/-- `AFE_WRITE(p, address, value)` = `SELECT(p)` then `WRREG(address, value)` (41_register_facade.md R150); the device index of
pack `p` is `p`. -/
def afeWrite (p address : Nat) (value : Word) (s : State) : Run Unit :=
  (select p s).andThen fun _ s1 => wrreg address value s1

/-- `AFE_READ(p, address, count)`: the ceiling check, then `SELECT(p)`, then `RDREG(address, count)` (41_register_facade.md
R151). -/
def afeRead (p address count : Nat) (s : State) : Run (List Word) :=
  if !countOk count then ⟨.err .badArgument, s⟩
  else (select p s).andThen fun _ s1 => rdreg address count s1

/-- One write of the profile or of the user list. -/
def afeWriteReg (p : Nat) (w : RegWrite) (s : State) : Run Unit := afeWrite p w.addr w.value s

/-- Writes in list order; the first failure ends them. -/
def writeAll (p : Nat) : List RegWrite → State → Run Unit
  | [], s => Run.pure () s
  | w :: rest, s => (afeWriteReg p w s).andThen fun _ s1 => writeAll p rest s1

/-- Bursts in list order, the words of each; the first failure ends them. -/
def readBlocks (p : Nat) : List Burst → State → Run (List (List Word))
  | [], s => Run.pure [] s
  | b :: rest, s =>
    (afeRead p b.addr b.count s).andThen fun ws s1 =>
      (readBlocks p rest s1).andThen fun more s2 => Run.pure (ws :: more) s2

/-- `READ_STATUS(p)`: one register, its power-state code (41_register_facade.md R154). -/
def readStatus (p : Nat) (s : State) : Run Nat :=
  (afeRead p s.par.profile.statusAddr 1 s).andThen fun ws s1 =>
    Run.pure (pwrCodeOf s.par.profile (ws.getD 0 0)) s1

/-- `READ_CELLS(p)`: the cell blocks, converted to `NCELL` voltages (41_register_facade.md R155); writes no telemetry. -/
def readCells (p : Nat) (s : State) : Run (List Q) :=
  (readBlocks p s.par.profile.cellBlocks s).andThen fun blocks s1 =>
    Run.pure ((List.range s.par.ncell).map fun i =>
      conv s.par.conv .cellV (cellsOf s.par.profile blocks.flatten i) (s.cfg p).cal) s1

/-- The telemetry record after a complete telemetry read (41_register_facade.md R156): raw words, flags and measurements, all
together, and nothing else. -/
def commitTelemetry (par : Params) (g : PackConfig) (blocks : List (List Word)) (t : Telemetry) : Telemetry :=
  let m := rawMeas par.profile blocks
  { t with
    raw := blocks
    hw := decodeHw par blocks
    current := conv par.conv .current m.current g.cal
    voltage := conv par.conv .packV m.packV g.cal
    auxV := conv par.conv .auxV m.auxV g.cal
    dieTemp := conv par.conv .dieT m.dieT g.cal
    ntc := fourMap (fun w => conv par.conv .ntc w g.cal) m.ntc
    cellV := (List.range par.ncell).map fun i => conv par.conv .cellV (m.cell i) g.cal }

/-- `READ_TELEMETRY(p)`: every block of the profile, then the commit; nothing is written unless every read succeeded
(41_register_facade.md R156). -/
def readTelemetry (p : Nat) (s : State) : Run Unit :=
  (readBlocks p s.par.profile.telemBlocks s).andThen fun blocks s1 =>
    Run.pure () (s1.setTel p (commitTelemetry s1.par (s1.cfg p) blocks (s1.tel p)))

/-! ## The meanings -/

/-- `AFE_WRITE` (41_register_facade.md R150): its error is returned, not raised. -/
def execAfeWrite (p address : Nat) (value : Word) (s : State) : Host.Outcome State Fault Refusal :=
  .next ((afeWrite p address value s).returned fun _ => .done)

/-- `AFE_READ` (41_register_facade.md R151): its error is returned, not raised. -/
def execAfeRead (p address count : Nat) (s : State) : Host.Outcome State Fault Refusal :=
  .next ((afeRead p address count s).returned .words)

/-- `READ_STATUS` (41_register_facade.md R154): a failing read is a step abort (log 12). -/
def execReadStatus (p : Nat) (s : State) : Host.Outcome State Fault Refusal :=
  onPack p s ((readStatus p s).finished p (s.tel p).state .code)

/-- `READ_CELLS` (41_register_facade.md R155): a failing read is a step abort (log 12). -/
def execReadCells (p : Nat) (s : State) : Host.Outcome State Fault Refusal :=
  onPack p s ((readCells p s).finished p (s.tel p).state .samples)

/-- `READ_TELEMETRY` (41_register_facade.md R156): a failing read is a step abort (log 12). -/
def execReadTelemetry (p : Nat) (s : State) : Host.Outcome State Fault Refusal :=
  onPack p s ((readTelemetry p s).finished p (s.tel p).state fun _ => .done)

end Sys2Proof.Machine
end

