-- ==== Sys2Proof/Machine/DiagBalance.lean ====
section
/-! DEFINITION. Wire-break comparator and balancer (46_diag_balancer.md): `DIAG_EVAL`, `BALANCE`. -/

namespace Sys2Proof.Machine

/-- The delta of cell `i` reaches the threshold: neutral against pull-down (46_diag_balancer.md R281). -/
def cellBroken (num : NumSel) (ncell : Nat) (buf : List Q) (thr : Q) (i : Nat) : Bool :=
  decide (thr ≤ qAbs (numSub num (buf.getD i 0) (buf.getD (2 * ncell + i) 0)))

/-- `DIAG_EVAL(buf, thr)` (46_diag_balancer.md R281): true is `Pass`. -/
def diagEval (num : NumSel) (ncell : Nat) (buf : List Q) (thr : Q) : Bool :=
  !(List.range ncell).any (cellBroken num ncell buf thr)

/-- Snapshot `k` (0 neutral, 1 pull-up, 2 pull-down) written into `diagBuf`, index `k * NCELL + i` (10_state.md R41). -/
def writeSamples (ncell k : Nat) (v buf : List Q) : List Q :=
  (List.range (3 * ncell)).map fun j =>
    if k * ncell ≤ j ∧ j < (k + 1) * ncell then v.getD (j - k * ncell) 0 else buf.getD j 0

/-- Store a snapshot. -/
def storeSamples (k : Nat) (v : List Q) (s : State) : State :=
  { s with diagBuf := writeSamples s.par.ncell k v s.diagBuf }

/-- `diagBuf` after the evaluation: any values (42_pack_supervisor.md R181, U6; log 15). -/
def freeDiagBuf (s : State) : State :=
  { s.draw with diagBuf := (List.range (3 * s.par.ncell)).map (Config.freeSample s.env.draws) }

/-- `T[p].cellV[0 .. NCELL-1]`. -/
def cellList (s : State) (p : Nat) : List Q := exactly s.par.ncell 0 (s.tel p).cellV

/-- The shunt mask: the cells above the mean by more than the differential (46_diag_balancer.md R286). -/
def shuntMask (num : NumSel) (ncell : Nat) (diff : Q) (cells : List Q) : List Bool :=
  cells.map fun v => decide (numAdd num (numMean num ncell cells) diff < v)

/-- `BALANCE(p)` (46_diag_balancer.md R286): one write, made also when no cell is selected; whether any cell was. -/
def balance (p : Nat) (s : State) : Run Bool :=
  let mask := shuntMask s.par.num s.par.ncell (s.cfg p).balDiff (cellList s p)
  (afeWriteReg p (balPack s.par.profile mask s.par.profile.balDuration) s).andThen fun _ s1 =>
    Run.pure (mask.any id) s1

/-- When the balancer runs (46_diag_balancer.md R285). -/
def balanceDue (p : Nat) (s : State) : Bool :=
  (s.tel p).hw.balElapsed && (cellList s p).any fun v => decide ((s.cfg p).balStartV ≤ v)

/-! ## The meanings -/

/-- `DIAG_EVAL` (46_diag_balancer.md R281): `Pass` or `Fail`, no state written. -/
def execDiagEval (buf : List Q) (thr : Q) (s : State) : Host.Outcome State Fault Refusal :=
  .next (s.setResult (.verdict (diagEval s.par.num s.par.ncell buf thr)))

/-- `BALANCE` (46_diag_balancer.md R286): a failing write is a step abort (log 12). -/
def execBalance (p : Nat) (s : State) : Host.Outcome State Fault Refusal :=
  onPack p s ((balance p s).finished p (s.tel p).state .bool)

end Sys2Proof.Machine
end

