-- ==== Sys2Proof/Machine/Limits.lean ====
section
/-! DEFINITION. Limits and Thermal Model (43_limits_thermal.md): `LIMITS`, `I2T`. -/

namespace Sys2Proof.Machine

/-- The scan of `INDEX` from index `i` downward (43_limits_thermal.md R222): the first index above 0 whose threshold is at or
below `t`, else 0. -/
def scanIndex (table : List TableEntry) (t : Q) : Nat → Nat
  | 0 => 0
  | i + 1 => if (table.getD (i + 1) default).temp ≤ t then i + 1 else scanIndex table t i

/-- `INDEX(t)` (43_limits_thermal.md R222): the scan from `K-1`. -/
def tableIndex (table : List TableEntry) (t : Q) : Nat := scanIndex table t (table.length - 1)

/-- Both charge and discharge MOSFET flags are set (43_limits_thermal.md R221). -/
def bothOn (h : HwFlags) : Bool := h.chgOn && h.dsgOn

/-- The base charge ceiling (43_limits_thermal.md R221). -/
def chgCeil (g : PackConfig) (h : HwFlags) : Q := if bothOn h then g.chgCeilFull else g.chgCeilReduced

/-- The base discharge ceiling, negative-signed (43_limits_thermal.md R221). -/
def dsgCeil (g : PackConfig) (h : HwFlags) : Q := if bothOn h then g.dsgCeilFull else g.dsgCeilReduced

/-- The temperature that indexes the discharge clamp (43_limits_thermal.md R223, `DSG_INDEX_SRC`). -/
def dsgTemp (src : IndexSrc) (ntc : Four Q) : Q :=
  match src with
  | .tmin => fourMin ntc
  | .tmax => fourMax ntc

/-- `availChg` (43_limits_thermal.md R223). -/
def availChgOf (g : PackConfig) (t : Telemetry) : Q :=
  qMin (chgCeil g t.hw) (g.table.getD (tableIndex g.table (fourMin t.ntc)) default).chg

/-- `availDsg` (43_limits_thermal.md R223). -/
def availDsgOf (src : IndexSrc) (g : PackConfig) (t : Telemetry) : Q :=
  qMax (dsgCeil g t.hw) (g.table.getD (tableIndex g.table (dsgTemp src t.ntc)) default).dsg

/-- `LIMITS(p)` (43_limits_thermal.md R224). -/
def limits (p : Nat) (s : State) : State :=
  s.setTel p { s.tel p with
    availChg := availChgOf (s.cfg p) (s.tel p)
    availDsg := availDsgOf s.par.dsgIndexSrc (s.cfg p) (s.tel p) }

/-- The resistor is heated: precharge engaged and not full conduction (43_limits_thermal.md R225). -/
def heating (h : HwFlags) : Bool := h.pchgOn && !bothOn h

/-- The accumulator after one cycle (43_limits_thermal.md R225, R226). -/
def i2tOf (par : Params) (g : PackConfig) (t : Telemetry) : Q :=
  if heating t.hw then numAdd par.num t.i2t (numMul par.num (numMul par.num t.current t.current) par.cycleS)
  else qMax 0 (numSub par.num t.i2t g.i2tDecay)

/-- `I2T(p)` (43_limits_thermal.md R225). -/
def i2t (p : Nat) (s : State) : State :=
  s.setTel p { s.tel p with i2t := i2tOf s.par (s.cfg p) (s.tel p) }

/-! ## The meanings -/

/-- `LIMITS` (43_limits_thermal.md R224). -/
def execLimits (p : Nat) (s : State) : Host.Outcome State Fault Refusal :=
  onPack p s ((limits p s).setResult .done)

/-- `I2T` (43_limits_thermal.md R225). -/
def execI2t (p : Nat) (s : State) : Host.Outcome State Fault Refusal :=
  onPack p s ((i2t p s).setResult .done)

end Sys2Proof.Machine
end

