-- ==== Sys2Proof/Machine/Supervisor.lean ====
section
/-! DEFINITION. The Pack Supervisor State Machine (42_pack_supervisor.md): the fourteen state operations, `RUNS`, `RUN_BODY`,
`NEXT_RUN_STATE`, `PACK_STEP` and `PASS`. -/

namespace Sys2Proof.Machine

/-! ## State codes (10_state.md R22) -/

/-- The code of `Disabled`. -/
def codeDisabled : BitVec 4 := 0
/-- The code of `WaitInit`. -/
def codeWaitInit : BitVec 4 := 1
/-- The code of `Init`. -/
def codeInit : BitVec 4 := 2
/-- The code of `WaitDiag0`. -/
def codeWaitDiag0 : BitVec 4 := 3
/-- The code of `Diag0`. -/
def codeDiag0 : BitVec 4 := 4
/-- The code of `WaitDiag1`. -/
def codeWaitDiag1 : BitVec 4 := 5
/-- The code of `Diag1`. -/
def codeDiag1 : BitVec 4 := 6
/-- The code of `WaitDiag2`. -/
def codeWaitDiag2 : BitVec 4 := 7
/-- The code of `Diag2`. -/
def codeDiag2 : BitVec 4 := 8
/-- The code of `Config`. -/
def codeConfig : BitVec 4 := 9
/-- The code of `Run`. -/
def codeRun : BitVec 4 := 10
/-- The code of `RunWarning`. -/
def codeRunWarning : BitVec 4 := 11
/-- The code of `SanityCheck`. -/
def codeSanityCheck : BitVec 4 := 12
/-- The code of `Error`. -/
def codeError : BitVec 4 := 13

/-! ## Bring-up -/

/-- `ST_WAITINIT(p)` (42_pack_supervisor.md R173). -/
def stWaitinit (p : Nat) (s : State) : Run Unit :=
  (readStatus p s).andThen fun code s1 =>
    if code = s1.par.profile.powerupCode then
      (afeWrite p s1.par.profile.mosfetCtrlAddr 0 s1).andThen fun _ s2 =>
        (afeWriteReg p s2.par.profile.balOff (s2.setDrive p 0)).andThen fun _ s3 =>
          Run.pure () (s3.setCode p codeInit)
    else Run.pure () s1

/-- The values of entries `k0 .. k0+n-1` of the list. -/
def runValues (u : List RegWrite) (k0 n : Nat) : List Word := ((u.drop k0).take n).map RegWrite.value

/-- The address of entry `k0` of the list. -/
def runAddr (u : List RegWrite) (k0 : Nat) : Nat := (u.getD k0 default).addr

/-- Readback of the runs in order (42_pack_supervisor.md R174): whether every word matches; the first mismatch ends it. -/
def readBack (p : Nat) (u : List RegWrite) : List (Nat × Nat) → State → Run Bool
  | [], s => Run.pure true s
  | (k0, n) :: rest, s =>
    (afeRead p (runAddr u k0) n s).andThen fun ws s1 =>
      if ws = runValues u k0 n then readBack p u rest s1 else Run.pure false s1

/-- A pack fault: the state register becomes `Error` and one report is emitted, `code` being the state at the start of the
step (60_exceptions.md R301, R311). -/
def packFault (p : Nat) (code : BitVec 4) (k : ReportKind) (s : State) : State :=
  (s.setCode p codeError).emit (.report p code k)

/-- `ST_INIT(p)` (42_pack_supervisor.md R174): the whole list written, then read back by runs; a mismatch is a configuration
fault; then the reset flag is cleared and the balancer window configured. -/
def stInit (p : Nat) (s : State) : Run Unit :=
  let u := userList (s.cfg p).userRegs
  (writeAll p u s).andThen fun _ s1 =>
    (readBack p u (runs u) s1).andThen fun matched s2 =>
      if matched then
        (writeAll p [s2.par.profile.clrReset, s2.par.profile.balWindow] s2).andThen fun _ s3 =>
          Run.pure () (s3.setCode p codeWaitDiag0)
      else Run.pure () (packFault p (s.tel p).state .configFault s2)

/-! ## The diagnosis sub-sequence -/

/-- `ST_WAITDIAG0(p)` (42_pack_supervisor.md R176): try-acquire. -/
def stWaitdiag0 (p : Nat) (s : State) : State :=
  match s.diagLock with
  | none => { s.setCode p codeDiag0 with diagLock := some p }
  | some _ => s

/-- `ST_DIAG0(p)` (42_pack_supervisor.md R177): unlock, neutral sample, pull-up. -/
def stDiag0 (p : Nat) (s : State) : Run Unit :=
  (afeWriteReg p s.par.profile.diagUnlock s).andThen fun _ s1 =>
    (readCells p s1).andThen fun v s2 =>
      (afeWriteReg p s2.par.profile.diagPullUp (storeSamples 0 v s2)).andThen fun _ s3 =>
        Run.pure () (s3.setCode p codeWaitDiag1)

/-- `ST_DIAG1(p)` (42_pack_supervisor.md R179): pull-up sample, pull-down. -/
def stDiag1 (p : Nat) (s : State) : Run Unit :=
  (readCells p s).andThen fun v s1 =>
    (afeWriteReg p s1.par.profile.diagPullDown (storeSamples 1 v s1)).andThen fun _ s2 =>
      Run.pure () (s2.setCode p codeWaitDiag2)

/-- The end of `ST_DIAG2` once both transactions succeeded (42_pack_supervisor.md R181): release, evaluate, `Config` or the
diagnostic fault, and `diagBuf` free from there on. `code` is the state at the start of the step. -/
def diagVerdict (p : Nat) (code : BitVec 4) (s : State) : State :=
  let s1 := { s with diagLock := none }
  freeDiagBuf
    (if diagEval s1.par.num s1.par.ncell s1.diagBuf (s1.cfg p).diagThreshold then s1.setCode p codeConfig
     else packFault p code .diagFault
       (s1.setAlerts p ((s1.tel p).swAlerts ||| alertBit 14 true)))

/-- `ST_DIAG2(p)` (42_pack_supervisor.md R181): pull-down sample, clear diagnostic mode, release, evaluate. -/
def stDiag2 (p : Nat) (s : State) : Run Unit :=
  (readCells p s).andThen fun v s1 =>
    (afeWriteReg p s1.par.profile.diagClear (storeSamples 2 v s1)).andThen fun _ s2 =>
      Run.pure () (diagVerdict p (s.tel p).state s2)

/-! ## Configuration, error -/

/-- `ST_CONFIG(p)` (42_pack_supervisor.md R183): latched errors cleared, watchdog armed. -/
def stConfig (p : Nat) (s : State) : Run Unit :=
  (writeAll p (s.par.profile.clrErrors ++ [s.par.profile.wdtArm]) s).andThen fun _ s1 =>
    Run.pure () (s1.setCode p codeRun)

/-- `ST_ERROR(p, c)` (42_pack_supervisor.md R185): left only by the reset request. -/
def stError (p : Nat) (c : Cmd) (s : State) : State :=
  if c.resetReq then (s.setAlerts p 0).setCode p codeWaitInit else s

/-! ## Steady state -/

/-- The alert clear of the run body (42_pack_supervisor.md R192). -/
def alertClear (p : Nat) (c : Cmd) (s : State) : State :=
  if c.alertClearReq then s.setAlerts p 0 else s

/-- `NEXT_RUN_STATE(p)` (42_pack_supervisor.md R191). -/
def nextRunState (p : Nat) (s : State) : State :=
  if (s.pack p).sanityTrigger then s.setCode p codeSanityCheck
  else if (s.tel p).swAlerts &&& s.par.warnMask ≠ 0 then s.setCode p codeRunWarning
  else s.setCode p codeRun

/-- The stages of the run body between the telemetry read and the arbiter (42_pack_supervisor.md R190). -/
def runStages (p : Nat) (c : Cmd) (s : State) : State := alerts p (i2t p (limits p (alertClear p c s)))

/-- The arbiter's pattern from the records as the stages left them (42_pack_supervisor.md R190). -/
def runDrive (p : Nat) (c : Cmd) (s : State) : BitVec 3 :=
  arbiter s.par.num (s.tel p).swAlerts (s.tel p).hw c (s.tel p).voltage s.vbus (s.cfg p).prechgTol

/-- The balancer where it is due (46_diag_balancer.md R285). -/
def balanceIfDue (p : Nat) (s : State) : Run Unit :=
  if balanceDue p s then (balance p s).andThen fun _ s1 => Run.pure () s1 else Run.pure () s

/-- `RUN_BODY(p, c)` (42_pack_supervisor.md R190). -/
def runBody (p : Nat) (c : Cmd) (s : State) : Run Unit :=
  (readTelemetry p s).andThen fun _ s1 =>
    let s2 := runStages p c s1
    (afeWrite p s2.par.profile.mosfetCtrlAddr (driveWord (runDrive p c s2)) s2).andThen fun _ s3 =>
      (balanceIfDue p (s3.setDrive p (runDrive p c s2))).andThen fun _ s4 =>
        Run.pure () (nextRunState p s4)

/-! ## The meanings -/

/-- `ST_DISABLED` (42_pack_supervisor.md R172): nothing, not even a result. A disabled pack has no configuration to check. -/
def execStDisabled (p : Nat) (s : State) : Host.Outcome State Fault Refusal := onSlot p s s

/-- `ST_WAITINIT` (42_pack_supervisor.md R173). -/
def execStWaitinit (p : Nat) (s : State) : Host.Outcome State Fault Refusal :=
  onPack p s ((stWaitinit p s).finished p (s.tel p).state fun _ => .done)

/-- `ST_INIT` (42_pack_supervisor.md R174). -/
def execStInit (p : Nat) (s : State) : Host.Outcome State Fault Refusal :=
  onPack p s ((stInit p s).finished p (s.tel p).state fun _ => .done)

/-- `ST_WAITDIAG0` (42_pack_supervisor.md R176). -/
def execStWaitdiag0 (p : Nat) (s : State) : Host.Outcome State Fault Refusal :=
  onPack p s ((stWaitdiag0 p s).setResult .done)

/-- `ST_DIAG0` (42_pack_supervisor.md R177). -/
def execStDiag0 (p : Nat) (s : State) : Host.Outcome State Fault Refusal :=
  onPack p s ((stDiag0 p s).finished p (s.tel p).state fun _ => .done)

/-- `ST_WAITDIAG1` (42_pack_supervisor.md R178): the idle settle cycle. -/
def execStWaitdiag1 (p : Nat) (s : State) : Host.Outcome State Fault Refusal :=
  onPack p s ((s.setCode p codeDiag1).setResult .done)

/-- `ST_DIAG1` (42_pack_supervisor.md R179). -/
def execStDiag1 (p : Nat) (s : State) : Host.Outcome State Fault Refusal :=
  onPack p s ((stDiag1 p s).finished p (s.tel p).state fun _ => .done)

/-- `ST_WAITDIAG2` (42_pack_supervisor.md R180): the second idle settle cycle. -/
def execStWaitdiag2 (p : Nat) (s : State) : Host.Outcome State Fault Refusal :=
  onPack p s ((s.setCode p codeDiag2).setResult .done)

/-- `ST_DIAG2` (42_pack_supervisor.md R181). -/
def execStDiag2 (p : Nat) (s : State) : Host.Outcome State Fault Refusal :=
  onPack p s ((stDiag2 p s).finished p (s.tel p).state fun _ => .done)

/-- `ST_CONFIG` (42_pack_supervisor.md R183). -/
def execStConfig (p : Nat) (s : State) : Host.Outcome State Fault Refusal :=
  onPack p s ((stConfig p s).finished p (s.tel p).state fun _ => .done)

/-- `ST_RUN` (42_pack_supervisor.md R186): the run body. -/
def execStRun (p : Nat) (c : Cmd) (s : State) : Host.Outcome State Fault Refusal :=
  onPack p s ((runBody p c s).finished p (s.tel p).state fun _ => .done)

/-- `ST_RUNWARNING` (42_pack_supervisor.md R187): the run body. -/
def execStRunwarning (p : Nat) (c : Cmd) (s : State) : Host.Outcome State Fault Refusal :=
  onPack p s ((runBody p c s).finished p (s.tel p).state fun _ => .done)

/-- `ST_SANITYCHECK` (42_pack_supervisor.md R189): the run body in the same cycle, no checks of its own. -/
def execStSanitycheck (p : Nat) (c : Cmd) (s : State) : Host.Outcome State Fault Refusal :=
  onPack p s ((runBody p c s).finished p (s.tel p).state fun _ => .done)

/-- `ST_ERROR` (42_pack_supervisor.md R185). -/
def execStError (p : Nat) (c : Cmd) (s : State) : Host.Outcome State Fault Refusal :=
  onPack p s ((stError p c s).setResult .done)

/-- `RUNS` (42_pack_supervisor.md R175): the runs, no state written. -/
def execRuns (u : List RegWrite) (s : State) : Host.Outcome State Fault Refusal :=
  .next (s.setResult (.runs (runs u)))

/-- `RUN_BODY` (42_pack_supervisor.md R190). -/
def execRunBody (p : Nat) (c : Cmd) (s : State) : Host.Outcome State Fault Refusal :=
  onPack p s ((runBody p c s).finished p (s.tel p).state fun _ => .done)

/-- `NEXT_RUN_STATE` (42_pack_supervisor.md R191). -/
def execNextRunState (p : Nat) (s : State) : Host.Outcome State Fault Refusal :=
  onPack p s ((nextRunState p s).setResult .done)

/-- `PACK_STEP(p)` (42_pack_supervisor.md R171): the command record is sampled once, and the state code selects one state
operation, whose abort is taken there. Codes 14 and 15 are refused (30_encoding.md R104). -/
def execPackStep (p : Nat) (s : State) : Host.Outcome State Fault Refusal :=
  if s.packs.length ≤ p then .refused (.noSuchPack p)
  else
    let c := s.cmd p
    match (s.tel p).state.toNat with
    | 0 => execStDisabled p s
    | 1 => execStWaitinit p s
    | 2 => execStInit p s
    | 3 => execStWaitdiag0 p s
    | 4 => execStDiag0 p s
    | 5 => execStWaitdiag1 p s
    | 6 => execStDiag1 p s
    | 7 => execStWaitdiag2 p s
    | 8 => execStDiag2 p s
    | 9 => execStConfig p s
    | 10 => execStRun p c s
    | 11 => execStRunwarning p c s
    | 12 => execStSanitycheck p c s
    | 13 => execStError p c s
    | _ => .refused (.reservedState (s.tel p).state)

/-! ## The pass (42_pack_supervisor.md R170)

A pass is a run of sequencer steps: its begin, one step per pack, its end. The environment may move between two of them
(log 6, 8). -/

/-- The begin of a pass, on a tick: nothing when halted; halted when the shutdown flag is seen; else `sync` and the first
pack. -/
def passBegin (s : State) : State :=
  if s.halted then s
  else if s.shutdown then { s with halted := true }
  else { s with sync := true, cur := some 0 }

/-- Go on to the next pack. -/
def advance (p : Nat) : Host.Outcome State Fault Refusal → Host.Outcome State Fault Refusal
  | .next s => .next { s with cur := some (p + 1) }
  | .fault f => .fault f
  | .refused r => .refused r

/-- One sequencer step at pack index `p` of a pass under way: after the last pack the pass ends; between packs the shutdown
flag is polled; a disabled pack is not stepped. -/
def passAt (p : Nat) (s : State) : Host.Outcome State Fault Refusal :=
  if s.par.npack ≤ p then .next { s with sync := false, cur := none }
  else if 0 < p ∧ s.shutdown then .next { s with halted := true, sync := false, cur := none }
  else if s.packs.length ≤ p then .refused (.noSuchPack p)
  else if (s.tel p).state = codeDisabled then .next { s with cur := some (p + 1) }
  else advance p (execPackStep p s)

/-- One sequencer step. -/
def passStep (s : State) : Host.Outcome State Fault Refusal :=
  match s.cur with
  | none => .next (passBegin s)
  | some p => passAt p s

/-- The rest of a pass under way, of at most `n` sequencer steps, the environment moving before each. -/
def passLoop : Nat → State → Host.Outcome State Fault Refusal
  | 0, s => .next s
  | n + 1, s =>
    match passStep (envMove s) with
    | .next s1 => if s1.cur.isNone then .next s1 else passLoop n s1
    | .fault f => .fault f
    | .refused r => .refused r

/-- `PASS` (42_pack_supervisor.md R170): a whole pass, `NPACK` packs and its end. Refused while a pass is under way
(70_reset_and_hazards.md R356). -/
def execPass (s : State) : Host.Outcome State Fault Refusal :=
  if s.cur.isSome then .refused .passOverrun
  else if !paramsValid s.par then .refused .invalidParams
  else if (passBegin s).cur.isNone then .next (passBegin s)
  else passLoop (s.par.npack + 1) (passBegin s)

end Sys2Proof.Machine
end

