-- ==== Sys2Proof/Machine/Dispatch.lean ====
section
/-! DEFINITION. The dispatch: one arm per operation, each one direct call of its meaning. -/

namespace Sys2Proof.Machine

def exec (i : Instr) (s : State) : Host.Outcome State Fault Refusal :=
  match i with
  | .select index => Sys2Proof.Machine.execSelect index s
  | .wrreg address value => Sys2Proof.Machine.execWrreg address value s
  | .rdreg address count => Sys2Proof.Machine.execRdreg address count s
  | .packStep p => Sys2Proof.Machine.execPackStep p s
  | .stDisabled p => Sys2Proof.Machine.execStDisabled p s
  | .stWaitinit p => Sys2Proof.Machine.execStWaitinit p s
  | .stInit p => Sys2Proof.Machine.execStInit p s
  | .stWaitdiag0 p => Sys2Proof.Machine.execStWaitdiag0 p s
  | .stDiag0 p => Sys2Proof.Machine.execStDiag0 p s
  | .stWaitdiag1 p => Sys2Proof.Machine.execStWaitdiag1 p s
  | .stDiag1 p => Sys2Proof.Machine.execStDiag1 p s
  | .stWaitdiag2 p => Sys2Proof.Machine.execStWaitdiag2 p s
  | .stDiag2 p => Sys2Proof.Machine.execStDiag2 p s
  | .stConfig p => Sys2Proof.Machine.execStConfig p s
  | .stRun p c => Sys2Proof.Machine.execStRun p c s
  | .stRunwarning p c => Sys2Proof.Machine.execStRunwarning p c s
  | .stSanitycheck p c => Sys2Proof.Machine.execStSanitycheck p c s
  | .stError p c => Sys2Proof.Machine.execStError p c s
  | .crc8 bs => Sys2Proof.Machine.execCrc8 bs s
  | .frameOk f => Sys2Proof.Machine.execFrameOk f s
  | .afeWrite p address value => Sys2Proof.Machine.execAfeWrite p address value s
  | .afeRead p address count => Sys2Proof.Machine.execAfeRead p address count s
  | .readStatus p => Sys2Proof.Machine.execReadStatus p s
  | .readCells p => Sys2Proof.Machine.execReadCells p s
  | .readTelemetry p => Sys2Proof.Machine.execReadTelemetry p s
  | .pass => Sys2Proof.Machine.execPass s
  | .runs u => Sys2Proof.Machine.execRuns u s
  | .runBody p c => Sys2Proof.Machine.execRunBody p c s
  | .nextRunState p => Sys2Proof.Machine.execNextRunState p s
  | .limits p => Sys2Proof.Machine.execLimits p s
  | .i2t p => Sys2Proof.Machine.execI2t p s
  | .alerts p => Sys2Proof.Machine.execAlerts p s
  | .arbiter a h c vpack vb tol => Sys2Proof.Machine.execArbiter a h c vpack vb tol s
  | .diagEval buf thr => Sys2Proof.Machine.execDiagEval buf thr s
  | .balance p => Sys2Proof.Machine.execBalance p s

end Sys2Proof.Machine
end

