-- ==== Sys2Proof/Machine/Step.lean ====
section
/-! DEFINITION. One step of the machine, and the placing of an operation where the next step fetches it. -/

namespace Sys2Proof.Machine

/-- A pending request at the framer's interface is decoded and executed, and is no longer pending (log 9). -/
def runRequest (r : Request) (s : State) : Host.Outcome State Fault Refusal :=
  match decodeRequest s.par.nsel r with
  | .ok i => exec i { s with request := none }
  | .error e => .refused (.undecodable e)

/-- One step: a pending request, or the environment's move and one sequencer step of the pass (a tick begins a pass when none
is under way). Parameters that break 00_scope.md R9 are refused. -/
def step (s : State) : Host.Outcome State Fault Refusal :=
  if !paramsValid s.par then .refused .invalidParams
  else
    match s.request with
    | some r => runRequest r s
    | none => passStep (envMove s)

/-- The operation of a coded form placed where the next step fetches it: a request at the framer's interface; a state code in
the state register of its pack, with a pass under way at that pack and an environment that does not move before the step
(log 9). -/
def State.withCoded (s : State) : Coded → State
  | .request r => { s with request := some r }
  | .state p _ code =>
    { s.setCode p code with
      sync := true
      cur := some p
      request := none
      env := { s.env with moves := [] :: s.env.moves } }

/-- The table word placed where `step` fetches its next instruction (log 9, 10). -/
def State.withFetchWord (s : State) (nbits w : Nat) : State :=
  match tableCoded nbits w with
  | some f => s.withCoded f
  | none => s

end Sys2Proof.Machine
end

