-- ==== Sys2Proof/Safety.lean ====
section
/-! DEFINITION. The terms claims are stated in: what an operation may change, which packs may run, what an environment script
answers, and the invariants of a safe run. -/

namespace Sys2Proof.Safety

open Sys2Proof.Machine

/-! ## What an operation may change -/

/-- `t` is `s` but for the select lines, more events and the environment's own fields: what the operations of the framer and
the facade may change (40_transport_framer.md R128). -/
def BusOnly (s t : State) : Prop :=
  ∃ lines events env, t = { s with sel := lines, trace := s.trace ++ events, env := env }

/-- As `BusOnly`, and the model's result register. -/
def BusAndResultOnly (s t : State) : Prop :=
  ∃ lines events env r, t = { s with sel := lines, trace := s.trace ++ events, env := env, result := r }

/-- `t` is `s` but for the telemetry record of pack `p`, the diagnostic buffer and lock, the select lines, more events, the
environment's own fields and the result register. -/
def PackOnly (p : Nat) (s t : State) : Prop :=
  ∃ tel lock buf lines events env r,
    t = { s with
          packs := s.packs.set p { s.pack p with tel := tel }, diagLock := lock, diagBuf := buf, sel := lines,
          trace := s.trace ++ events, env := env, result := r }

/-- As `PackOnly`, with the diagnostic buffer and lock unchanged too. -/
def TelOnly (p : Nat) (s t : State) : Prop :=
  ∃ tel lines events env r,
    t = { s with
          packs := s.packs.set p { s.pack p with tel := tel }, sel := lines, trace := s.trace ++ events, env := env,
          result := r }

/-! ## Which packs may run -/

/-- Pack `p` is one of the packs, the parameters are a CORE's and its configuration is valid (00_scope.md R9, R19). -/
structure Ready (p : Nat) (s : State) : Prop where
  params : paramsValid s.par = true
  count : s.packs.length = s.par.npack
  pack : p < s.packs.length
  config : configValid s.par (s.cfg p) = true

/-! ## Environment scripts -/

/-- The environment's next answers: every drive `Ok`, and the transfers answered by these byte sequences, in order; then
whatever `drives` and `answers` say. -/
def Script (rxs : List (List Byte)) (drives : List Bool) (answers : List BusAnswer) (s : State) : Prop :=
  s.env.drives = List.replicate rxs.length true ++ drives ∧ s.env.answers = rxs.map BusAnswer.ok ++ answers

/-- The environment's fields when a script has been answered. -/
def envAfter (s : State) (drives : List Bool) (answers : List BusAnswer) : Env :=
  { s.env with drives := drives, answers := answers }

/-- The environment fails the next transaction of pack `p`'s device with the kind `k`: the drive fails, or the transfer is
answered `BusError`, or, where it is a read, by `n` bytes whose CRC is wrong (60_exceptions.md R300). -/
def NextFails (read : Bool) (n : Nat) (s : State) (k : ErrKind) : Prop :=
  (∃ ds, s.env.drives = false :: ds ∧ k = .transport) ∨
  (∃ ds as, s.env.drives = true :: ds ∧ s.env.answers = .busError :: as ∧ k = .transport) ∨
  (read = true ∧ ∃ ds rx as, s.env.drives = true :: ds ∧ s.env.answers = .ok rx :: as ∧ rx.length = n ∧
    crc8 s.par.crcPoly rx ≠ 0 ∧ k = .crc)

/-- `t` is `s` after the failed transaction that sends `tx` to the device of pack `p`: a failed drive leaves any lines and
there is no transfer; else there is one transfer, with its answer (41_register_facade.md R150, R151; log 13). -/
def AfterFailure (p : Nat) (tx : List Byte) (s t : State) : Prop :=
  (∀ ds, s.env.drives = false :: ds → ∃ lines draws, lines.length = s.par.nsel ∧
    t = { s with sel := lines, trace := s.trace ++ [.sel p false], env := { s.env with drives := ds, draws := draws } }) ∧
  (∀ ds a as, s.env.drives = true :: ds → s.env.answers = a :: as →
    t = { s with
          sel := selLines s.par.nsel p, trace := s.trace ++ [.sel p true, .xfer p tx a], env := envAfter s ds as })

/-- `t` after a step abort of kind `k` in the step of pack `p` that began in state `code`: the report, and nothing else
(60_exceptions.md R310, R311). -/
def aborted (p : Nat) (code : BitVec 4) (k : ErrKind) (t : State) : State :=
  { t with trace := t.trace ++ [.report p code (.err k)], result := .aborted k }

/-- The burst that operation `i` of pack `p` reads first, where it reads before it writes. -/
def FirstRead (p : Nat) (c : Cmd) (s : State) (i : Instr) (b : Burst) : Prop :=
  (i ∈ [Instr.readStatus p, .stWaitinit p] ∧ b = ⟨s.par.profile.statusAddr, 1⟩) ∨
  (i ∈ [Instr.readCells p, .stDiag1 p, .stDiag2 p] ∧ s.par.profile.cellBlocks.head? = some b) ∨
  (i ∈ [Instr.readTelemetry p, .runBody p c, .stRun p c, .stRunwarning p c, .stSanitycheck p c] ∧
    s.par.profile.telemBlocks.head? = some b)

/-- The write that operation `i` of pack `p` makes first, where it writes before it reads. -/
def FirstWrite (p : Nat) (s : State) (i : Instr) (w : RegWrite) : Prop :=
  (i = .stInit p ∧ (userList (s.cfg p).userRegs ++ [s.par.profile.clrReset]).head? = some w) ∨
  (i = .stDiag0 p ∧ w = s.par.profile.diagUnlock) ∨
  (i = .stConfig p ∧ (s.par.profile.clrErrors ++ [s.par.profile.wdtArm]).head? = some w) ∨
  (i = .balance p ∧ w = balPack s.par.profile
    (shuntMask s.par.num s.par.ncell (s.cfg p).balDiff (cellList s p)) s.par.profile.balDuration)

/-- A read response (format RS, 30_encoding.md R93): two echo bytes, the words high byte first, and the CRC byte that makes
the whole frame check. -/
def rsFrame (poly e0 e1 : Byte) (ws : List Word) : List Byte :=
  let body := [e0, e1] ++ ws.flatMap fun w => [hiByte w, loByte w]
  body ++ [crc8 poly body]

/-- What a device answers to a burst: its two echo bytes and its words. -/
structure Resp where
  e0 : Byte
  e1 : Byte
  ws : List Word

/-- The two events of one transaction with the device of pack `p`: the select, then the transfer. -/
def transaction (p : Nat) (tx rx : List Byte) : List Event := [.sel p true, .xfer p tx (.ok rx)]

/-- The events of writes to the device of pack `p`, each acknowledged by some bytes. -/
def writeEvents (poly : Byte) (p : Nat) : List RegWrite → List (List Byte) → List Event
  | w :: ws, ack :: acks => transaction p (wrFrame poly w.addr w.value) ack ++ writeEvents poly p ws acks
  | _, _ => []

/-- The events of bursts from the device of pack `p`, each answered by a response. -/
def readEvents (poly : Byte) (p : Nat) : List Burst → List Resp → List Event
  | b :: bs, r :: rs =>
    transaction p (rdFrame b.addr b.count) (rsFrame poly r.e0 r.e1 r.ws) ++ readEvents poly p bs rs
  | _, _ => []

/-- One acknowledgement of four bytes, of any value, for each write. -/
def Acks (ws : List RegWrite) (acks : List (List Byte)) : Prop :=
  acks.length = ws.length ∧ ∀ a ∈ acks, a.length = 4

/-- One response for each burst, with as many words as the burst asks for. -/
def Fits : List Burst → List Resp → Prop
  | [], [] => True
  | b :: bs, r :: rs => r.ws.length = b.count ∧ Fits bs rs
  | _, _ => False

/-- The bytes of the responses. -/
def respBytes (poly : Byte) (rs : List Resp) : List (List Byte) := rs.map fun r => rsFrame poly r.e0 r.e1 r.ws

/-- The lines after `n` transactions with the device of pack `p`, all selects answered `Ok`. -/
def linesAfter (n p : Nat) (s : State) : List Bool := if n = 0 then s.sel else selLines s.par.nsel p

/-- The values `READ_CELLS(p)` converts from these words (41_register_facade.md R155). -/
def cellSamples (s : State) (p : Nat) (words : List Word) : List Q :=
  (List.range s.par.ncell).map fun i => conv s.par.conv .cellV (cellsOf s.par.profile words i) (s.cfg p).cal

/-- Snapshot `k` stands in the buffer `new`, whose other elements are those of `old` (10_state.md R41). -/
def SnapshotStored (ncell k : Nat) (v old new : List Q) : Prop :=
  new.length = 3 * ncell ∧ (∀ i, i < ncell → new.getD (k * ncell + i) 0 = v.getD i 0) ∧
  ∀ j, j < 3 * ncell → (j < k * ncell ∨ (k + 1) * ncell ≤ j) → new.getD j 0 = old.getD j 0

/-- The readback bursts of a user register list (42_pack_supervisor.md R174). -/
def runBursts (u : List RegWrite) (rs : List (Nat × Nat)) : List Burst := rs.map fun r => ⟨runAddr u r.1, r.2⟩

/-- The words each readback burst must return. -/
def runWords (u : List RegWrite) (rs : List (Nat × Nat)) : List (List Word) := rs.map fun r => runValues u r.1 r.2

/-! ## The transactions after the first -/

/-- A transaction an operation makes: one register write, or one burst. -/
inductive Access where
  | write (w : RegWrite)
  | read (b : Burst)

/-- The frame it sends (30_encoding.md R91, R92). -/
def Access.frame (poly : Byte) : Access → List Byte
  | .write w => wrFrame poly w.addr w.value
  | .read b => rdFrame b.addr b.count

/-- The environment fails it with the kind `k`. -/
def Access.Fails (s : State) (k : ErrKind) : Access → Prop
  | .write _ => NextFails false 4 s k
  | .read b => NextFails true (2 * b.count + 3) s k

/-- `Midway p s i a rxs es v`: operation `i` of pack `p`, begun in `s`, comes to its transaction `a` once its transactions
before it were answered by `rxs`, which are the events `es`; what it has written by then, the lines, the trace and the
environment's fields apart, is in `v`. One constructor for each place of a transaction that need not be the first (the run
body apart, `RunBodyAborts`). -/
inductive Midway (p : Nat) (s : State) : Instr → Access → List (List Byte) → List Event → State → Prop where
  /-- `ST_WAITINIT` after a matching power code: the MOSFET-off write (42_pack_supervisor.md R173) -/
  | mosfetsOff (e0 e1 : Byte) (w : Word) (hw : pwrCodeOf s.par.profile w = s.par.profile.powerupCode) :
    Midway p s (.stWaitinit p) (.write ⟨s.par.profile.mosfetCtrlAddr, 0⟩) [rsFrame s.par.crcPoly e0 e1 [w]]
      (transaction p (rdFrame s.par.profile.statusAddr 1) (rsFrame s.par.crcPoly e0 e1 [w])) s
  /-- `ST_WAITINIT` after the MOSFET-off write: the balancer-off write (42_pack_supervisor.md R173) -/
  | balancerOff (e0 e1 : Byte) (w : Word) (ack : List Byte) (hw : pwrCodeOf s.par.profile w = s.par.profile.powerupCode)
      (hack : ack.length = 4) :
    Midway p s (.stWaitinit p) (.write s.par.profile.balOff) [rsFrame s.par.crcPoly e0 e1 [w], ack]
      (transaction p (rdFrame s.par.profile.statusAddr 1) (rsFrame s.par.crcPoly e0 e1 [w]) ++
        transaction p (wrFrame s.par.crcPoly s.par.profile.mosfetCtrlAddr 0) ack) (s.setDrive p 0)
  /-- `ST_INIT`: any write of the user register list (42_pack_supervisor.md R174) -/
  | userWrite (w : RegWrite) (written rest : List RegWrite) (acks : List (List Byte))
      (hu : userList (s.cfg p).userRegs = written ++ w :: rest) (hk : Acks written acks) :
    Midway p s (.stInit p) (.write w) acks (writeEvents s.par.crcPoly p written acks) s
  /-- `ST_INIT`: any readback burst, the runs before it matching (42_pack_supervisor.md R174) -/
  | readback (u : List RegWrite) (r : Nat × Nat) (good rest : List (Nat × Nat)) (acks : List (List Byte)) (gs : List Resp)
      (hu : u = userList (s.cfg p).userRegs) (hk : Acks u acks) (hr : runs u = good ++ r :: rest)
      (hf : Fits (runBursts u good) gs) (hm : gs.map Resp.ws = runWords u good) :
    Midway p s (.stInit p) (.read ⟨runAddr u r.1, r.2⟩) (acks ++ respBytes s.par.crcPoly gs)
      (writeEvents s.par.crcPoly p u acks ++ readEvents s.par.crcPoly p (runBursts u good) gs) s
  /-- `ST_INIT` after the readback: the reset-flag write and the balancer-window write (42_pack_supervisor.md R174) -/
  | afterReadback (u : List RegWrite) (w : RegWrite) (written rest : List RegWrite) (acks acks2 : List (List Byte))
      (gs : List Resp) (hu : u = userList (s.cfg p).userRegs) (hk : Acks u acks) (hf : Fits (runBursts u (runs u)) gs)
      (hm : gs.map Resp.ws = runWords u (runs u))
      (hw : [s.par.profile.clrReset, s.par.profile.balWindow] = written ++ w :: rest) (hk2 : Acks written acks2) :
    Midway p s (.stInit p) (.write w) (acks ++ respBytes s.par.crcPoly gs ++ acks2)
      (writeEvents s.par.crcPoly p u acks ++ readEvents s.par.crcPoly p (runBursts u (runs u)) gs ++
        writeEvents s.par.crcPoly p written acks2) s
  /-- `ST_DIAG0` after unlocking: any burst of the cells (42_pack_supervisor.md R177) -/
  | neutralRead (b : Burst) (good rest : List Burst) (ack : List Byte) (gs : List Resp)
      (hb : s.par.profile.cellBlocks = good ++ b :: rest) (hack : ack.length = 4) (hf : Fits good gs) :
    Midway p s (.stDiag0 p) (.read b) (ack :: respBytes s.par.crcPoly gs)
      (transaction p (wrFrame s.par.crcPoly s.par.profile.diagUnlock.addr s.par.profile.diagUnlock.value) ack ++
        readEvents s.par.crcPoly p good gs) s
  /-- `ST_DIAG0` after the neutral snapshot is stored: the pull-up write (42_pack_supervisor.md R177) -/
  | pullUp (ack : List Byte) (rs : List Resp) (buf : List Q) (hack : ack.length = 4) (hf : Fits s.par.profile.cellBlocks rs)
      (hb : SnapshotStored s.par.ncell 0 (cellSamples s p (rs.map Resp.ws).flatten) s.diagBuf buf) :
    Midway p s (.stDiag0 p) (.write s.par.profile.diagPullUp) (ack :: respBytes s.par.crcPoly rs)
      (transaction p (wrFrame s.par.crcPoly s.par.profile.diagUnlock.addr s.par.profile.diagUnlock.value) ack ++
        readEvents s.par.crcPoly p s.par.profile.cellBlocks rs) { s with diagBuf := buf }
  /-- `READ_CELLS`, `ST_DIAG1`, `ST_DIAG2`: any burst of the cells (41_register_facade.md R155; 42_pack_supervisor.md R179,
  R181) -/
  | cellsRead (i : Instr) (b : Burst) (good rest : List Burst) (gs : List Resp)
      (hi : i ∈ [Instr.readCells p, .stDiag1 p, .stDiag2 p]) (hb : s.par.profile.cellBlocks = good ++ b :: rest)
      (hf : Fits good gs) :
    Midway p s i (.read b) (respBytes s.par.crcPoly gs) (readEvents s.par.crcPoly p good gs) s
  /-- `ST_DIAG1` after the pull-up snapshot is stored: the pull-down write (42_pack_supervisor.md R179) -/
  | pullDown (rs : List Resp) (buf : List Q) (hf : Fits s.par.profile.cellBlocks rs)
      (hb : SnapshotStored s.par.ncell 1 (cellSamples s p (rs.map Resp.ws).flatten) s.diagBuf buf) :
    Midway p s (.stDiag1 p) (.write s.par.profile.diagPullDown) (respBytes s.par.crcPoly rs)
      (readEvents s.par.crcPoly p s.par.profile.cellBlocks rs) { s with diagBuf := buf }
  /-- `ST_DIAG2` after the pull-down snapshot is stored: the clearing write, before the release (42_pack_supervisor.md
  R181) -/
  | diagClear (rs : List Resp) (buf : List Q) (hf : Fits s.par.profile.cellBlocks rs)
      (hb : SnapshotStored s.par.ncell 2 (cellSamples s p (rs.map Resp.ws).flatten) s.diagBuf buf) :
    Midway p s (.stDiag2 p) (.write s.par.profile.diagClear) (respBytes s.par.crcPoly rs)
      (readEvents s.par.crcPoly p s.par.profile.cellBlocks rs) { s with diagBuf := buf }
  /-- `ST_CONFIG`: any of its writes, the watchdog's the last (42_pack_supervisor.md R183) -/
  | configWrite (w : RegWrite) (written rest : List RegWrite) (acks : List (List Byte))
      (hw : s.par.profile.clrErrors ++ [s.par.profile.wdtArm] = written ++ w :: rest) (hk : Acks written acks) :
    Midway p s (.stConfig p) (.write w) acks (writeEvents s.par.crcPoly p written acks) s
  /-- `READ_TELEMETRY`: any burst (41_register_facade.md R156) -/
  | telemetryRead (b : Burst) (good rest : List Burst) (gs : List Resp)
      (hb : s.par.profile.telemBlocks = good ++ b :: rest) (hf : Fits good gs) :
    Midway p s (.readTelemetry p) (.read b) (respBytes s.par.crcPoly gs) (readEvents s.par.crcPoly p good gs) s

/-! ## Operations of a pack, and their events -/

/-- Every operation that serves pack `p`, with the sampled command `c` where it has one. -/
def packOps (p : Nat) (c : Cmd) : List Instr :=
  [.packStep p, .stDisabled p, .stWaitinit p, .stInit p, .stWaitdiag0 p, .stDiag0 p, .stWaitdiag1 p, .stDiag1 p,
   .stWaitdiag2 p, .stDiag2 p, .stConfig p, .stRun p c, .stRunwarning p c, .stSanitycheck p c, .stError p c,
   .readStatus p, .readCells p, .readTelemetry p, .runBody p c, .nextRunState p, .limits p, .i2t p, .alerts p,
   .balance p]

/-- Events of pack `p` alone: every select is of device `p`, every transfer goes to device `p` and comes right after a
select that succeeded, every report is of pack `p`. The Bool tells whether such a select has just been made. -/
def OwnBus (p : Nat) : Bool → List Event → Prop
  | _, [] => True
  | _, .sel i ok :: es => i = p ∧ OwnBus p ok es
  | selected, .xfer d _ _ :: es => selected = true ∧ d = p ∧ OwnBus p false es
  | _, .report q _ _ :: es => q = p ∧ OwnBus p false es

/-- An event of the bus, not a report. -/
def busEvent : Event → Bool
  | .sel _ _ => true
  | .xfer _ _ _ => true
  | .report _ _ _ => false

/-! ## Invariants -/

/-- The codes in which a pack holds the diagnostic lock: `Diag0` to `Diag2` (10_state.md R40). -/
def inDiagnosis (c : BitVec 4) : Prop := 4 ≤ c.toNat ∧ c.toNat ≤ 8

/-- Exactly the pack in a diagnosis state holds the lock (10_state.md R40). -/
structure LockInv (s : State) : Prop where
  holder : ∀ p, p < s.packs.length → (inDiagnosis (s.tel p).state ↔ s.diagLock = some p)
  owner : ∀ p, s.diagLock = some p → p < s.packs.length

/-- A telemetry record of pack `p` as CORE writes it: its identity, a legal state code, no reserved alert bit, the reserved
fields zero, arrays of `NCELL` elements (10_state.md R22, R24, R25, R27, R28, R30). -/
structure TelWf (ncell p : Nat) (t : Telemetry) : Prop where
  ident : t.id = p
  code : t.state.toNat ≤ 13
  reservedBits : ∀ n, 22 ≤ n → t.swAlerts.getLsbD n = false
  capacity : t.capacity = 0
  health : t.health = 0
  cycles : t.cycles = 0
  cells : t.cellV.length = ncell
  cellOv : t.hw.cellOv.length = ncell
  cellUv : t.hw.cellUv.length = ncell

/-- The shape of every state CORE reaches (10_state.md R21, R22, R38, R41, R42; 42_pack_supervisor.md R170). -/
structure StateWf (s : State) : Prop where
  params : paramsValid s.par = true
  count : s.packs.length = s.par.npack
  tel : ∀ p, p < s.packs.length → TelWf s.par.ncell p (s.tel p)
  sel : s.sel.length = s.par.nsel
  diagBuf : s.diagBuf.length = 3 * s.par.ncell
  sync : s.sync = s.cur.isSome
  cur : ∀ p, s.cur = some p → p ≤ s.par.npack
  halted : s.halted = true → s.cur = none

/-- No accumulator is negative (10_state.md R32). -/
def AccumulatorsNonneg (s : State) : Prop := ∀ p, p < s.packs.length → 0 ≤ (s.tel p).i2t

/-- A pack whose configuration is never looked at, or is valid (10_state.md R36; 00_scope.md R19). -/
def ConfigsValid (s : State) : Prop :=
  ∀ p, p < s.packs.length → (s.tel p).state ≠ codeDisabled → configValid s.par (s.cfg p) = true

/-! ## The transition relation of the state register (10_state.md R23) -/

/-- The codes a pack step may write from each code; staying is always possible. -/
def successors (c : BitVec 4) : List (BitVec 4) :=
  match c.toNat with
  | 1 => [codeInit]
  | 2 => [codeWaitDiag0, codeError]
  | 3 => [codeDiag0]
  | 4 => [codeWaitDiag1]
  | 5 => [codeDiag1]
  | 6 => [codeWaitDiag2]
  | 7 => [codeDiag2]
  | 8 => [codeConfig, codeError]
  | 9 => [codeRun]
  | 10 => [codeSanityCheck, codeRunWarning, codeRun]
  | 11 => [codeSanityCheck, codeRunWarning, codeRun]
  | 12 => [codeSanityCheck, codeRunWarning, codeRun]
  | 13 => [codeWaitInit]
  | _ => []

/-! ## The truth table of the arbiter (45_mosfet_arbiter.md R265) -/

/-- The drive pattern for `allowDischarge`, `allowCharge`, `DSG_ON`, `CHG_ON`, `preOk`, row by row. -/
def driveTable : Bool → Bool → Bool → Bool → Bool → BitVec 3
  | false, false, _, _, _ => 0
  | true, false, false, _, false => 4
  | true, false, false, _, true => 5
  | true, false, true, _, _ => 1
  | false, true, _, false, false => 4
  | false, true, _, false, true => 6
  | false, true, _, true, _ => 2
  | true, true, false, false, false => 4
  | true, true, false, false, true => 7
  | true, true, true, false, false => 5
  | true, true, true, false, true => 7
  | true, true, false, true, false => 6
  | true, true, false, true, true => 7
  | true, true, true, true, _ => 3

/-! ## Runs -/

/-- `n` steps of the machine, ending at the first stop. -/
def steps : Nat → State → Host.Outcome State Fault Refusal
  | 0, s => .next s
  | n + 1, s =>
    match step s with
    | .next t => steps n t
    | .fault f => .fault f
    | .refused r => .refused r

end Sys2Proof.Safety
end

