-- ==== Sys2Proof/Certificates/Slice0/Obligations.lean ====
section
/-! DEFINITION. The statements for the provers, from the numbered rules of spec/. -/

open Sys2Proof Sys2Proof.Machine Sys2Proof.Safety

/-! ## Encoding -/

/-- Decoding the coded form of an operation whose operands are in range gives the operation back, every operand at every
value (30_encoding.md R91 to R99). -/
def Obligations.DecodeEncodeRoundTrip : Prop :=
  ∀ (par : Params) (i : Instr) (f : Coded),
    i.wellFormed par = true → encode par i = some f → decode par.nsel f = .ok i

/-- What the decoder reads is what the form says: a frame read as a write or a read request is that request's frame (of a
write frame the CRC byte apart, 30_encoding.md R95), a line code read as an index is that index's code (R96), a state code
its operation's (R97). The model's choice: that a frame read as a read request has `h` and bits 6:5 zero and filler bytes
0x00 (R92) rests on log 25, which refuses every other, while R95 reads such a frame without looking at those bits. -/
def Obligations.DecodedFormIsItsEncoding : Prop :=
  (∀ (bytes : List Byte) (i : Instr), decodeFrame bytes = .ok i →
    (∃ a v c, i = .wrreg a v ∧ a ≤ 127 ∧ bytes = wrHead a v ++ [c]) ∨
    (∃ a n, i = .rdreg a n ∧ a ≤ 127 ∧ 1 ≤ n ∧ n ≤ 32 ∧ bytes = rdFrame a n)) ∧
  (∀ (nsel : Nat) (ls : List Bool) (i : Instr), decodeLines nsel ls = .ok i →
    ∃ k, i = .select k ∧ k < 2 ^ nsel ∧ ls = selLines nsel k) ∧
  (∀ (par : Params) (p : Nat) (c : Cmd) (code : BitVec 4) (i : Instr), decodeState p c code = .ok i →
    encode par i = some (.state p c code) ∨ encode par i = some (.state p default code))

/-- A few words written out from the spec's encodings decode to the operations they stand for (95_test_vectors.md 2.3, 2.4,
2.5; 30_encoding.md R91, R92, R96, R97; 10_state.md R22), and two are refused: the reserved state code 1110 (30_encoding.md
R104) and, which is the model's choice of log 25 and in no vector, a read request with bit `h` set. -/
def Obligations.SampleWordsDecode : Prop :=
  decodeFrame [0x41, 0x00, 0x04, 0xFB] = .ok (.wrreg 0x20 0x0004) ∧
  decodeFrame [0x83, 0xAB, 0xCD, 0x7C] = .ok (.wrreg 0x41 0xABCD) ∧
  decodeFrame [0x20, 0x03, 0, 0, 0, 0, 0, 0, 0, 0, 0] = .ok (.rdreg 0x10 4) ∧
  decodeFrame [0x20, 0x83, 0, 0, 0, 0, 0, 0, 0, 0, 0] = .error .highAddressBit ∧
  decodeLines 3 [true, false, true] = .ok (.select 5) ∧
  decodeState 0 default 0b1000 = .ok (.stDiag2 0) ∧
  decodeState 0 default 0b1110 = .error .reservedCode

/-- The frames CORE sends, byte by byte (30_encoding.md R91, R92, R94, R98). -/
def Obligations.FrameLayouts : Prop :=
  ∀ (poly : Byte) (a : Nat) (v : Word) (n : Nat), a ≤ 127 → 1 ≤ n → n ≤ 32 →
    (∃ b0 b1 b2 : Byte, wrFrame poly a v = [b0, b1, b2, crc8 poly [b0, b1, b2]] ∧
      b0.toNat = 2 * a + 1 ∧ b1.toNat = v.toNat / 256 ∧ b2.toNat = v.toNat % 256) ∧
    (∃ b0 b1 : Byte, rdFrame a n = b0 :: b1 :: List.replicate (2 * n + 1) 0 ∧ b0.toNat = 2 * a ∧ b1.toNat = n - 1) ∧
    (rdFrame a n).length = 2 + 2 * n + 1

/-! ## Transport framer -/

/-- `CRC8` and `FRAME_OK` give their value and write nothing else; the CRC starts at 0x00, takes one byte at a time through
the table and has no final step (40_transport_framer.md R121, R127); a table entry is its index after eight shift steps, each
with the polynomial where the bit shifted out is 1 (R122). The byte-wise update and the generation are PRESUMED, log 24: the
spec marks both as from general knowledge, not in source (U2, U3). -/
def Obligations.CrcAndFrameCheck : Prop :=
  ∀ s : State,
    (∀ bs, exec (.crc8 bs) s = .next (s.setResult (.byte (crc8 s.par.crcPoly bs)))) ∧
    (∀ f, exec (.frameOk f) s = .next (s.setResult (.bool (decide (crc8 s.par.crcPoly f = 0))))) ∧
    crc8 s.par.crcPoly [] = 0 ∧
    (∀ bs b, crc8 s.par.crcPoly (bs ++ [b]) = crcTable s.par.crcPoly (crc8 s.par.crcPoly bs ^^^ b)) ∧
    ∀ i : Byte, ∃ v : Nat → Byte, v 0 = i ∧ v 8 = crcTable s.par.crcPoly i ∧
      ∀ k, k < 8 → v (k + 1) = if (v k).getLsbD 0 then (v k >>> 1) ^^^ s.par.crcPoly else v k >>> 1

/-- The four properties of the CRC for every polynomial with bit 7 set: residue, the table a permutation, every single-byte
corruption detected, zero frames pass (40_transport_framer.md R123, which the spec derives). -/
def Obligations.CrcProperties : Prop :=
  ∀ poly : Byte, poly.getLsbD 7 = true →
    (∀ m, crc8 poly (m ++ [crc8 poly m]) = 0) ∧
    (∀ x y, crcTable poly x = crcTable poly y → x = y) ∧
    (∀ pre a b post, a ≠ b → frameOk poly (pre ++ a :: post) = true → frameOk poly (pre ++ b :: post) = false) ∧
    ∀ n, frameOk poly (List.replicate n 0) = true

/-- `SELECT` (40_transport_framer.md R124): an index out of range is rejected with no event; else the lines are driven, and
carry the index when the drive answers `Ok`, any values when it fails (log 13). Nothing else changes. -/
def Obligations.SelectOutcomes : Prop :=
  ∀ (index : Nat) (s : State),
    (2 ^ s.par.nsel ≤ index → exec (.select index) s = .next (s.setResult (.err .badArgument))) ∧
    (index < 2 ^ s.par.nsel → ∀ ds,
      (s.env.drives = true :: ds → ∃ lines, lines.length = s.par.nsel ∧
        (∀ k, k < s.par.nsel → lines.getD k false = index.testBit k) ∧
        exec (.select index) s = .next { s with
          sel := lines, trace := s.trace ++ [.sel index true], env := { s.env with drives := ds }, result := .done }) ∧
      (s.env.drives = false :: ds → ∃ lines draws, lines.length = s.par.nsel ∧
        exec (.select index) s = .next { s with
          sel := lines, trace := s.trace ++ [.sel index false], env := { s.env with drives := ds, draws := draws },
          result := .err .transport }))

/-- `WRREG` (40_transport_framer.md R125): an address above 127 is rejected before any bus activity; else one write frame goes
to the device on the lines, and the bytes received are not examined. Nothing else changes. -/
def Obligations.WrregOutcomes : Prop :=
  ∀ (a : Nat) (v : Word) (s : State),
    (127 < a → exec (.wrreg a v) s = .next (s.setResult (.err .badArgument))) ∧
    (a ≤ 127 → ∀ rest,
      (s.env.answers = .busError :: rest → exec (.wrreg a v) s = .next { s with
        trace := s.trace ++ [.xfer (lineIndex s.sel) (wrFrame s.par.crcPoly a v) .busError],
        env := { s.env with answers := rest }, result := .err .transport }) ∧
      (∀ rx, rx.length = 4 → s.env.answers = .ok rx :: rest → exec (.wrreg a v) s = .next { s with
        trace := s.trace ++ [.xfer (lineIndex s.sel) (wrFrame s.par.crcPoly a v) (.ok rx)],
        env := { s.env with answers := rest }, result := .done }))

/-- `RDREG` (40_transport_framer.md R126): a count outside 1 to 32 or an address above 127 is rejected before any bus
activity; else one request, and `Transport`, `Crc` or the words, register by register, high byte first. Nothing else
changes. -/
def Obligations.RdregOutcomes : Prop :=
  ∀ (a n : Nat) (s : State),
    ((n < 1 ∨ 32 < n ∨ 127 < a) → exec (.rdreg a n) s = .next (s.setResult (.err .badArgument))) ∧
    (1 ≤ n → n ≤ 32 → a ≤ 127 → ∀ rest,
      (s.env.answers = .busError :: rest → exec (.rdreg a n) s = .next { s with
        trace := s.trace ++ [.xfer (lineIndex s.sel) (rdFrame a n) .busError],
        env := { s.env with answers := rest }, result := .err .transport }) ∧
      (∀ rx, rx.length = 2 * n + 3 → s.env.answers = .ok rx :: rest → exec (.rdreg a n) s = .next { s with
        trace := s.trace ++ [.xfer (lineIndex s.sel) (rdFrame a n) (.ok rx)], env := { s.env with answers := rest },
        result := if crc8 s.par.crcPoly rx = 0 then
            .words ((List.range n).map fun i => rx.getD (2 + 2 * i) 0 ++ rx.getD (3 + 2 * i) 0)
          else .err .crc }))

/-- A response in format RS is accepted whatever its echo bytes, and delivers exactly the words it carries (30_encoding.md
R93, R102). -/
def Obligations.RdregDeliversResponse : Prop :=
  ∀ (a : Nat) (r : Resp) (s : State) (rest : List BusAnswer), a ≤ 127 → 1 ≤ r.ws.length → r.ws.length ≤ 32 →
    s.env.answers = .ok (rsFrame s.par.crcPoly r.e0 r.e1 r.ws) :: rest →
    exec (.rdreg a r.ws.length) s = .next { s with
      trace := s.trace ++
        [.xfer (lineIndex s.sel) (rdFrame a r.ws.length) (.ok (rsFrame s.par.crcPoly r.e0 r.e1 r.ws))],
      env := { s.env with answers := rest }, result := .words r.ws }

/-- A response with one byte changed is never delivered: `Err(Crc)`, no word (40_transport_framer.md R126, R127 and the
derived R123 (c)). -/
def Obligations.CorruptResponseRejected : Prop :=
  ∀ (a : Nat) (r : Resp) (pre post : List Byte) (x y : Byte) (s : State) (rest : List BusAnswer),
    s.par.crcPoly.getLsbD 7 = true → a ≤ 127 → 1 ≤ r.ws.length → r.ws.length ≤ 32 →
    rsFrame s.par.crcPoly r.e0 r.e1 r.ws = pre ++ x :: post → x ≠ y →
    s.env.answers = .ok (pre ++ y :: post) :: rest →
    exec (.rdreg a r.ws.length) s = .next { s with
      trace := s.trace ++ [.xfer (lineIndex s.sel) (rdFrame a r.ws.length) (.ok (pre ++ y :: post))],
      env := { s.env with answers := rest }, result := .err .crc }

/-- Whatever the environment answers, the operations of the framer and the facade's two accessors end in a next state and
change the select lines, the trace and the model's own fields alone; `WRREG` and `RDREG` leave the lines too, and `CRC8` and
`FRAME_OK` all but the result (40_transport_framer.md R128). -/
def Obligations.TransportFrame : Prop :=
  ∀ (i : Instr) (s : State) (p a n : Nat) (v : Word) (bs : List Byte),
    i ∈ [Instr.select p, .wrreg a v, .rdreg a n, .afeWrite p a v, .afeRead p a n, .crc8 bs, .frameOk bs] →
    ∃ t, exec i s = .next t ∧ BusAndResultOnly s t ∧ (s.sel.length = s.par.nsel → t.sel.length = s.par.nsel) ∧
      (i ∈ [Instr.wrreg a v, .rdreg a n] → t.sel = s.sel) ∧
      (i ∈ [Instr.crc8 bs, .frameOk bs] → t = { s with result := t.result })

/-! ## Register facade -/

/-- `AFE_WRITE` and `AFE_READ` (41_register_facade.md R150, R151, R152): the select first, then the frame; a failed select
ends the operation with no transfer; a count outside 1 to 32 causes no event at all; an address above 127 is found after the
select; `BusError` on the transfer after a successful select is `Transport`, and a response whose CRC is wrong is `Crc`. -/
def Obligations.FacadeAccess : Prop :=
  ∀ (p a n : Nat) (v : Word) (s : State) (ds : List Bool),
    (2 ^ s.par.nsel ≤ p → exec (.afeWrite p a v) s = .next (s.setResult (.err .badArgument))) ∧
    ((n < 1 ∨ 32 < n ∨ 2 ^ s.par.nsel ≤ p) → exec (.afeRead p a n) s = .next (s.setResult (.err .badArgument))) ∧
    (p < 2 ^ s.par.nsel → 1 ≤ n → n ≤ 32 →
      (s.env.drives = false :: ds → ∀ i ∈ [Instr.afeWrite p a v, .afeRead p a n], ∃ lines draws, exec i s = .next { s with
        sel := lines, trace := s.trace ++ [.sel p false], env := { s.env with drives := ds, draws := draws },
        result := .err .transport }) ∧
      (127 < a → s.env.drives = true :: ds → ∀ i ∈ [Instr.afeWrite p a v, .afeRead p a n], exec i s = .next { s with
        sel := selLines s.par.nsel p, trace := s.trace ++ [.sel p true], env := { s.env with drives := ds },
        result := .err .badArgument }) ∧
      (a ≤ 127 → ∀ as,
        (∀ ack, ack.length = 4 → Script [ack] ds as s → exec (.afeWrite p a v) s = .next { s with
          sel := selLines s.par.nsel p, trace := s.trace ++ transaction p (wrFrame s.par.crcPoly a v) ack,
          env := envAfter s ds as, result := .done }) ∧
        (∀ r : Resp, r.ws.length = n → Script [rsFrame s.par.crcPoly r.e0 r.e1 r.ws] ds as s →
          exec (.afeRead p a n) s = .next { s with
            sel := selLines s.par.nsel p,
            trace := s.trace ++ transaction p (rdFrame a n) (rsFrame s.par.crcPoly r.e0 r.e1 r.ws),
            env := envAfter s ds as, result := .words r.ws }) ∧
        (s.env.drives = true :: ds → s.env.answers = .busError :: as →
          exec (.afeWrite p a v) s = .next { s with
            sel := selLines s.par.nsel p,
            trace := s.trace ++ [.sel p true, .xfer p (wrFrame s.par.crcPoly a v) .busError],
            env := envAfter s ds as, result := .err .transport } ∧
          exec (.afeRead p a n) s = .next { s with
            sel := selLines s.par.nsel p, trace := s.trace ++ [.sel p true, .xfer p (rdFrame a n) .busError],
            env := envAfter s ds as, result := .err .transport }) ∧
        (∀ rx, rx.length = 2 * n + 3 → crc8 s.par.crcPoly rx ≠ 0 → Script [rx] ds as s →
          exec (.afeRead p a n) s = .next { s with
            sel := selLines s.par.nsel p, trace := s.trace ++ transaction p (rdFrame a n) rx,
            env := envAfter s ds as, result := .err .crc })))

/-- `READ_STATUS` reads one register and gives its power code; `READ_CELLS` reads the cell blocks and gives the converted
voltages; neither writes telemetry (41_register_facade.md R154, R155). -/
def Obligations.StatusAndCellsComplete : Prop :=
  ∀ (p : Nat) (s : State) (ds : List Bool) (as : List BusAnswer), Ready p s →
    (∀ e0 e1 w, Script [rsFrame s.par.crcPoly e0 e1 [w]] ds as s → exec (.readStatus p) s = .next { s with
      sel := selLines s.par.nsel p,
      trace := s.trace ++ transaction p (rdFrame s.par.profile.statusAddr 1) (rsFrame s.par.crcPoly e0 e1 [w]),
      env := envAfter s ds as, result := .code (pwrCodeOf s.par.profile w) }) ∧
    (∀ rs, Fits s.par.profile.cellBlocks rs → Script (respBytes s.par.crcPoly rs) ds as s →
      exec (.readCells p) s = .next { s with
        sel := linesAfter s.par.profile.cellBlocks.length p s,
        trace := s.trace ++ readEvents s.par.crcPoly p s.par.profile.cellBlocks rs,
        env := envAfter s ds as, result := .samples (cellSamples s p (rs.map Resp.ws).flatten) })

/-- `READ_TELEMETRY` with every block answered commits the raw words, the decoded flags and the converted measurements all
together, and nothing else of `T[p]` (41_register_facade.md R156). -/
def Obligations.ReadTelemetryCompletes : Prop :=
  ∀ (p : Nat) (s : State) (ds : List Bool) (as : List BusAnswer) (rs : List Resp), Ready p s →
    Fits s.par.profile.telemBlocks rs → Script (respBytes s.par.crcPoly rs) ds as s →
    exec (.readTelemetry p) s = .next { s.setTel p { s.tel p with
        raw := rs.map Resp.ws
        hw := decodeHw s.par (rs.map Resp.ws)
        current := conv s.par.conv .current (rawMeas s.par.profile (rs.map Resp.ws)).current (s.cfg p).cal
        voltage := conv s.par.conv .packV (rawMeas s.par.profile (rs.map Resp.ws)).packV (s.cfg p).cal
        auxV := conv s.par.conv .auxV (rawMeas s.par.profile (rs.map Resp.ws)).auxV (s.cfg p).cal
        dieTemp := conv s.par.conv .dieT (rawMeas s.par.profile (rs.map Resp.ws)).dieT (s.cfg p).cal
        ntc := fourMap (fun w => conv s.par.conv .ntc w (s.cfg p).cal) (rawMeas s.par.profile (rs.map Resp.ws)).ntc
        cellV := (List.range s.par.ncell).map fun i =>
          conv s.par.conv .cellV ((rawMeas s.par.profile (rs.map Resp.ws)).cell i) (s.cfg p).cal } with
      sel := linesAfter s.par.profile.telemBlocks.length p s,
      trace := s.trace ++ readEvents s.par.crcPoly p s.par.profile.telemBlocks rs,
      env := envAfter s ds as, result := .done }

/-- `READ_TELEMETRY` is all or nothing, whatever the environment answers: every block was read and the record is the commit of
as many words as asked for, or the operation was aborted and no record changed (41_register_facade.md R156). -/
def Obligations.ReadTelemetryAllOrNothing : Prop :=
  ∀ (p : Nat) (s t : State), exec (.readTelemetry p) s = .next t →
    (t.result = .done ∧ ∃ blocks, blocks.map List.length = s.par.profile.telemBlocks.map Burst.count ∧
      t.packs = s.packs.set p { s.pack p with tel := commitTelemetry s.par (s.cfg p) blocks (s.tel p) }) ∨
    ((∃ k, t.result = .aborted k) ∧ t.packs = s.packs)

/-! ## The step abort -/

/-- A step abort leaves the state register and the lock as they were and emits exactly one report, the last event, of the
state at entry (60_exceptions.md R310, R311); so does the next one of the same kind, which R312's retry may bring. A disabled
pack's step does nothing and takes none. And a transaction that fails after others were answered is such an abort, whichever
it is: nothing after it is attempted, no state code is written, no lock released, no fault taken, and what was written before
it stays (60_exceptions.md R305; 42_pack_supervisor.md R173, R174, R177, R179, R181, R183; 41_register_facade.md R155, R156;
the run body's are in RunBodyAborts). The model's choice, log 12: `READ_STATUS`, `READ_CELLS`, `READ_TELEMETRY`, `RUN_BODY`
and `BALANCE` run by themselves take the abort too; the spec calls them inside a pack step. -/
def Obligations.AbortKeepsStateAndReports : Prop :=
  (∀ (p : Nat) (c : Cmd) (i : Instr) (s t : State) (k : ErrKind), i ∈ packOps p c → i ≠ .stDisabled p →
    (i = .packStep p → (s.tel p).state ≠ codeDisabled) → exec i s = .next t → t.result = .aborted k →
    (t.tel p).state = (s.tel p).state ∧ t.diagLock = s.diagLock ∧
    ∃ es, t.trace = s.trace ++ es ++ [.report p (s.tel p).state (.err k)] ∧ es.all busEvent = true) ∧
  ∀ (p : Nat) (i : Instr) (a : Access) (rxs : List (List Byte)) (es : List Event) (s v u : State) (ds : List Bool)
    (as : List BusAnswer) (k : ErrKind), Ready p s → Midway p s i a rxs es v → Script rxs ds as s →
    u = { v with sel := linesAfter rxs.length p s, trace := s.trace ++ es, env := envAfter s ds as } → a.Fails u k →
    ∃ t, AfterFailure p (a.frame s.par.crcPoly) u t ∧ exec i s = .next (aborted p (s.tel p).state k t)

/-- A failing first transaction is a taken abort, for each operation of a pack with transactions and each way a read or a
write can fail, and no later transaction is attempted (60_exceptions.md R300, R305, R310; 95_test_vectors.md 5.7). The
model's choice, log 12: `READ_STATUS`, `READ_CELLS`, `READ_TELEMETRY`, `RUN_BODY` and `BALANCE` run by themselves take the
abort too; the spec calls them inside a pack step. -/
def Obligations.FailedFirstTransactionAborts : Prop :=
  ∀ (p : Nat) (c : Cmd) (i : Instr) (s : State) (k : ErrKind), Ready p s →
    (∀ b, FirstRead p c s i b → NextFails true (2 * b.count + 3) s k →
      ∃ t, AfterFailure p (rdFrame b.addr b.count) s t ∧ exec i s = .next (aborted p (s.tel p).state k t)) ∧
    (∀ w, FirstWrite p s i w → NextFails false 4 s k →
      ∃ t, AfterFailure p (wrFrame s.par.crcPoly w.addr w.value) s t ∧
        exec i s = .next (aborted p (s.tel p).state k t))

/-! ## Bring-up -/

/-- `ST_DISABLED` changes nothing at all, and the pass does not call it: at a disabled pack the sequencer goes on to the next
one (42_pack_supervisor.md R172). -/
def Obligations.StDisabledDoesNothing : Prop :=
  ∀ (p : Nat) (s : State), p < s.packs.length →
    exec (.stDisabled p) s = .next s ∧
    (p < s.par.npack → ¬(0 < p ∧ s.shutdown = true) → (s.tel p).state = codeDisabled →
      passAt p s = .next { s with cur := some (p + 1) })

/-- `ST_WAITINIT` polls the power code: on a match it switches the MOSFETs and then the balancer off and goes to `Init`; else
it stays (42_pack_supervisor.md R173). -/
def Obligations.StWaitinitCompletes : Prop :=
  ∀ (p : Nat) (s : State) (ds : List Bool) (as : List BusAnswer) (e0 e1 : Byte) (w : Word), Ready p s →
    (pwrCodeOf s.par.profile w ≠ s.par.profile.powerupCode → Script [rsFrame s.par.crcPoly e0 e1 [w]] ds as s →
      exec (.stWaitinit p) s = .next { s with
        sel := selLines s.par.nsel p,
        trace := s.trace ++ transaction p (rdFrame s.par.profile.statusAddr 1) (rsFrame s.par.crcPoly e0 e1 [w]),
        env := envAfter s ds as, result := .done }) ∧
    (pwrCodeOf s.par.profile w = s.par.profile.powerupCode → ∀ ack1 ack2, ack1.length = 4 → ack2.length = 4 →
      Script [rsFrame s.par.crcPoly e0 e1 [w], ack1, ack2] ds as s →
      exec (.stWaitinit p) s = .next { s.setTel p { s.tel p with state := codeInit, mosfetDrive := 0 } with
        sel := selLines s.par.nsel p,
        trace := s.trace ++ transaction p (rdFrame s.par.profile.statusAddr 1) (rsFrame s.par.crcPoly e0 e1 [w]) ++
          transaction p (wrFrame s.par.crcPoly s.par.profile.mosfetCtrlAddr 0) ack1 ++
          transaction p (wrFrame s.par.crcPoly s.par.profile.balOff.addr s.par.profile.balOff.value) ack2,
        env := envAfter s ds as, result := .done })

/-- `RUNS`: the runs cover the list in order, each has 1 to 32 entries at consecutive addresses, and none could have been
longer (42_pack_supervisor.md R175). -/
def Obligations.RunsPartition : Prop :=
  ∀ (u : List RegWrite) (s : State),
    exec (.runs u) s = .next (s.setResult (.runs (runs u))) ∧
    ((runs u).map Prod.snd).sum = u.length ∧
    (∀ j, j < (runs u).length → ((runs u).getD j default).1 = (((runs u).take j).map Prod.snd).sum) ∧
    (∀ r ∈ runs u, 1 ≤ r.2 ∧ r.2 ≤ 32 ∧
      ∀ i, i + 1 < r.2 → (u.getD (r.1 + i + 1) default).addr = (u.getD (r.1 + i) default).addr + 1) ∧
    ∀ j, j + 1 < (runs u).length → ∀ r, (runs u).getD j default = r →
      r.2 = 32 ∨ (u.getD (r.1 + r.2) default).addr ≠ (u.getD (r.1 + r.2 - 1) default).addr + 1

/-- `ST_INIT` with every write acknowledged and every run read back as written: the list in order, the readback bursts, the
reset-flag and balancer-window writes, and `WaitDiag0` (42_pack_supervisor.md R174). The list is the stored one up to and
without its first pair (0, 0) (30_encoding.md R107), or to its end where it has none (DEDUCED, log 28). -/
def Obligations.StInitVerified : Prop :=
  (∀ stored : List RegWrite, ∃ rest, stored = userList stored ++ rest ∧
    (∀ w ∈ userList stored, ¬(w.addr = 0 ∧ w.value = 0)) ∧ (rest = [] ∨ ∃ more, rest = ⟨0, 0⟩ :: more)) ∧
  ∀ (p : Nat) (s : State) (ds : List Bool) (as : List BusAnswer) (acks acks2 : List (List Byte)) (rs : List Resp)
    (u : List RegWrite), Ready p s → u = userList (s.cfg p).userRegs → Acks u acks →
    Fits (runBursts u (runs u)) rs → rs.map Resp.ws = runWords u (runs u) →
    Acks [s.par.profile.clrReset, s.par.profile.balWindow] acks2 →
    Script (acks ++ respBytes s.par.crcPoly rs ++ acks2) ds as s →
    exec (.stInit p) s = .next { s.setCode p codeWaitDiag0 with
      sel := selLines s.par.nsel p,
      trace := s.trace ++ writeEvents s.par.crcPoly p u acks ++
        readEvents s.par.crcPoly p (runBursts u (runs u)) rs ++
        writeEvents s.par.crcPoly p [s.par.profile.clrReset, s.par.profile.balWindow] acks2,
      env := envAfter s ds as, result := .done }

/-- `ST_INIT` at the first run that does not read back as written: `Error`, one `ConfigFault` report, no further bus activity,
no alert bit (42_pack_supervisor.md R174; 60_exceptions.md R301, R311). -/
def Obligations.StInitMismatch : Prop :=
  ∀ (p : Nat) (s : State) (ds : List Bool) (as : List BusAnswer) (acks : List (List Byte)) (gs : List Resp) (bad : Resp)
    (u : List RegWrite) (good rest : List (Nat × Nat)) (k n : Nat),
    Ready p s → u = userList (s.cfg p).userRegs → Acks u acks → runs u = good ++ (k, n) :: rest →
    Fits (runBursts u good) gs → gs.map Resp.ws = runWords u good →
    bad.ws.length = n → bad.ws ≠ runValues u k n →
    Script (acks ++ respBytes s.par.crcPoly (gs ++ [bad])) ds as s →
    exec (.stInit p) s = .next { s.setCode p codeError with
      sel := selLines s.par.nsel p,
      trace := s.trace ++ writeEvents s.par.crcPoly p u acks ++
        readEvents s.par.crcPoly p (runBursts u (good ++ [(k, n)])) (gs ++ [bad]) ++
        [.report p (s.tel p).state .configFault],
      env := envAfter s ds as, result := .done }

/-! ## The diagnosis -/

/-- The states without bus activity that the spec's decisions shape: `WaitDiag0` takes a free lock or stays, `WaitDiag2` is an
idle cycle, `Error` is left by the reset request alone (42_pack_supervisor.md R176, R180, R185). -/
def Obligations.SilentStates : Prop :=
  ∀ (p : Nat) (c : Cmd) (s : State), Ready p s →
    (s.diagLock = none → exec (.stWaitdiag0 p) s =
      .next { s.setCode p codeDiag0 with diagLock := some p, result := .done }) ∧
    (∀ owner, s.diagLock = some owner → exec (.stWaitdiag0 p) s = .next { s with result := .done }) ∧
    exec (.stWaitdiag2 p) s = .next { s.setCode p codeDiag2 with result := .done } ∧
    (c.resetReq = true → exec (.stError p c) s =
      .next { s.setTel p { s.tel p with state := codeWaitInit, swAlerts := 0 } with result := .done }) ∧
    (c.resetReq = false → exec (.stError p c) s = .next { s with result := .done })

/-- `ST_WAITDIAG1` goes to `Diag1` and does nothing else (42_pack_supervisor.md R178). -/
def Obligations.StWaitdiag1Settles : Prop :=
  ∀ (p : Nat) (s : State), Ready p s →
    exec (.stWaitdiag1 p) s = .next { s.setCode p codeDiag1 with result := .done }

/-- `ST_DIAG0` unlocks, stores the neutral snapshot, applies pull-up; `ST_DIAG1` stores the pull-up snapshot, applies
pull-down; the telemetry's cell voltages stay (42_pack_supervisor.md R177, R179). -/
def Obligations.DiagSamplesStored : Prop :=
  ∀ (p : Nat) (s : State) (ds : List Bool) (as : List BusAnswer) (rs : List Resp), Ready p s →
    Fits s.par.profile.cellBlocks rs →
    (∀ ack1 ack2, ack1.length = 4 → ack2.length = 4 →
      Script (ack1 :: respBytes s.par.crcPoly rs ++ [ack2]) ds as s →
      ∃ buf, SnapshotStored s.par.ncell 0 (cellSamples s p (rs.map Resp.ws).flatten) s.diagBuf buf ∧
        exec (.stDiag0 p) s = .next { s.setCode p codeWaitDiag1 with
          diagBuf := buf, sel := selLines s.par.nsel p,
          trace := s.trace ++
            transaction p (wrFrame s.par.crcPoly s.par.profile.diagUnlock.addr s.par.profile.diagUnlock.value) ack1 ++
            readEvents s.par.crcPoly p s.par.profile.cellBlocks rs ++
            transaction p (wrFrame s.par.crcPoly s.par.profile.diagPullUp.addr s.par.profile.diagPullUp.value) ack2,
          env := envAfter s ds as, result := .done }) ∧
    (∀ ack, ack.length = 4 → Script (respBytes s.par.crcPoly rs ++ [ack]) ds as s →
      ∃ buf, SnapshotStored s.par.ncell 1 (cellSamples s p (rs.map Resp.ws).flatten) s.diagBuf buf ∧
        exec (.stDiag1 p) s = .next { s.setCode p codeWaitDiag2 with
          diagBuf := buf, sel := selLines s.par.nsel p,
          trace := s.trace ++ readEvents s.par.crcPoly p s.par.profile.cellBlocks rs ++
            transaction p (wrFrame s.par.crcPoly s.par.profile.diagPullDown.addr s.par.profile.diagPullDown.value) ack,
          env := envAfter s ds as, result := .done })

/-- `ST_DIAG2` releases the lock, then passes the pack to `Config` when every delta between the neutral snapshot and the
samples just read is below the threshold, else to `Error` with alert bit 14 and a `DiagFault` report. The buffer then holds
any values (42_pack_supervisor.md R181; 46_diag_balancer.md R281; log 15). -/
def Obligations.StDiag2Verdict : Prop :=
  ∀ (p : Nat) (s : State) (ds : List Bool) (as : List BusAnswer) (rs : List Resp) (ack : List Byte) (v : List Q)
    (tr : List Event), Ready p s → Fits s.par.profile.cellBlocks rs → ack.length = 4 →
    Script (respBytes s.par.crcPoly rs ++ [ack]) ds as s →
    v = cellSamples s p (rs.map Resp.ws).flatten →
    tr = s.trace ++ readEvents s.par.crcPoly p s.par.profile.cellBlocks rs ++
      transaction p (wrFrame s.par.crcPoly s.par.profile.diagClear.addr s.par.profile.diagClear.value) ack →
    ((∀ j, j < s.par.ncell →
        qAbs (numSub s.par.num (s.diagBuf.getD j 0) (v.getD j 0)) < (s.cfg p).diagThreshold) →
      ∃ buf draws, buf.length = 3 * s.par.ncell ∧ exec (.stDiag2 p) s = .next { s.setCode p codeConfig with
        diagLock := none, diagBuf := buf, sel := selLines s.par.nsel p, trace := tr,
        env := { envAfter s ds as with draws := draws }, result := .done }) ∧
    ((∃ j, j < s.par.ncell ∧
        (s.cfg p).diagThreshold ≤ qAbs (numSub s.par.num (s.diagBuf.getD j 0) (v.getD j 0))) →
      ∃ buf draws, buf.length = 3 * s.par.ncell ∧
        exec (.stDiag2 p) s = .next { s.setTel p { s.tel p with
            state := codeError, swAlerts := (s.tel p).swAlerts ||| 0x00004000 } with
          diagLock := none, diagBuf := buf, sel := selLines s.par.nsel p,
          trace := tr ++ [.report p (s.tel p).state .diagFault],
          env := { envAfter s ds as with draws := draws }, result := .done })

/-- `ST_CONFIG` clears the latched errors, arms the watchdog and goes to `Run` (42_pack_supervisor.md R183). -/
def Obligations.StConfigCompletes : Prop :=
  ∀ (p : Nat) (s : State) (ds : List Bool) (as : List BusAnswer) (acks : List (List Byte)) (ws : List RegWrite),
    Ready p s → ws = s.par.profile.clrErrors ++ [s.par.profile.wdtArm] → Acks ws acks → Script acks ds as s →
    exec (.stConfig p) s = .next { s.setCode p codeRun with
      sel := selLines s.par.nsel p, trace := s.trace ++ writeEvents s.par.crcPoly p ws acks,
      env := envAfter s ds as, result := .done }

/-! ## Steady state -/

/-- The run body, in the three steady states and by itself, with every transaction answered: telemetry, alert clear, limits,
accumulator, alerts, arbiter, the drive write, the balancer exactly when it is due, and the next state code
(42_pack_supervisor.md R186, R187, R189 to R192; 46_diag_balancer.md R285). -/
def Obligations.RunBodyCompletes : Prop :=
  ∀ (p : Nat) (c : Cmd) (i : Instr) (s s1 s2 s3 : State) (ds : List Bool) (as : List BusAnswer) (rs : List Resp)
    (ack : List Byte) (d : BitVec 3),
    i ∈ [Instr.runBody p c, .stRun p c, .stRunwarning p c, .stSanitycheck p c] → Ready p s →
    Fits s.par.profile.telemBlocks rs → ack.length = 4 →
    s1 = s.setTel p (commitTelemetry s.par (s.cfg p) (rs.map Resp.ws) (s.tel p)) →
    s2 = alerts p (i2t p (limits p (if c.alertClearReq then s1.setAlerts p 0 else s1))) →
    d = arbiter s.par.num (s2.tel p).swAlerts (s2.tel p).hw c (s2.tel p).voltage s.vbus (s.cfg p).prechgTol →
    s3 = s2.setDrive p d →
    (¬((s3.tel p).hw.balElapsed = true ∧ ∃ v ∈ (s3.tel p).cellV, (s.cfg p).balStartV ≤ v) →
      Script (respBytes s.par.crcPoly rs ++ [ack]) ds as s →
      exec i s = .next { nextRunState p s3 with
        sel := selLines s.par.nsel p,
        trace := s.trace ++ readEvents s.par.crcPoly p s.par.profile.telemBlocks rs ++
          transaction p (wrFrame s.par.crcPoly s.par.profile.mosfetCtrlAddr (d.zeroExtend 16)) ack,
        env := envAfter s ds as, result := .done }) ∧
    ((s3.tel p).hw.balElapsed = true → (∃ v ∈ (s3.tel p).cellV, (s.cfg p).balStartV ≤ v) →
      ∀ ack2 w, ack2.length = 4 → Script (respBytes s.par.crcPoly rs ++ [ack, ack2]) ds as s →
      w = balPack s.par.profile (shuntMask s.par.num s.par.ncell (s.cfg p).balDiff (s3.tel p).cellV)
        s.par.profile.balDuration →
      exec i s = .next { nextRunState p s3 with
        sel := selLines s.par.nsel p,
        trace := s.trace ++ readEvents s.par.crcPoly p s.par.profile.telemBlocks rs ++
          transaction p (wrFrame s.par.crcPoly s.par.profile.mosfetCtrlAddr (d.zeroExtend 16)) ack ++
          transaction p (wrFrame s.par.crcPoly w.addr w.value) ack2,
        env := envAfter s ds as, result := .done })

/-- What a failing transaction of the run body leaves (42_pack_supervisor.md R190; 60_exceptions.md R310): a failed telemetry
burst, whichever it is, no record changed; telemetry answered and the drive write failed, the measurements, limits,
accumulator and alerts committed and the old drive; the drive acknowledged and the balancer write failed, the new drive too;
the state code stays in each. Whatever the environment answers, the records of an aborted run body are one of these three.
The model's choice, log 12: `RUN_BODY` run by itself takes the abort too. -/
def Obligations.RunBodyAborts : Prop :=
  ∀ (p : Nat) (c : Cmd) (i : Instr) (s : State) (k : ErrKind),
    i ∈ [Instr.runBody p c, .stRun p c, .stRunwarning p c, .stSanitycheck p c] →
    (∀ good b rest gs ds as u, Ready p s → s.par.profile.telemBlocks = good ++ b :: rest → Fits good gs →
      Script (respBytes s.par.crcPoly gs) ds as s →
      u = { s with
            sel := linesAfter good.length p s, trace := s.trace ++ readEvents s.par.crcPoly p good gs,
            env := envAfter s ds as } →
      NextFails true (2 * b.count + 3) u k →
      ∃ t, AfterFailure p (rdFrame b.addr b.count) u t ∧ exec i s = .next (aborted p (s.tel p).state k t)) ∧
    (∀ (rs : List Resp) (s1 s2 : State) (d : BitVec 3) (tr : List Event), Ready p s → Fits s.par.profile.telemBlocks rs →
      s1 = s.setTel p (commitTelemetry s.par (s.cfg p) (rs.map Resp.ws) (s.tel p)) →
      s2 = alerts p (i2t p (limits p (if c.alertClearReq then s1.setAlerts p 0 else s1))) →
      d = arbiter s.par.num (s2.tel p).swAlerts (s2.tel p).hw c (s2.tel p).voltage s.vbus (s.cfg p).prechgTol →
      tr = s.trace ++ readEvents s.par.crcPoly p s.par.profile.telemBlocks rs →
      (∀ ds as u, Script (respBytes s.par.crcPoly rs) ds as s →
        u = { s2 with
              sel := linesAfter s.par.profile.telemBlocks.length p s, trace := tr, env := envAfter s ds as } →
        NextFails false 4 u k →
        ∃ t, AfterFailure p (wrFrame s.par.crcPoly s.par.profile.mosfetCtrlAddr (d.zeroExtend 16)) u t ∧
          exec i s = .next (aborted p (s.tel p).state k t)) ∧
      (∀ ack ds as u w, ack.length = 4 → Script (respBytes s.par.crcPoly rs ++ [ack]) ds as s →
        (s2.tel p).hw.balElapsed = true → (∃ v ∈ (s2.tel p).cellV, (s.cfg p).balStartV ≤ v) →
        w = balPack s.par.profile (shuntMask s.par.num s.par.ncell (s.cfg p).balDiff (s2.tel p).cellV)
          s.par.profile.balDuration →
        u = { s2.setDrive p d with
              sel := selLines s.par.nsel p,
              trace := tr ++ transaction p (wrFrame s.par.crcPoly s.par.profile.mosfetCtrlAddr (d.zeroExtend 16)) ack,
              env := envAfter s ds as } →
        NextFails false 4 u k →
        ∃ t, AfterFailure p (wrFrame s.par.crcPoly w.addr w.value) u t ∧
          exec i s = .next (aborted p (s.tel p).state k t))) ∧
    (∀ t, exec i s = .next t → t.result = .aborted k →
      t.packs = s.packs ∨
      ∃ blocks s2, blocks.map List.length = s.par.profile.telemBlocks.map Burst.count ∧
        s2 = runStages p c (s.setTel p (commitTelemetry s.par (s.cfg p) blocks (s.tel p))) ∧
        (t.packs = s2.packs ∨ t.packs = (s2.setDrive p (runDrive p c s2)).packs))

/-- `ST_RUN` and `ST_RUNWARNING` are the run body (42_pack_supervisor.md R186, R187). -/
def Obligations.RunStatesShareTheBody : Prop :=
  ∀ (p : Nat) (c : Cmd) (s : State),
    exec (.stRun p c) s = exec (.runBody p c) s ∧ exec (.stRunwarning p c) s = exec (.runBody p c) s

/-- `NEXT_RUN_STATE` (42_pack_supervisor.md R191, decisions D35, D36). -/
def Obligations.NextRunStateRule : Prop :=
  ∀ (p : Nat) (s : State), Ready p s →
    ((s.pack p).sanityTrigger = true →
      exec (.nextRunState p) s = .next { s.setCode p codeSanityCheck with result := .done }) ∧
    ((s.pack p).sanityTrigger = false → (s.tel p).swAlerts &&& s.par.warnMask ≠ 0 →
      exec (.nextRunState p) s = .next { s.setCode p codeRunWarning with result := .done }) ∧
    ((s.pack p).sanityTrigger = false → (s.tel p).swAlerts &&& s.par.warnMask = 0 →
      exec (.nextRunState p) s = .next { s.setCode p codeRun with result := .done })

/-! ## The pack step -/

/-- `PACK_STEP` runs the one operation its state code selects, on the command record as it stands, and refuses the reserved
codes 14 and 15; on a pack that may run it ends in a next state (42_pack_supervisor.md R171; 30_encoding.md R104). -/
def Obligations.PackStepDispatch : Prop :=
  ∀ (p : Nat) (s : State), p < s.packs.length →
    (∀ i, decodeState p (s.cmd p) (s.tel p).state = .ok i → exec (.packStep p) s = exec i s) ∧
    (14 ≤ (s.tel p).state.toNat → exec (.packStep p) s = .refused (.reservedState (s.tel p).state)) ∧
    (Ready p s → (s.tel p).state = codeWaitDiag1 →
      exec (.packStep p) s = .next { s.setCode p codeDiag1 with result := .done }) ∧
    (Ready p s → (s.tel p).state.toNat ≤ 13 → ∃ t, exec (.packStep p) s = .next t)

/-- A pack step moves the state register only along the transition relation, or leaves it (10_state.md R23). -/
def Obligations.TransitionRelation : Prop :=
  ∀ (p : Nat) (s t : State), exec (.packStep p) s = .next t →
    (t.tel p).state = (s.tel p).state ∨ (t.tel p).state ∈ successors (s.tel p).state

/-- An operation of pack `p` changes its own telemetry record, the lock, the buffer, the lines, the trace and the model's own
fields: no other pack's record, no command, no configuration, no input, none of `cur`, `sync`, `shutdown`, `halted`
(60_exceptions.md R303, R320, R323). Only `WaitDiag0` and `Diag2` write the lock (10_state.md R40), only `Diag0` to `Diag2`
the buffer (R41), and the operations without a transaction leave the lines and the trace. -/
def Obligations.PackOpsServeTheirPack : Prop :=
  ∀ (p : Nat) (c : Cmd) (i : Instr) (s t : State), i ∈ packOps p c → exec i s = .next t →
    PackOnly p s t ∧
    (i ∉ [Instr.packStep p, .stWaitdiag0 p, .stDiag0 p, .stDiag1 p, .stDiag2 p] → TelOnly p s t) ∧
    (i ∈ [Instr.stDiag0 p, .stDiag1 p] → t.diagLock = s.diagLock) ∧
    (i = .stWaitdiag0 p → t.diagBuf = s.diagBuf) ∧
    (i = .packStep p →
      ((s.tel p).state ∉ [codeWaitDiag0, codeDiag2] → t.diagLock = s.diagLock) ∧
      ((s.tel p).state ∉ [codeDiag0, codeDiag1, codeDiag2] → t.diagBuf = s.diagBuf)) ∧
    (i ∈ [Instr.stDisabled p, .stWaitdiag0 p, .stWaitdiag1 p, .stWaitdiag2 p, .stError p c, .nextRunState p, .limits p,
        .i2t p, .alerts p] → t.sel = s.sel ∧ t.trace = s.trace)

/-- Every transfer of a pack's operation comes right after a successful select of that pack's own device, and goes to it; every
report names the pack (41_register_facade.md R150, R151; 70_reset_and_hazards.md R350). -/
def Obligations.PackOpsSelectFirst : Prop :=
  ∀ (p : Nat) (c : Cmd) (i : Instr) (s t : State), i ∈ packOps p c → Ready p s → exec i s = .next t →
    ∃ es, t.trace = s.trace ++ es ∧ OwnBus p false es

/-- Outside the three steady states a pack step writes no measurement, limit or accumulator, and drives no MOSFET on: the
commanded pattern stays or becomes 0, and, where no command write of the profile names the MOSFET control register, the only
value written there is 0, but for the user register list, which `ST_INIT` writes verbatim (70_reset_and_hazards.md R344,
R358; 10_state.md R25, R31, R32). -/
def Obligations.OnlySteadyStatesMeasureAndDrive : Prop :=
  ∀ (p : Nat) (s t : State), exec (.packStep p) s = .next t →
    (s.tel p).state ∉ [codeRun, codeRunWarning, codeSanityCheck] →
    (∃ code drive alerts,
      t.tel p = { s.tel p with state := code, mosfetDrive := drive, swAlerts := alerts }) ∧
    ((t.tel p).mosfetDrive = (s.tel p).mosfetDrive ∨ (t.tel p).mosfetDrive = 0) ∧
    ((∀ w ∈ commandWrites s.par.profile, w.addr ≠ s.par.profile.mosfetCtrlAddr) →
      ∃ es, t.trace = s.trace ++ es ∧ ∀ d v answer,
        Event.xfer d (wrFrame s.par.crcPoly s.par.profile.mosfetCtrlAddr v) answer ∈ es →
        v = 0 ∨ ((s.tel p).state = codeInit ∧ ⟨s.par.profile.mosfetCtrlAddr, v⟩ ∈ userList (s.cfg p).userRegs))

/-- With valid parameters and configuration no operation of a pack passes an argument out of range (60_exceptions.md R300,
which the spec derives). -/
def Obligations.NoBadArgumentFromPacks : Prop :=
  ∀ (p : Nat) (c : Cmd) (i : Instr) (s t : State), i ∈ packOps p c → Ready p s → exec i s = .next t →
    (t.result = .aborted .badArgument → s.result = .aborted .badArgument) ∧
    ∃ es, t.trace = s.trace ++ es ∧ ∀ q code, Event.report q code (.err .badArgument) ∉ es

/-- What another pack's record, command and configuration hold makes no difference to an operation of pack `p`
(60_exceptions.md R303, R323). -/
def Obligations.OtherPacksDoNotMatter : Prop :=
  ∀ (p q : Nat) (c : Cmd) (i : Instr) (k : Pack) (s t : State), i ∈ packOps p c → q ≠ p → exec i s = .next t →
    exec i { s with packs := s.packs.set q k } = .next { t with packs := t.packs.set q k }

/-- Where the operations of a pack stop, and that elsewhere each ends in a next state (00_scope.md R9, R19; 70_reset_and_hazards.md R343). The model's deduction, log 21: an index that is
no pack is refused, since 10_state.md R20 gives records to the packs alone. The model's choice, log 20: parameters and
configuration are looked at when an operation of the pack runs; and its deduction, which signs of ceilings are right. -/
def Obligations.PackOpsStopByName : Prop :=
  ∀ (p : Nat) (c : Cmd) (i : Instr) (s : State), i ∈ packOps p c →
    (s.packs.length ≤ p → exec i s = .refused (.noSuchPack p)) ∧
    (i ≠ .packStep p → i ≠ .stDisabled p → p < s.packs.length →
      (paramsValid s.par = false → exec i s = .refused .invalidParams) ∧
      (paramsValid s.par = true → configValid s.par (s.cfg p) = false → exec i s = .refused (.invalidConfig p)) ∧
      (paramsValid s.par = true → configValid s.par (s.cfg p) = true → ∃ t, exec i s = .next t))

/-! ## The pass -/

/-- `PASS` runs to its end from every state between passes: nothing when halted, halted when shutdown is seen first, else one
pass after which `sync` is 0 again (42_pack_supervisor.md R170). While a pass is under way it is refused
(70_reset_and_hazards.md R356 puts that outside the specified behaviour, and 93_implementation_defined.md U10 says refuse).
The model's choice: that the operation is the whole pass, step after step, and that `cur` is a value exactly during one
(log 8, 17), with the environment's batches between the steps (log 6). -/
def Obligations.PassCompletes : Prop :=
  ∀ s : State, StateWf s → ConfigsValid s →
    (s.cur ≠ none → exec .pass s = .refused .passOverrun) ∧
    (s.cur = none → s.halted = true → exec .pass s = .next s) ∧
    (s.cur = none → s.halted = false → s.shutdown = true → exec .pass s = .next { s with halted := true }) ∧
    (s.cur = none → ∃ t, exec .pass s = .next t ∧ t.cur = none ∧ t.sync = false)

/-- A pass is the steps of the sequencer one after another (00_scope.md R17; 42_pack_supervisor.md R170). The model's choice:
the grain of a step, which is the begin of a pass, the step of one pack or the end of a pass (log 8), and the environment
moving between two steps, as one batch (log 6). -/
def Obligations.PassRefinesSteps : Prop :=
  ∀ s t : State, s.request = none → exec .pass s = .next t → (passBegin s).cur ≠ none →
    ∃ n, n ≤ s.par.npack + 1 ∧ steps n (passBegin s) = .next t

/-! ## One step -/

/-- A step runs the decoded operation: the one a pending request stands for, or, at pack `p` of a pass, the one its state code
selects on the command record as sampled, after which the sequencer goes on to pack `p + 1` whatever the outcome
(42_pack_supervisor.md R170, R171; 60_exceptions.md R310). The model's choice: both clauses of a pending request, that it runs
before anything else and is refused where it is no coded request, rest on log 9 alone; that a step is the step of one pack on
log 8; and that the environment's batch, `envMove`, comes before it on log 6. -/
def Obligations.StepRunsDecoded : Prop :=
  ∀ s : State, paramsValid s.par = true →
    (∀ r i, s.request = some r → decodeRequest s.par.nsel r = .ok i → step s = exec i { s with request := none }) ∧
    (∀ r e, s.request = some r → decodeRequest s.par.nsel r = .error e → step s = .refused (.undecodable e)) ∧
    (∀ p i u, s.request = none → u = envMove s → u.cur = some p → p < u.par.npack → p < u.packs.length →
      ¬(0 < p ∧ u.shutdown = true) → (u.tel p).state ≠ codeDisabled →
      decodeState p (u.cmd p) (u.tel p).state = .ok i →
      step s = advance p (exec i u) ∧ ∀ t, exec i u = .next t → step s = .next { t with cur := some (p + 1) })

/-- Between passes a step changes no telemetry, no lock, no buffer, no line and emits nothing; at most it begins a pass or
halts. Halted stays halted. Between two packs a shutdown ends the pass and halts (20_memory.md R73; 60_exceptions.md R325;
42_pack_supervisor.md R170). The model's choice: that every step with no pass under way is a tick, which begins a pass
(log 8), and that the shutdown a step reads is the one the environment's batch before that step left, `envMove` (log 6). -/
def Obligations.QuietBetweenPasses : Prop :=
  ∀ s : State, paramsValid s.par = true → s.request = none →
    (s.cur = none → ∃ t, step s = .next t ∧ (∀ p, t.tel p = s.tel p) ∧ t.diagLock = s.diagLock ∧
      t.diagBuf = s.diagBuf ∧ t.sel = s.sel ∧ t.trace = s.trace ∧
      (s.halted = true → t.halted = true ∧ t.cur = none ∧ t.sync = s.sync) ∧
      (s.halted = false → (envMove s).shutdown = true → t.halted = true ∧ t.cur = none ∧ t.sync = s.sync) ∧
      (s.halted = false → (envMove s).shutdown = false → t.halted = false ∧ t.cur = some 0 ∧ t.sync = true)) ∧
    (∀ p, s.cur = some p → 0 < p → p < s.par.npack → (envMove s).shutdown = true →
      step s = .next { envMove s with halted := true, sync := false, cur := none }) ∧
    (∀ p, s.cur = some p → s.par.npack ≤ p → step s = .next { envMove s with sync := false, cur := none })

/-- No step changes a parameter, a configuration or the number of packs; the trace only grows; halted stays; and commands,
shutdown, bus voltage and triggers are as the environment left them (60_exceptions.md R320; 10_state.md R37, R39, R45,
R47; 70_reset_and_hazards.md R357). The model's choice: that the environment's writes land as one batch before the step,
`envMove`, while the spec lets it write at any moment (log 6), and that it writes nothing in a step that runs a pending
request (log 9). -/
def Obligations.StepKeepsWhatItMay : Prop :=
  ∀ s t : State, step s = .next t →
    t.par = s.par ∧ t.packs.length = s.packs.length ∧ (∀ p, t.cfg p = s.cfg p) ∧ s.trace <+: t.trace ∧
    (s.halted = true → t.halted = true) ∧
    (s.request = none → t.shutdown = (envMove s).shutdown ∧ t.vbus = (envMove s).vbus ∧
      ∀ p, t.cmd p = (envMove s).cmd p ∧ (t.pack p).sanityTrigger = ((envMove s).pack p).sanityTrigger) ∧
    (∀ r, s.request = some r → t.packs = s.packs ∧ t.shutdown = s.shutdown ∧ t.vbus = s.vbus)

/-! ## Invariants -/

/-- Every step keeps the lock with exactly the pack in diagnosis (10_state.md R40, which the spec derives). -/
def Obligations.LockInvKept : Prop :=
  ∀ s t : State, LockInv s → step s = .next t → LockInv t

/-- Every step keeps the state well formed: legal state codes, reserved alert bits and fields zero, arrays of their sizes,
`sync` exactly during a pass, no pass when halted (10_state.md R21, R22, R27, R28, R30, R38, R41, R42). -/
def Obligations.StateWfKept : Prop :=
  ∀ s t : State, StateWf s → step s = .next t → StateWf t

/-- With exact numerics every step keeps every I²t accumulator at or above 0 (10_state.md R32; 43_limits_thermal.md R225). -/
def Obligations.AccumulatorsStayNonneg : Prop :=
  ∀ s t : State, s.par.num = .exact → AccumulatorsNonneg s → step s = .next t → AccumulatorsNonneg t

/-- The state after reset, for any parameters and any loaded configuration: the values the spec gives, and the invariants
(10_state.md R46). The model's choice: that a pack the list of enabled packs does not reach counts as not enabled (log 1),
and that `State.reset` takes the reference parameters (log 1) and the reference configuration for every pack (log 2). -/
def Obligations.ResetValues : Prop :=
  ∀ (par : Params) (g : Nat → PackConfig) (s : State), s = State.resetWith par g →
    s.packs.length = par.npack ∧ s.cur = none ∧ s.sync = false ∧ s.shutdown = false ∧ s.halted = false ∧
    s.diagLock = none ∧ s.trace = [] ∧ (∀ k, s.sel.getD k false = false) ∧ LockInv s ∧ AccumulatorsNonneg s ∧
    (paramsValid par = true → StateWf s) ∧
    (∀ p, p < par.npack →
      (s.tel p).id = p ∧ (s.tel p).state = (if par.enabled.getD p false then codeWaitInit else codeDisabled) ∧
      (s.tel p).raw = par.profile.telemBlocks.map (fun b => List.replicate b.count 0) ∧
      (s.tel p).hw = {
        occ := false, ocd := false, sc := false, wdtOvf := false, extProt := false, reset := false, sleep := false,
        refAbn := false, muxAbn := false, railAbn := false, eepromAbn := false, clkAbn := false, dieOt := false,
        dieUt := false, ntcOt := false, ntcUt := false, commErr := false, auxRail := false, diagFault := false,
        packOv := false, packUv := false, anyCellOv := false, anyCellUv := false, cellMismatch := false,
        cellOv := List.replicate par.ncell false, cellUv := List.replicate par.ncell false, balElapsed := false,
        dsgOn := false, chgOn := false, pchgOn := false, pwrCode := 0 } ∧
      (s.tel p).swAlerts = 0 ∧ (s.tel p).capacity = 0 ∧ (s.tel p).health = 0 ∧ (s.tel p).cycles = 0 ∧
      (s.tel p).mosfetDrive = 0 ∧ (s.tel p).i2t = 0 ∧ (s.tel p).availChg = 0 ∧ (s.tel p).availDsg = 0 ∧
      (s.tel p).current = 0 ∧ (s.tel p).voltage = 0 ∧ (s.tel p).cellV = List.replicate par.ncell 0 ∧
      (s.tel p).ntc = ⟨0, 0, 0, 0⟩ ∧ (s.tel p).dieTemp = 0 ∧ (s.tel p).auxV = 0 ∧
      s.cmd p = ⟨false, false, false, false⟩ ∧ s.cfg p = g p) ∧
    State.reset = State.resetWith refParams fun _ => refConfig

/-! ## Limits and thermal model -/

/-- `LIMITS`: the base ceilings, full exactly when both MOSFET flags are set, clamped by the table entries at the index, never
raised above either, charge never below 0 and discharge never above it; with the reference reading of the discharge
index a valid table never gives the larger allowance (43_limits_thermal.md R221, R223, R224; 10_state.md R32). The signs are
those of a valid configuration (70_reset_and_hazards.md R343 (a), DEDUCED which, log 20). -/
def Obligations.LimitsClamp : Prop :=
  ∀ (p : Nat) (s : State) (g : PackConfig) (h : HwFlags) (ic idt : Nat) (chg dsg : Q), Ready p s → g = s.cfg p →
    h = (s.tel p).hw → ic = tableIndex g.table (fourMin (s.tel p).ntc) →
    idt = (if s.par.dsgIndexSrc = .tmin then ic else tableIndex g.table (fourMax (s.tel p).ntc)) →
    chg = (if h.chgOn = true ∧ h.dsgOn = true then g.chgCeilFull else g.chgCeilReduced) →
    dsg = (if h.chgOn = true ∧ h.dsgOn = true then g.dsgCeilFull else g.dsgCeilReduced) →
    ∃ availChg availDsg,
      exec (.limits p) s = .next
        { s.setTel p { s.tel p with availChg := availChg, availDsg := availDsg } with result := .done } ∧
      (availChg = chg ∨ availChg = (g.table.getD ic default).chg) ∧ availChg ≤ chg ∧
      availChg ≤ (g.table.getD ic default).chg ∧
      (availDsg = dsg ∨ availDsg = (g.table.getD idt default).dsg) ∧ dsg ≤ availDsg ∧
      (g.table.getD idt default).dsg ≤ availDsg ∧ 0 ≤ availChg ∧ availDsg ≤ 0 ∧
      (g.table.getD (tableIndex g.table (fourMax (s.tel p).ntc)) default).dsg ≤ (g.table.getD ic default).dsg

/-- The table index is the highest index above 0 whose threshold is at or below the temperature, and 0 where there is none;
`tmin` and `tmax` are the smallest and the largest of the four (43_limits_thermal.md R222). -/
def Obligations.TableIndexRule : Prop :=
  (∀ (table : List TableEntry) (t : Q) (i : Nat), i = tableIndex table t →
    (i = 0 ∨ (i < table.length ∧ (table.getD i default).temp ≤ t)) ∧
    ∀ j, i < j → j < table.length → t < (table.getD j default).temp) ∧
  ∀ f : Four Q,
    (fourMin f ∈ [f.t0, f.t1, f.t2, f.t3] ∧ ∀ x ∈ [f.t0, f.t1, f.t2, f.t3], fourMin f ≤ x) ∧
    (fourMax f ∈ [f.t0, f.t1, f.t2, f.t3] ∧ ∀ x ∈ [f.t0, f.t1, f.t2, f.t3], x ≤ fourMax f)

/-- `I2T`: heating while precharge is engaged without full conduction, else decay by the configured amount, floored at 0; the
products left to right (43_limits_thermal.md R225, R226). -/
def Obligations.I2tRule : Prop :=
  ∀ (p : Nat) (s : State) (h : HwFlags) (x i : Q), Ready p s → h = (s.tel p).hw → x = (s.tel p).i2t →
    i = (s.tel p).current →
    (h.pchgOn = true → ¬(h.chgOn = true ∧ h.dsgOn = true) → exec (.i2t p) s = .next { s.setTel p { s.tel p with
      i2t := numAdd s.par.num x (numMul s.par.num (numMul s.par.num i i) s.par.cycleS) } with result := .done }) ∧
    (¬(h.pchgOn = true ∧ ¬(h.chgOn = true ∧ h.dsgOn = true)) → ∃ y, exec (.i2t p) s =
      .next { s.setTel p { s.tel p with i2t := y } with result := .done } ∧ 0 ≤ y ∧
      (y = 0 ∨ y = numSub s.par.num x (s.cfg p).i2tDecay) ∧ numSub s.par.num x (s.cfg p).i2tDecay ≤ y) ∧
    (s.par.num = .exact → ∀ a b, numAdd s.par.num a b = a + b ∧ numSub s.par.num a b = a - b ∧
      numMul s.par.num a b = a * b)

/-! ## Alerts -/

/-- `ALERTS`, the two copied bits and the eleven direct hardware latches (44_alert_aggregator.md R241, R242). -/
def Obligations.AlertCopiesAndLatches : Prop :=
  ∀ (p : Nat) (s : State) (old : BitVec 32) (h : HwFlags), Ready p s → old = (s.tel p).swAlerts → h = (s.tel p).hw →
    ∃ a : BitVec 32, exec (.alerts p) s = .next { s.setTel p { s.tel p with swAlerts := a } with result := .done } ∧
      a.getLsbD 0 = h.occ ∧ a.getLsbD 1 = h.ocd ∧
      a.getLsbD 4 = (old.getLsbD 4 || h.sc) ∧
      a.getLsbD 6 = (old.getLsbD 6 || h.dieOt) ∧
      a.getLsbD 7 = (old.getLsbD 7 || h.dieUt) ∧
      a.getLsbD 8 = (old.getLsbD 8 || h.ntcOt) ∧
      a.getLsbD 9 = (old.getLsbD 9 || h.ntcUt) ∧
      a.getLsbD 13 = (old.getLsbD 13 || h.commErr) ∧
      a.getLsbD 15 = (old.getLsbD 15 || h.packOv) ∧
      a.getLsbD 16 = (old.getLsbD 16 || h.anyCellOv) ∧
      a.getLsbD 17 = (old.getLsbD 17 || h.packUv) ∧
      a.getLsbD 18 = (old.getLsbD 18 || h.anyCellUv) ∧
      a.getLsbD 19 = (old.getLsbD 19 || h.cellMismatch)

/-- `ALERTS`, the grouped and the derived latches (44_alert_aggregator.md R243 to R246 with decisions D15 to D18). The model's
deduction, log 29: the reserved bits 31:22 stay as they were for any old value, since R240 starts from the previous field and
no rule writes them; 10_state.md R30 has them 0 in every state CORE reaches. -/
def Obligations.AlertDerivedLatches : Prop :=
  ∀ (p : Nat) (s : State) (old : BitVec 32) (t : Telemetry) (g : PackConfig), Ready p s → t = s.tel p → g = s.cfg p →
    old = t.swAlerts →
    ∃ a : BitVec 32, exec (.alerts p) s = .next { s.setTel p { t with swAlerts := a } with result := .done } ∧
      a.getLsbD 5 = (old.getLsbD 5 || [t.hw.wdtOvf, t.hw.extProt, t.hw.reset, t.hw.sleep, t.hw.refAbn, t.hw.muxAbn,
        t.hw.railAbn, t.hw.eepromAbn, t.hw.clkAbn].any id) ∧
      a.getLsbD 14 = (old.getLsbD 14 || t.hw.auxRail || t.hw.diagFault) ∧
      a.getLsbD 2 = (old.getLsbD 2 || decide (t.availChg < t.current)) ∧
      a.getLsbD 3 = (old.getLsbD 3 || decide (t.current < t.availDsg)) ∧
      a.getLsbD 10 = (old.getLsbD 10 || decide ((g.table.getD (s.par.k - 1) default).temp < fourMax t.ntc)) ∧
      a.getLsbD 11 = (old.getLsbD 11 || decide (fourMin t.ntc < (g.table.getD 0 default).temp)) ∧
      a.getLsbD 20 = (old.getLsbD 20 || decide (g.i2tCeiling < t.i2t)) ∧
      a.getLsbD 12 = (old.getLsbD 12 || tempMismatch s.par t g) ∧
      a.getLsbD 21 = (old.getLsbD 21 || currAbnormal s.par t g) ∧
      ∀ n, 22 ≤ n → a.getLsbD n = old.getLsbD n

/-! ## Arbiter -/

/-- The error terms bit by bit and as the three masks, which are disjoint and cover bits 21:0; and the permissions
(45_mosfet_arbiter.md R261, R262). -/
def Obligations.ErrorTermsAndPermissions : Prop :=
  (∀ a : BitVec 32,
    errorAll a = [4, 5, 6, 7, 8, 9, 10, 11, 12, 13, 14, 19, 20, 21].any a.getLsbD ∧
    errorCharge a = [0, 2, 15, 16].any a.getLsbD ∧
    errorDischarge a = [1, 3, 17, 18].any a.getLsbD ∧
    errorAll a = (a &&& 0x00387FF0 != 0) ∧ errorCharge a = (a &&& 0x00018005 != 0) ∧
    errorDischarge a = (a &&& 0x0006000A != 0)) ∧
  ((0x00387FF0 : BitVec 32) &&& 0x00018005 = 0 ∧ (0x00387FF0 : BitVec 32) &&& 0x0006000A = 0 ∧
    (0x00018005 : BitVec 32) &&& 0x0006000A = 0 ∧
    (0x00387FF0 : BitVec 32) ||| 0x00018005 ||| 0x0006000A = 0x003FFFFF) ∧
  ∀ (a : BitVec 32) (c : Cmd),
    (allowCharge a c = true ↔ c.chargeEnable = true ∧ ¬(errorAll a = true ∨ errorCharge a = true)) ∧
    (allowDischarge a c = true ↔ c.dischargeEnable = true ∧ ¬(errorAll a = true ∨ errorDischarge a = true))

/-- `ARBITER` gives the pattern of the truth table and writes no state; a contact is driven only where its direction is allowed,
and `errorAll` forces every contact off (45_mosfet_arbiter.md R260, R263, R265). -/
def Obligations.ArbiterTruthTable : Prop :=
  ∀ (a : BitVec 32) (h : HwFlags) (c : Cmd) (vpack vb tol : Q) (s : State) (pre : Bool),
    pre = (h.pchgOn && decide (qAbs (numSub s.par.num vpack vb) ≤ tol)) →
    ∃ d : BitVec 3, exec (.arbiter a h c vpack vb tol) s = .next (s.setResult (.drive d)) ∧
      d = driveTable (allowDischarge a c) (allowCharge a c) h.dsgOn h.chgOn pre ∧
      (d.getLsbD 0 = true → allowDischarge a c = true) ∧ (d.getLsbD 1 = true → allowCharge a c = true) ∧
      (d.getLsbD 2 = true →
        (allowDischarge a c = true ∧ h.dsgOn = false) ∨ (allowCharge a c = true ∧ h.chgOn = false)) ∧
      (errorAll a = true → d = 0)

/-! ## Wire-break comparator and balancer -/

/-- `DIAG_EVAL` fails exactly when some cell's neutral and pull-down samples differ by at least the threshold, writes no state,
and does not look at the pull-up snapshot (46_diag_balancer.md R281). The difference is taken without its sign: `qAbs`, which
the verdict of `ST_DIAG2` and the arbiter's precharge test (45_mosfet_arbiter.md R263) use too, is the absolute value. -/
def Obligations.DiagEvalRule : Prop :=
  (∀ a : Q, qAbs a = |a|) ∧
  ∀ (buf : List Q) (thr : Q) (s : State),
    ∃ pass, exec (.diagEval buf thr) s = .next (s.setResult (.verdict pass)) ∧
      (pass = false ↔ ∃ i, i < s.par.ncell ∧
        thr ≤ qAbs (numSub s.par.num (buf.getD i 0) (buf.getD (2 * s.par.ncell + i) 0))) ∧
      ∀ buf2 : List Q, (∀ j, j < s.par.ncell ∨ 2 * s.par.ncell ≤ j → buf2.getD j 0 = buf.getD j 0) →
        exec (.diagEval buf2 thr) s = exec (.diagEval buf thr) s

/-- `BALANCE` selects the cells above the mean by more than the differential, writes mask and duration in one transaction, also
when no cell is selected, and gives whether one was (46_diag_balancer.md R286). The sum is left to right over every cell;
with exact numerics sum and division are the rational ones (R287). -/
def Obligations.BalanceRule : Prop :=
  (∀ (num : NumSel) (v : Q) (vs : List Q), numSum num [v] = v ∧
    (vs ≠ [] → numSum num (vs ++ [v]) = numAdd num (numSum num vs) v)) ∧
  (∀ (vs : List Q) (a b : Q) (n : Nat),
    numSum .exact vs = vs.sum ∧ numAdd .exact a b = a + b ∧ numDiv .exact a n = a / n) ∧
  ∀ (p : Nat) (s : State) (ds : List Bool) (as : List BusAnswer) (ack : List Byte) (mean : Q) (mask : List Bool)
    (w : RegWrite), Ready p s → (s.tel p).cellV.length = s.par.ncell → ack.length = 4 → Script [ack] ds as s →
    mean = numDiv s.par.num (numSum s.par.num (s.tel p).cellV) s.par.ncell →
    mask = (s.tel p).cellV.map (fun v => decide (numAdd s.par.num mean (s.cfg p).balDiff < v)) →
    w = balPack s.par.profile mask s.par.profile.balDuration →
    exec (.balance p) s = .next { s with
      sel := selLines s.par.nsel p, trace := s.trace ++ transaction p (wrFrame s.par.crcPoly w.addr w.value) ack,
      env := envAfter s ds as, result := .bool (mask.any id) }

/-! ## Reference forms and codes -/

/-- The reference forms, bit by bit and word by word: the flags, measurements and power code REF-AFE reads, its packing of
mask and duration where both fit, and the six formulas of the reference `CONV` (20_memory.md R70; 41_register_facade.md R157,
R159). -/
def Obligations.ReferenceForms : Prop :=
  (∀ r c : List Word,
    decodeHw refParams [r, c] = {
      wdtOvf := (r.getD 0 0).getLsbD 4, extProt := (r.getD 0 0).getLsbD 5, reset := (r.getD 0 0).getLsbD 6,
      sleep := (r.getD 0 0).getLsbD 7, refAbn := (r.getD 0 0).getLsbD 8, muxAbn := (r.getD 0 0).getLsbD 9,
      railAbn := (r.getD 0 0).getLsbD 10, eepromAbn := (r.getD 0 0).getLsbD 11, clkAbn := (r.getD 0 0).getLsbD 12,
      occ := (r.getD 1 0).getLsbD 0, ocd := (r.getD 1 0).getLsbD 1, sc := (r.getD 1 0).getLsbD 2,
      dieOt := (r.getD 1 0).getLsbD 3, dieUt := (r.getD 1 0).getLsbD 4, ntcOt := (r.getD 1 0).getLsbD 5,
      ntcUt := (r.getD 1 0).getLsbD 6, commErr := (r.getD 1 0).getLsbD 7, packOv := (r.getD 1 0).getLsbD 8,
      packUv := (r.getD 1 0).getLsbD 9, anyCellOv := (r.getD 1 0).getLsbD 10, anyCellUv := (r.getD 1 0).getLsbD 11,
      cellMismatch := (r.getD 1 0).getLsbD 12,
      cellOv := [(r.getD 3 0).getLsbD 0, (r.getD 3 0).getLsbD 1, (r.getD 3 0).getLsbD 2, (r.getD 3 0).getLsbD 3],
      cellUv := [(r.getD 4 0).getLsbD 0, (r.getD 4 0).getLsbD 1, (r.getD 4 0).getLsbD 2, (r.getD 4 0).getLsbD 3],
      auxRail := (r.getD 5 0).getLsbD 0, diagFault := (r.getD 5 0).getLsbD 1, dsgOn := (r.getD 6 0).getLsbD 0,
      chgOn := (r.getD 6 0).getLsbD 1, pchgOn := (r.getD 6 0).getLsbD 2, balElapsed := (r.getD 7 0).getLsbD 0,
      pwrCode := (r.getD 0 0).toNat % 16 } ∧
    (rawMeas refAfe [r, c]).packV = r.getD 8 0 ∧ (rawMeas refAfe [r, c]).auxV = r.getD 9 0 ∧
    (rawMeas refAfe [r, c]).dieT = r.getD 10 0 ∧
    (rawMeas refAfe [r, c]).ntc = ⟨r.getD 11 0, r.getD 12 0, r.getD 13 0, r.getD 14 0⟩ ∧
    (rawMeas refAfe [r, c]).current = r.getD 15 0 ∧
    ∀ i, i < 4 → (rawMeas refAfe [r, c]).cell i = c.getD i 0 ∧ cellsOf refAfe c i = c.getD i 0) ∧
  (∀ w, pwrCodeOf refAfe w = w.toNat % 16) ∧
  (∀ mask d, mask.length ≤ 8 → d < 256 → (balPack refAfe mask d).addr = 0x21 ∧ ∀ n, n < 16 →
    (balPack refAfe mask d).value.getLsbD n = if n < 8 then mask.getD n false else d.testBit (n - 8)) ∧
  ∀ (w : Word) (cal : Cal),
    conv .reference .current w cal = w.toInt * cal.iScale ∧ conv .reference .packV w cal = w.toNat * cal.vScale ∧
    conv .reference .auxV w cal = w.toNat * cal.auxScale ∧ conv .reference .dieT w cal = w.toInt * cal.dieScale ∧
    conv .reference .cellV w cal = w.toNat * cal.cellScale ∧
    conv .reference .ntc w cal =
      ((List.range cal.ntcCoef.length).map fun k => cal.ntcCoef.getD k 0 * (w.toInt : Q) ^ k).sum

/-- The codes of the error kinds and of the pack faults, all different (60_exceptions.md R300, R301; 92_eei_decisions.md
D9), and the fourteen state codes (10_state.md R22). -/
def Obligations.ErrorCodes : Prop :=
  ErrKind.badArgument.code = 1 ∧ ErrKind.transport.code = 2 ∧ ErrKind.crc.code = 3 ∧
  ReportKind.configFault.code = 4 ∧ ReportKind.diagFault.code = 5 ∧ (∀ k, (ReportKind.err k).code = k.code) ∧
  (∀ j k : ReportKind, j.code = k.code → j = k) ∧
  codeDisabled = 0 ∧ codeWaitInit = 1 ∧ codeInit = 2 ∧ codeWaitDiag0 = 3 ∧ codeDiag0 = 4 ∧ codeWaitDiag1 = 5 ∧
  codeDiag1 = 6 ∧ codeWaitDiag2 = 7 ∧ codeDiag2 = 8 ∧ codeConfig = 9 ∧ codeRun = 10 ∧ codeRunWarning = 11 ∧
  codeSanityCheck = 12 ∧ codeError = 13
end

