-- ==== Sys2Proof/Laws/State.lean ====
section
/-! SUPPORT. One lemma per field per update of State, and reading a pack after writing one. -/

namespace Sys2Proof.Machine

/-! ## emit -/

@[simp] theorem State.emit_par (s : State) (e : Event) : (s.emit e).par = s.par := rfl
@[simp] theorem State.emit_packs (s : State) (e : Event) : (s.emit e).packs = s.packs := rfl
@[simp] theorem State.emit_cur (s : State) (e : Event) : (s.emit e).cur = s.cur := rfl
@[simp] theorem State.emit_sync (s : State) (e : Event) : (s.emit e).sync = s.sync := rfl
@[simp] theorem State.emit_shutdown (s : State) (e : Event) : (s.emit e).shutdown = s.shutdown := rfl
@[simp] theorem State.emit_halted (s : State) (e : Event) : (s.emit e).halted = s.halted := rfl
@[simp] theorem State.emit_diagLock (s : State) (e : Event) : (s.emit e).diagLock = s.diagLock := rfl
@[simp] theorem State.emit_diagBuf (s : State) (e : Event) : (s.emit e).diagBuf = s.diagBuf := rfl
@[simp] theorem State.emit_sel (s : State) (e : Event) : (s.emit e).sel = s.sel := rfl
@[simp] theorem State.emit_vbus (s : State) (e : Event) : (s.emit e).vbus = s.vbus := rfl
@[simp] theorem State.emit_trace (s : State) (e : Event) : (s.emit e).trace = s.trace ++ [e] := rfl
@[simp] theorem State.emit_env (s : State) (e : Event) : (s.emit e).env = s.env := rfl
@[simp] theorem State.emit_request (s : State) (e : Event) : (s.emit e).request = s.request := rfl
@[simp] theorem State.emit_result (s : State) (e : Event) : (s.emit e).result = s.result := rfl

/-! ## setResult -/

@[simp] theorem State.setResult_par (s : State) (r : OpResult) : (s.setResult r).par = s.par := rfl
@[simp] theorem State.setResult_packs (s : State) (r : OpResult) : (s.setResult r).packs = s.packs := rfl
@[simp] theorem State.setResult_cur (s : State) (r : OpResult) : (s.setResult r).cur = s.cur := rfl
@[simp] theorem State.setResult_sync (s : State) (r : OpResult) : (s.setResult r).sync = s.sync := rfl
@[simp] theorem State.setResult_shutdown (s : State) (r : OpResult) : (s.setResult r).shutdown = s.shutdown := rfl
@[simp] theorem State.setResult_halted (s : State) (r : OpResult) : (s.setResult r).halted = s.halted := rfl
@[simp] theorem State.setResult_diagLock (s : State) (r : OpResult) : (s.setResult r).diagLock = s.diagLock := rfl
@[simp] theorem State.setResult_diagBuf (s : State) (r : OpResult) : (s.setResult r).diagBuf = s.diagBuf := rfl
@[simp] theorem State.setResult_sel (s : State) (r : OpResult) : (s.setResult r).sel = s.sel := rfl
@[simp] theorem State.setResult_vbus (s : State) (r : OpResult) : (s.setResult r).vbus = s.vbus := rfl
@[simp] theorem State.setResult_trace (s : State) (r : OpResult) : (s.setResult r).trace = s.trace := rfl
@[simp] theorem State.setResult_env (s : State) (r : OpResult) : (s.setResult r).env = s.env := rfl
@[simp] theorem State.setResult_request (s : State) (r : OpResult) : (s.setResult r).request = s.request := rfl
@[simp] theorem State.setResult_result (s : State) (r : OpResult) : (s.setResult r).result = r := rfl

/-! ## draw -/

@[simp] theorem State.draw_par (s : State) : (s.draw).par = s.par := rfl
@[simp] theorem State.draw_packs (s : State) : (s.draw).packs = s.packs := rfl
@[simp] theorem State.draw_cur (s : State) : (s.draw).cur = s.cur := rfl
@[simp] theorem State.draw_sync (s : State) : (s.draw).sync = s.sync := rfl
@[simp] theorem State.draw_shutdown (s : State) : (s.draw).shutdown = s.shutdown := rfl
@[simp] theorem State.draw_halted (s : State) : (s.draw).halted = s.halted := rfl
@[simp] theorem State.draw_diagLock (s : State) : (s.draw).diagLock = s.diagLock := rfl
@[simp] theorem State.draw_diagBuf (s : State) : (s.draw).diagBuf = s.diagBuf := rfl
@[simp] theorem State.draw_sel (s : State) : (s.draw).sel = s.sel := rfl
@[simp] theorem State.draw_vbus (s : State) : (s.draw).vbus = s.vbus := rfl
@[simp] theorem State.draw_trace (s : State) : (s.draw).trace = s.trace := rfl
@[simp] theorem State.draw_env (s : State) : (s.draw).env = { s.env with draws := s.env.draws + 1 } := rfl
@[simp] theorem State.draw_request (s : State) : (s.draw).request = s.request := rfl
@[simp] theorem State.draw_result (s : State) : (s.draw).result = s.result := rfl

/-! ## setTel -/

@[simp] theorem State.setTel_par (s : State) (p : Nat) (t : Telemetry) : (s.setTel p t).par = s.par := rfl
@[simp] theorem State.setTel_packs (s : State) (p : Nat) (t : Telemetry) : (s.setTel p t).packs = s.packs.set p { s.pack p with tel := t } := rfl
@[simp] theorem State.setTel_cur (s : State) (p : Nat) (t : Telemetry) : (s.setTel p t).cur = s.cur := rfl
@[simp] theorem State.setTel_sync (s : State) (p : Nat) (t : Telemetry) : (s.setTel p t).sync = s.sync := rfl
@[simp] theorem State.setTel_shutdown (s : State) (p : Nat) (t : Telemetry) : (s.setTel p t).shutdown = s.shutdown := rfl
@[simp] theorem State.setTel_halted (s : State) (p : Nat) (t : Telemetry) : (s.setTel p t).halted = s.halted := rfl
@[simp] theorem State.setTel_diagLock (s : State) (p : Nat) (t : Telemetry) : (s.setTel p t).diagLock = s.diagLock := rfl
@[simp] theorem State.setTel_diagBuf (s : State) (p : Nat) (t : Telemetry) : (s.setTel p t).diagBuf = s.diagBuf := rfl
@[simp] theorem State.setTel_sel (s : State) (p : Nat) (t : Telemetry) : (s.setTel p t).sel = s.sel := rfl
@[simp] theorem State.setTel_vbus (s : State) (p : Nat) (t : Telemetry) : (s.setTel p t).vbus = s.vbus := rfl
@[simp] theorem State.setTel_trace (s : State) (p : Nat) (t : Telemetry) : (s.setTel p t).trace = s.trace := rfl
@[simp] theorem State.setTel_env (s : State) (p : Nat) (t : Telemetry) : (s.setTel p t).env = s.env := rfl
@[simp] theorem State.setTel_request (s : State) (p : Nat) (t : Telemetry) : (s.setTel p t).request = s.request := rfl
@[simp] theorem State.setTel_result (s : State) (p : Nat) (t : Telemetry) : (s.setTel p t).result = s.result := rfl

/-! ## setCode -/

@[simp] theorem State.setCode_par (s : State) (p : Nat) (c : BitVec 4) : (s.setCode p c).par = s.par := rfl
@[simp] theorem State.setCode_packs (s : State) (p : Nat) (c : BitVec 4) : (s.setCode p c).packs = s.packs.set p { s.pack p with tel := { s.tel p with state := c } } := rfl
@[simp] theorem State.setCode_cur (s : State) (p : Nat) (c : BitVec 4) : (s.setCode p c).cur = s.cur := rfl
@[simp] theorem State.setCode_sync (s : State) (p : Nat) (c : BitVec 4) : (s.setCode p c).sync = s.sync := rfl
@[simp] theorem State.setCode_shutdown (s : State) (p : Nat) (c : BitVec 4) : (s.setCode p c).shutdown = s.shutdown := rfl
@[simp] theorem State.setCode_halted (s : State) (p : Nat) (c : BitVec 4) : (s.setCode p c).halted = s.halted := rfl
@[simp] theorem State.setCode_diagLock (s : State) (p : Nat) (c : BitVec 4) : (s.setCode p c).diagLock = s.diagLock := rfl
@[simp] theorem State.setCode_diagBuf (s : State) (p : Nat) (c : BitVec 4) : (s.setCode p c).diagBuf = s.diagBuf := rfl
@[simp] theorem State.setCode_sel (s : State) (p : Nat) (c : BitVec 4) : (s.setCode p c).sel = s.sel := rfl
@[simp] theorem State.setCode_vbus (s : State) (p : Nat) (c : BitVec 4) : (s.setCode p c).vbus = s.vbus := rfl
@[simp] theorem State.setCode_trace (s : State) (p : Nat) (c : BitVec 4) : (s.setCode p c).trace = s.trace := rfl
@[simp] theorem State.setCode_env (s : State) (p : Nat) (c : BitVec 4) : (s.setCode p c).env = s.env := rfl
@[simp] theorem State.setCode_request (s : State) (p : Nat) (c : BitVec 4) : (s.setCode p c).request = s.request := rfl
@[simp] theorem State.setCode_result (s : State) (p : Nat) (c : BitVec 4) : (s.setCode p c).result = s.result := rfl

/-! ## setAlerts -/

@[simp] theorem State.setAlerts_par (s : State) (p : Nat) (a : BitVec 32) : (s.setAlerts p a).par = s.par := rfl
@[simp] theorem State.setAlerts_packs (s : State) (p : Nat) (a : BitVec 32) : (s.setAlerts p a).packs = s.packs.set p { s.pack p with tel := { s.tel p with swAlerts := a } } := rfl
@[simp] theorem State.setAlerts_cur (s : State) (p : Nat) (a : BitVec 32) : (s.setAlerts p a).cur = s.cur := rfl
@[simp] theorem State.setAlerts_sync (s : State) (p : Nat) (a : BitVec 32) : (s.setAlerts p a).sync = s.sync := rfl
@[simp] theorem State.setAlerts_shutdown (s : State) (p : Nat) (a : BitVec 32) : (s.setAlerts p a).shutdown = s.shutdown := rfl
@[simp] theorem State.setAlerts_halted (s : State) (p : Nat) (a : BitVec 32) : (s.setAlerts p a).halted = s.halted := rfl
@[simp] theorem State.setAlerts_diagLock (s : State) (p : Nat) (a : BitVec 32) : (s.setAlerts p a).diagLock = s.diagLock := rfl
@[simp] theorem State.setAlerts_diagBuf (s : State) (p : Nat) (a : BitVec 32) : (s.setAlerts p a).diagBuf = s.diagBuf := rfl
@[simp] theorem State.setAlerts_sel (s : State) (p : Nat) (a : BitVec 32) : (s.setAlerts p a).sel = s.sel := rfl
@[simp] theorem State.setAlerts_vbus (s : State) (p : Nat) (a : BitVec 32) : (s.setAlerts p a).vbus = s.vbus := rfl
@[simp] theorem State.setAlerts_trace (s : State) (p : Nat) (a : BitVec 32) : (s.setAlerts p a).trace = s.trace := rfl
@[simp] theorem State.setAlerts_env (s : State) (p : Nat) (a : BitVec 32) : (s.setAlerts p a).env = s.env := rfl
@[simp] theorem State.setAlerts_request (s : State) (p : Nat) (a : BitVec 32) : (s.setAlerts p a).request = s.request := rfl
@[simp] theorem State.setAlerts_result (s : State) (p : Nat) (a : BitVec 32) : (s.setAlerts p a).result = s.result := rfl

/-! ## setDrive -/

@[simp] theorem State.setDrive_par (s : State) (p : Nat) (d : BitVec 3) : (s.setDrive p d).par = s.par := rfl
@[simp] theorem State.setDrive_packs (s : State) (p : Nat) (d : BitVec 3) : (s.setDrive p d).packs = s.packs.set p { s.pack p with tel := { s.tel p with mosfetDrive := d } } := rfl
@[simp] theorem State.setDrive_cur (s : State) (p : Nat) (d : BitVec 3) : (s.setDrive p d).cur = s.cur := rfl
@[simp] theorem State.setDrive_sync (s : State) (p : Nat) (d : BitVec 3) : (s.setDrive p d).sync = s.sync := rfl
@[simp] theorem State.setDrive_shutdown (s : State) (p : Nat) (d : BitVec 3) : (s.setDrive p d).shutdown = s.shutdown := rfl
@[simp] theorem State.setDrive_halted (s : State) (p : Nat) (d : BitVec 3) : (s.setDrive p d).halted = s.halted := rfl
@[simp] theorem State.setDrive_diagLock (s : State) (p : Nat) (d : BitVec 3) : (s.setDrive p d).diagLock = s.diagLock := rfl
@[simp] theorem State.setDrive_diagBuf (s : State) (p : Nat) (d : BitVec 3) : (s.setDrive p d).diagBuf = s.diagBuf := rfl
@[simp] theorem State.setDrive_sel (s : State) (p : Nat) (d : BitVec 3) : (s.setDrive p d).sel = s.sel := rfl
@[simp] theorem State.setDrive_vbus (s : State) (p : Nat) (d : BitVec 3) : (s.setDrive p d).vbus = s.vbus := rfl
@[simp] theorem State.setDrive_trace (s : State) (p : Nat) (d : BitVec 3) : (s.setDrive p d).trace = s.trace := rfl
@[simp] theorem State.setDrive_env (s : State) (p : Nat) (d : BitVec 3) : (s.setDrive p d).env = s.env := rfl
@[simp] theorem State.setDrive_request (s : State) (p : Nat) (d : BitVec 3) : (s.setDrive p d).request = s.request := rfl
@[simp] theorem State.setDrive_result (s : State) (p : Nat) (d : BitVec 3) : (s.setDrive p d).result = s.result := rfl

/-! ## storeSamples -/

@[simp] theorem State.storeSamples_par (s : State) (k : Nat) (v : List Q) : (storeSamples k v s).par = s.par := rfl
@[simp] theorem State.storeSamples_packs (s : State) (k : Nat) (v : List Q) : (storeSamples k v s).packs = s.packs := rfl
@[simp] theorem State.storeSamples_cur (s : State) (k : Nat) (v : List Q) : (storeSamples k v s).cur = s.cur := rfl
@[simp] theorem State.storeSamples_sync (s : State) (k : Nat) (v : List Q) : (storeSamples k v s).sync = s.sync := rfl
@[simp] theorem State.storeSamples_shutdown (s : State) (k : Nat) (v : List Q) : (storeSamples k v s).shutdown = s.shutdown := rfl
@[simp] theorem State.storeSamples_halted (s : State) (k : Nat) (v : List Q) : (storeSamples k v s).halted = s.halted := rfl
@[simp] theorem State.storeSamples_diagLock (s : State) (k : Nat) (v : List Q) : (storeSamples k v s).diagLock = s.diagLock := rfl
@[simp] theorem State.storeSamples_diagBuf (s : State) (k : Nat) (v : List Q) : (storeSamples k v s).diagBuf = writeSamples s.par.ncell k v s.diagBuf := rfl
@[simp] theorem State.storeSamples_sel (s : State) (k : Nat) (v : List Q) : (storeSamples k v s).sel = s.sel := rfl
@[simp] theorem State.storeSamples_vbus (s : State) (k : Nat) (v : List Q) : (storeSamples k v s).vbus = s.vbus := rfl
@[simp] theorem State.storeSamples_trace (s : State) (k : Nat) (v : List Q) : (storeSamples k v s).trace = s.trace := rfl
@[simp] theorem State.storeSamples_env (s : State) (k : Nat) (v : List Q) : (storeSamples k v s).env = s.env := rfl
@[simp] theorem State.storeSamples_request (s : State) (k : Nat) (v : List Q) : (storeSamples k v s).request = s.request := rfl
@[simp] theorem State.storeSamples_result (s : State) (k : Nat) (v : List Q) : (storeSamples k v s).result = s.result := rfl

/-! ## freeDiagBuf -/

@[simp] theorem State.freeDiagBuf_par (s : State) : (freeDiagBuf s).par = s.par := rfl
@[simp] theorem State.freeDiagBuf_packs (s : State) : (freeDiagBuf s).packs = s.packs := rfl
@[simp] theorem State.freeDiagBuf_cur (s : State) : (freeDiagBuf s).cur = s.cur := rfl
@[simp] theorem State.freeDiagBuf_sync (s : State) : (freeDiagBuf s).sync = s.sync := rfl
@[simp] theorem State.freeDiagBuf_shutdown (s : State) : (freeDiagBuf s).shutdown = s.shutdown := rfl
@[simp] theorem State.freeDiagBuf_halted (s : State) : (freeDiagBuf s).halted = s.halted := rfl
@[simp] theorem State.freeDiagBuf_diagLock (s : State) : (freeDiagBuf s).diagLock = s.diagLock := rfl
@[simp] theorem State.freeDiagBuf_diagBuf (s : State) : (freeDiagBuf s).diagBuf = (List.range (3 * s.par.ncell)).map (Config.freeSample s.env.draws) := rfl
@[simp] theorem State.freeDiagBuf_sel (s : State) : (freeDiagBuf s).sel = s.sel := rfl
@[simp] theorem State.freeDiagBuf_vbus (s : State) : (freeDiagBuf s).vbus = s.vbus := rfl
@[simp] theorem State.freeDiagBuf_trace (s : State) : (freeDiagBuf s).trace = s.trace := rfl
@[simp] theorem State.freeDiagBuf_env (s : State) : (freeDiagBuf s).env = { s.env with draws := s.env.draws + 1 } := rfl
@[simp] theorem State.freeDiagBuf_request (s : State) : (freeDiagBuf s).request = s.request := rfl
@[simp] theorem State.freeDiagBuf_result (s : State) : (freeDiagBuf s).result = s.result := rfl

/-! ## freeSel -/

@[simp] theorem State.freeSel_par (s : State) : (freeSel s).par = s.par := rfl
@[simp] theorem State.freeSel_packs (s : State) : (freeSel s).packs = s.packs := rfl
@[simp] theorem State.freeSel_cur (s : State) : (freeSel s).cur = s.cur := rfl
@[simp] theorem State.freeSel_sync (s : State) : (freeSel s).sync = s.sync := rfl
@[simp] theorem State.freeSel_shutdown (s : State) : (freeSel s).shutdown = s.shutdown := rfl
@[simp] theorem State.freeSel_halted (s : State) : (freeSel s).halted = s.halted := rfl
@[simp] theorem State.freeSel_diagLock (s : State) : (freeSel s).diagLock = s.diagLock := rfl
@[simp] theorem State.freeSel_diagBuf (s : State) : (freeSel s).diagBuf = s.diagBuf := rfl
@[simp] theorem State.freeSel_sel (s : State) : (freeSel s).sel = (List.range s.par.nsel).map (Config.freeLine s.env.draws) := rfl
@[simp] theorem State.freeSel_vbus (s : State) : (freeSel s).vbus = s.vbus := rfl
@[simp] theorem State.freeSel_trace (s : State) : (freeSel s).trace = s.trace := rfl
@[simp] theorem State.freeSel_env (s : State) : (freeSel s).env = { s.env with draws := s.env.draws + 1 } := rfl
@[simp] theorem State.freeSel_request (s : State) : (freeSel s).request = s.request := rfl
@[simp] theorem State.freeSel_result (s : State) : (freeSel s).result = s.result := rfl

/-! ## Views of a pack: updates that do not write the packs -/

@[simp] theorem State.emit_pack (s : State) (e : Event) (q : Nat) : (s.emit e).pack q = s.pack q := rfl
@[simp] theorem State.emit_tel (s : State) (e : Event) (q : Nat) : (s.emit e).tel q = s.tel q := rfl
@[simp] theorem State.emit_cmd (s : State) (e : Event) (q : Nat) : (s.emit e).cmd q = s.cmd q := rfl
@[simp] theorem State.emit_cfg (s : State) (e : Event) (q : Nat) : (s.emit e).cfg q = s.cfg q := rfl

@[simp] theorem State.setResult_pack (s : State) (r : OpResult) (q : Nat) : (s.setResult r).pack q = s.pack q := rfl
@[simp] theorem State.setResult_tel (s : State) (r : OpResult) (q : Nat) : (s.setResult r).tel q = s.tel q := rfl
@[simp] theorem State.setResult_cmd (s : State) (r : OpResult) (q : Nat) : (s.setResult r).cmd q = s.cmd q := rfl
@[simp] theorem State.setResult_cfg (s : State) (r : OpResult) (q : Nat) : (s.setResult r).cfg q = s.cfg q := rfl

@[simp] theorem State.draw_pack (s : State) (q : Nat) : (s.draw).pack q = s.pack q := rfl
@[simp] theorem State.draw_tel (s : State) (q : Nat) : (s.draw).tel q = s.tel q := rfl
@[simp] theorem State.draw_cmd (s : State) (q : Nat) : (s.draw).cmd q = s.cmd q := rfl
@[simp] theorem State.draw_cfg (s : State) (q : Nat) : (s.draw).cfg q = s.cfg q := rfl

@[simp] theorem State.storeSamples_pack (s : State) (k : Nat) (v : List Q) (q : Nat) : (storeSamples k v s).pack q = s.pack q := rfl
@[simp] theorem State.storeSamples_tel (s : State) (k : Nat) (v : List Q) (q : Nat) : (storeSamples k v s).tel q = s.tel q := rfl
@[simp] theorem State.storeSamples_cmd (s : State) (k : Nat) (v : List Q) (q : Nat) : (storeSamples k v s).cmd q = s.cmd q := rfl
@[simp] theorem State.storeSamples_cfg (s : State) (k : Nat) (v : List Q) (q : Nat) : (storeSamples k v s).cfg q = s.cfg q := rfl

@[simp] theorem State.freeDiagBuf_pack (s : State) (q : Nat) : (freeDiagBuf s).pack q = s.pack q := rfl
@[simp] theorem State.freeDiagBuf_tel (s : State) (q : Nat) : (freeDiagBuf s).tel q = s.tel q := rfl
@[simp] theorem State.freeDiagBuf_cmd (s : State) (q : Nat) : (freeDiagBuf s).cmd q = s.cmd q := rfl
@[simp] theorem State.freeDiagBuf_cfg (s : State) (q : Nat) : (freeDiagBuf s).cfg q = s.cfg q := rfl

@[simp] theorem State.freeSel_pack (s : State) (q : Nat) : (freeSel s).pack q = s.pack q := rfl
@[simp] theorem State.freeSel_tel (s : State) (q : Nat) : (freeSel s).tel q = s.tel q := rfl
@[simp] theorem State.freeSel_cmd (s : State) (q : Nat) : (freeSel s).cmd q = s.cmd q := rfl
@[simp] theorem State.freeSel_cfg (s : State) (q : Nat) : (freeSel s).cfg q = s.cfg q := rfl

/-! ## Views of a pack: `setTel` -/

theorem State.pack_eq (s : State) (p : Nat) (h : p < s.packs.length) : s.pack p = s.packs[p] := by
  simp [State.pack, List.getD_eq_getElem?_getD, h]

theorem State.pack_setTel (s : State) (p q : Nat) (t : Telemetry) :
    (s.setTel p t).pack q = if p = q ∧ p < s.packs.length then { s.pack p with tel := t } else s.pack q := by
  simp only [State.pack, State.setTel_packs, List.getD_eq_getElem?_getD, List.getElem?_set]
  by_cases hpq : p = q
  · subst hpq
    by_cases hp : p < s.packs.length <;> simp [hp]
  · simp [hpq]

@[simp] theorem State.cmd_setTel (s : State) (p q : Nat) (t : Telemetry) : (s.setTel p t).cmd q = s.cmd q := by
  simp only [State.cmd, State.pack_setTel]
  split
  · next h => rw [h.1]
  · rfl

@[simp] theorem State.cfg_setTel (s : State) (p q : Nat) (t : Telemetry) : (s.setTel p t).cfg q = s.cfg q := by
  simp only [State.cfg, State.pack_setTel]
  split
  · next h => rw [h.1]
  · rfl

@[simp] theorem State.sanity_setTel (s : State) (p q : Nat) (t : Telemetry) :
    ((s.setTel p t).pack q).sanityTrigger = (s.pack q).sanityTrigger := by
  simp only [State.pack_setTel]
  split
  · next h => rw [h.1]
  · rfl

theorem State.tel_setTel_self (s : State) (p : Nat) (t : Telemetry) (h : p < s.packs.length) :
    (s.setTel p t).tel p = t := by
  simp [State.tel, State.pack_setTel, h]

theorem State.tel_setTel_other (s : State) (p q : Nat) (t : Telemetry) (h : p ≠ q) :
    (s.setTel p t).tel q = s.tel q := by
  simp [State.tel, State.pack_setTel, h]

@[simp] theorem State.length_setTel (s : State) (p : Nat) (t : Telemetry) :
    (s.setTel p t).packs.length = s.packs.length := by simp

/-- Two writes of one record: the last one stands. -/
theorem State.setTel_setTel (s : State) (p : Nat) (t u : Telemetry) :
    (s.setTel p t).setTel p u = s.setTel p u := by
  have h : { (s.setTel p t).pack p with tel := u } = { s.pack p with tel := u } := by
    simp only [State.pack_setTel]
    split <;> rfl
  simp only [State.setTel] at h ⊢
  simp [h]

@[simp] theorem State.cmd_setCode (s : State) (p q : Nat) (c : BitVec 4) : (s.setCode p c).cmd q = s.cmd q := s.cmd_setTel p q _

@[simp] theorem State.cfg_setCode (s : State) (p q : Nat) (c : BitVec 4) : (s.setCode p c).cfg q = s.cfg q := s.cfg_setTel p q _

@[simp] theorem State.sanity_setCode (s : State) (p q : Nat) (c : BitVec 4) :
    ((s.setCode p c).pack q).sanityTrigger = (s.pack q).sanityTrigger := s.sanity_setTel p q _

theorem State.tel_setCode_self (s : State) (p : Nat) (c : BitVec 4) (h : p < s.packs.length) :
    (s.setCode p c).tel p = { s.tel p with state := c } := s.tel_setTel_self p _ h

theorem State.tel_setCode_other (s : State) (p q : Nat) (c : BitVec 4) (h : p ≠ q) : (s.setCode p c).tel q = s.tel q :=
  s.tel_setTel_other p q _ h

@[simp] theorem State.cmd_setAlerts (s : State) (p q : Nat) (a : BitVec 32) : (s.setAlerts p a).cmd q = s.cmd q := s.cmd_setTel p q _

@[simp] theorem State.cfg_setAlerts (s : State) (p q : Nat) (a : BitVec 32) : (s.setAlerts p a).cfg q = s.cfg q := s.cfg_setTel p q _

@[simp] theorem State.sanity_setAlerts (s : State) (p q : Nat) (a : BitVec 32) :
    ((s.setAlerts p a).pack q).sanityTrigger = (s.pack q).sanityTrigger := s.sanity_setTel p q _

theorem State.tel_setAlerts_self (s : State) (p : Nat) (a : BitVec 32) (h : p < s.packs.length) :
    (s.setAlerts p a).tel p = { s.tel p with swAlerts := a } := s.tel_setTel_self p _ h

theorem State.tel_setAlerts_other (s : State) (p q : Nat) (a : BitVec 32) (h : p ≠ q) : (s.setAlerts p a).tel q = s.tel q :=
  s.tel_setTel_other p q _ h

@[simp] theorem State.cmd_setDrive (s : State) (p q : Nat) (d : BitVec 3) : (s.setDrive p d).cmd q = s.cmd q := s.cmd_setTel p q _

@[simp] theorem State.cfg_setDrive (s : State) (p q : Nat) (d : BitVec 3) : (s.setDrive p d).cfg q = s.cfg q := s.cfg_setTel p q _

@[simp] theorem State.sanity_setDrive (s : State) (p q : Nat) (d : BitVec 3) :
    ((s.setDrive p d).pack q).sanityTrigger = (s.pack q).sanityTrigger := s.sanity_setTel p q _

theorem State.tel_setDrive_self (s : State) (p : Nat) (d : BitVec 3) (h : p < s.packs.length) :
    (s.setDrive p d).tel p = { s.tel p with mosfetDrive := d } := s.tel_setTel_self p _ h

theorem State.tel_setDrive_other (s : State) (p q : Nat) (d : BitVec 3) (h : p ≠ q) : (s.setDrive p d).tel q = s.tel q :=
  s.tel_setTel_other p q _ h

end Sys2Proof.Machine
end

