-- ==== Sys2Proof/Laws/Ops.lean ====
section
/-! SUPPORT. What each shared operation can do, said once: replies, the ports, the transport and the facade. -/

namespace Sys2Proof.Machine

open Sys2Proof.Safety

/-! ## Replies -/

@[simp] theorem Run.andThen_ok {α β : Type} (a : α) (s : State) (f : α → State → Run β) :
    (Run.mk (.ok a) s).andThen f = f a s := rfl

@[simp] theorem Run.andThen_err {α β : Type} (k : ErrKind) (s : State) (f : α → State → Run β) :
    (Run.mk (.err k) s).andThen f = ⟨.err k, s⟩ := rfl

@[simp] theorem Run.andThen_pure {α β : Type} (a : α) (s : State) (f : α → State → Run β) :
    (Run.pure a s).andThen f = f a s := rfl

@[simp] theorem Run.pure_reply {α : Type} (a : α) (s : State) : (Run.pure a s).reply = .ok a := rfl

@[simp] theorem Run.pure_state {α : Type} (a : α) (s : State) : (Run.pure a s).state = s := rfl

/-- `try`, inverted: the first part failed and is the whole, or it gave a value and the rest followed. -/
theorem Run.andThen_cases {α β : Type} (r : Run α) (f : α → State → Run β) :
    (∃ k, r.reply = .err k ∧ r.andThen f = ⟨.err k, r.state⟩) ∨ (∃ a, r.reply = .ok a ∧ r.andThen f = f a r.state) := by
  rcases r with ⟨a | k, s⟩
  · exact .inr ⟨a, rfl, rfl⟩
  · exact .inl ⟨k, rfl, rfl⟩

/-- A relation to the start that the first part establishes and the rest keeps holds at the end, failed or not. -/
theorem Run.andThen_keeps {α β : Type} {r : Run α} {f : α → State → Run β} {P : State → Prop}
    (h1 : P r.state) (h2 : ∀ a t, P t → P (f a t).state) : P (r.andThen f).state := by
  rcases r with ⟨a | k, s⟩
  · exact h2 a s h1
  · exact h1

/-- If the whole gives a value, so did the first part. -/
theorem Run.andThen_ok_iff {α β : Type} (r : Run α) (f : α → State → Run β) (b : β) :
    (r.andThen f).reply = .ok b ↔ ∃ a, r.reply = .ok a ∧ (f a r.state).reply = .ok b := by
  rcases r with ⟨a | k, s⟩ <;> simp [Run.andThen]

end Sys2Proof.Machine

namespace Sys2Proof.Safety

open Sys2Proof.Machine

/-! ## `BusOnly` -/

theorem BusOnly.refl (s : State) : BusOnly s s := ⟨s.sel, [], s.env, by simp⟩

theorem BusOnly.trans {s t u : State} (h1 : BusOnly s t) (h2 : BusOnly t u) : BusOnly s u := by
  obtain ⟨l1, e1, n1, rfl⟩ := h1
  obtain ⟨l2, e2, n2, rfl⟩ := h2
  exact ⟨l2, e1 ++ e2, n2, by simp⟩

theorem BusOnly.par {s t : State} (h : BusOnly s t) : t.par = s.par := by obtain ⟨_, _, _, rfl⟩ := h; rfl
theorem BusOnly.packs {s t : State} (h : BusOnly s t) : t.packs = s.packs := by obtain ⟨_, _, _, rfl⟩ := h; rfl
theorem BusOnly.pack {s t : State} (h : BusOnly s t) (p : Nat) : t.pack p = s.pack p := by
  obtain ⟨_, _, _, rfl⟩ := h; rfl
theorem BusOnly.tel {s t : State} (h : BusOnly s t) (p : Nat) : t.tel p = s.tel p := by
  obtain ⟨_, _, _, rfl⟩ := h; rfl
theorem BusOnly.cfg {s t : State} (h : BusOnly s t) (p : Nat) : t.cfg p = s.cfg p := by
  obtain ⟨_, _, _, rfl⟩ := h; rfl
theorem BusOnly.cur {s t : State} (h : BusOnly s t) : t.cur = s.cur := by obtain ⟨_, _, _, rfl⟩ := h; rfl
theorem BusOnly.sync {s t : State} (h : BusOnly s t) : t.sync = s.sync := by obtain ⟨_, _, _, rfl⟩ := h; rfl
theorem BusOnly.shutdown {s t : State} (h : BusOnly s t) : t.shutdown = s.shutdown := by obtain ⟨_, _, _, rfl⟩ := h; rfl
theorem BusOnly.halted {s t : State} (h : BusOnly s t) : t.halted = s.halted := by obtain ⟨_, _, _, rfl⟩ := h; rfl
theorem BusOnly.diagLock {s t : State} (h : BusOnly s t) : t.diagLock = s.diagLock := by
  obtain ⟨_, _, _, rfl⟩ := h; rfl
theorem BusOnly.diagBuf {s t : State} (h : BusOnly s t) : t.diagBuf = s.diagBuf := by obtain ⟨_, _, _, rfl⟩ := h; rfl
theorem BusOnly.vbus {s t : State} (h : BusOnly s t) : t.vbus = s.vbus := by obtain ⟨_, _, _, rfl⟩ := h; rfl
theorem BusOnly.request {s t : State} (h : BusOnly s t) : t.request = s.request := by obtain ⟨_, _, _, rfl⟩ := h; rfl
theorem BusOnly.result {s t : State} (h : BusOnly s t) : t.result = s.result := by obtain ⟨_, _, _, rfl⟩ := h; rfl
theorem BusOnly.trace {s t : State} (h : BusOnly s t) : ∃ es, t.trace = s.trace ++ es := by
  obtain ⟨_, es, _, rfl⟩ := h; exact ⟨es, rfl⟩

end Sys2Proof.Safety

namespace Sys2Proof.Machine

open Sys2Proof.Safety

/-! ## The ports -/

theorem driveAnswer_state (s : State) : ∃ n, (driveAnswer s).2 = { s with env := n } := by
  unfold driveAnswer
  split
  · exact ⟨_, rfl⟩
  · exact ⟨_, rfl⟩

theorem busAnswer_state (s : State) : ∃ n, (busAnswer s).2 = { s with env := n } := by
  unfold busAnswer
  split
  · exact ⟨_, rfl⟩
  · exact ⟨_, rfl⟩

/-- A drive: some answer, its event, and nothing else but the environment's fields. -/
theorem selDrive_spec (i : Nat) (s : State) :
    ∃ ok n, selDrive i s = (ok, { s with trace := s.trace ++ [.sel i ok], env := n }) := by
  obtain ⟨n, h⟩ := driveAnswer_state s
  refine ⟨(driveAnswer s).1, n, ?_⟩
  show ((driveAnswer s).1, (driveAnswer s).2.emit _) = _
  rw [h]; rfl

/-- A transfer: an answer of as many bytes as were sent, its event, and nothing else but the environment's fields. -/
theorem busXfer_spec (tx : List Byte) (s : State) :
    ∃ a n, busXfer tx s = (a, { s with trace := s.trace ++ [.xfer (lineIndex s.sel) tx a], env := n }) ∧
      (∀ rx, a = .ok rx → rx.length = tx.length) := by
  obtain ⟨n, h⟩ := busAnswer_state s
  refine ⟨fitAnswer tx.length (busAnswer s).1, n, ?_, ?_⟩
  · show (fitAnswer tx.length (busAnswer s).1, (busAnswer s).2.emit _) = _
    rw [h]; rfl
  · intro rx hrx
    cases ha : (busAnswer s).1 <;> simp [ha, fitAnswer] at hrx
    subst hrx; simp [exactly]

/-! ## Lines and frames -/

@[simp] theorem selLines_length (n i : Nat) : (selLines n i).length = n := by simp [selLines]

theorem lineIndex_range (n i : Nat) : lineIndex (selLines n i) = i % 2 ^ n := by
  induction n generalizing i with
  | zero => simp [selLines, lineIndex, Nat.mod_one]
  | succ n ih =>
    have h : selLines (n + 1) i = i.testBit 0 :: selLines n (i / 2) := by
      simp [selLines, List.range_succ_eq_map, Function.comp_def, Nat.testBit_succ]
    rw [h, lineIndex, ih, Nat.pow_succ', Nat.mod_mul]
    simp only [Nat.testBit_zero]
    have := Nat.mod_two_eq_zero_or_one i
    rcases this with h | h <;> simp [h]

/-- The lines carry the index they were driven with. -/
theorem lineIndex_selLines {n i : Nat} (h : i < 2 ^ n) : lineIndex (selLines n i) = i := by
  rw [lineIndex_range, Nat.mod_eq_of_lt h]

@[simp] theorem wrFrame_length (poly : Byte) (a : Nat) (v : Word) : (wrFrame poly a v).length = 4 := rfl

@[simp] theorem rdFrame_length (a n : Nat) : (rdFrame a n).length = 2 * n + 3 := by
  simp [rdFrame]

@[simp] theorem exactly_length {α : Type} (n : Nat) (d : α) (l : List α) : (exactly n d l).length = n := by
  simp [exactly]

theorem exactly_self {α : Type} (d : α) (l : List α) : exactly l.length d l = l := by
  apply List.ext_getElem
  · simp
  · intro i h1 h2
    simp [exactly, List.getD_eq_getElem?_getD, h2]

theorem exactly_of_length {α : Type} {n : Nat} (d : α) {l : List α} (h : l.length = n) : exactly n d l = l := by
  subst h; exact exactly_self d l

theorem crc8_append (poly : Byte) (a b : List Byte) :
    crc8 poly (a ++ b) = b.foldl (fun c x => crcTable poly (c ^^^ x)) (crc8 poly a) := by
  simp [crc8, List.foldl_append]

@[simp] theorem crcTable_zero (poly : Byte) : crcTable poly 0#8 = 0#8 := by
  simp [crcTable, Nat.repeat, crcShift]

/-- The residue: a message followed by its own CRC checks (40_transport_framer.md R123 (a)). -/
theorem crc8_append_self (poly : Byte) (m : List Byte) : crc8 poly (m ++ [crc8 poly m]) = 0 := by
  simp [crc8_append]

theorem joinBytes_hi_lo (w : Word) : joinBytes (hiByte w) (loByte w) = w := by
  apply BitVec.eq_of_getLsbD_eq
  intro i hi
  simp only [joinBytes, hiByte, loByte, BitVec.getLsbD_append, BitVec.getLsbD_extractLsb']
  by_cases h : i < 8
  · simp [h]
  · simp [h, show i - 8 < 8 by omega, show 8 + (i - 8) = i by omega]

/-- A response checks. -/
theorem rsFrame_ok (poly e0 e1 : Byte) (ws : List Word) : frameOk poly (rsFrame poly e0 e1 ws) = true := by
  simp only [frameOk, rsFrame, crc8_append_self, beq_self_eq_true]

theorem flatMap_bytes_length (ws : List Word) : (ws.flatMap fun w => [hiByte w, loByte w]).length = 2 * ws.length := by
  induction ws with
  | nil => rfl
  | cons w ws ih => simp only [List.flatMap_cons, List.length_append, ih]; simp; omega

@[simp] theorem rsFrame_length (poly e0 e1 : Byte) (ws : List Word) :
    (rsFrame poly e0 e1 ws).length = 2 * ws.length + 3 := by
  simp only [rsFrame, List.length_append, flatMap_bytes_length]
  simp; omega

theorem flatMap_bytes_get (ws : List Word) (i : Nat) (h : i < ws.length) (rest : List Byte) :
    ((ws.flatMap fun w => [hiByte w, loByte w]) ++ rest).getD (2 * i) 0 = hiByte (ws.getD i 0) ∧
    ((ws.flatMap fun w => [hiByte w, loByte w]) ++ rest).getD (2 * i + 1) 0 = loByte (ws.getD i 0) := by
  induction ws generalizing i with
  | nil => simp at h
  | cons w ws ih =>
    cases i with
    | zero => simp
    | succ i =>
      have := ih i (by simpa using h)
      simpa [List.flatMap_cons, Nat.mul_succ, List.getD_cons_succ] using this

/-- The words of a response are the words it carries. -/
theorem wordsOf_rsFrame (poly e0 e1 : Byte) (ws : List Word) : wordsOf ws.length (rsFrame poly e0 e1 ws) = ws := by
  apply List.ext_getElem
  · simp [wordsOf]
  · intro i h1 h2
    obtain ⟨ha, hb⟩ := flatMap_bytes_get ws i h2 [crc8 poly ([e0, e1] ++ ws.flatMap fun w => [hiByte w, loByte w])]
    have e : rsFrame poly e0 e1 ws = e0 :: e1 :: ((ws.flatMap fun w => [hiByte w, loByte w]) ++
        [crc8 poly ([e0, e1] ++ ws.flatMap fun w => [hiByte w, loByte w])]) := by simp [rsFrame]
    have h3 : 2 + 2 * i = (2 * i) + 1 + 1 := by omega
    have h4 : 3 + 2 * i = (2 * i + 1) + 1 + 1 := by omega
    simp only [wordsOf, List.getElem_map, List.getElem_range, e, h3, h4, List.getD_cons_succ, ha, hb, joinBytes_hi_lo]
    simp [List.getD_eq_getElem?_getD, h2]

end Sys2Proof.Machine
end

