-- ==== Sys2Proof/Laws/Facade.lean ====
section
/-! SUPPORT. What the operations of the framer and the facade can do, and what they do under an environment script. -/

namespace Sys2Proof.Machine

open Sys2Proof.Safety

/-! ## What they can do -/

/-- `SELECT`: out of range nothing happens; else one event, and the lines are the index's code or free. -/
theorem select_cases (i : Nat) (s : State) :
    (2 ^ s.par.nsel ≤ i ∧ select i s = ⟨.err .badArgument, s⟩) ∨
    (i < 2 ^ s.par.nsel ∧ ∃ n, select i s =
      ⟨.ok (), { s with sel := selLines s.par.nsel i, trace := s.trace ++ [.sel i true], env := n }⟩) ∨
    (i < 2 ^ s.par.nsel ∧ ∃ n k, select i s =
      ⟨.err .transport, { s with sel := (List.range s.par.nsel).map (Config.freeLine k),
                                 trace := s.trace ++ [.sel i false], env := n }⟩) := by
  by_cases h : 2 ^ s.par.nsel ≤ i
  · exact .inl ⟨h, by simp [select, h]⟩
  · obtain ⟨ok, n, hd⟩ := selDrive_spec i s
    cases ok with
    | true => exact .inr (.inl ⟨by omega, n, by simp [select, h, hd]⟩)
    | false => exact .inr (.inr ⟨by omega, { n with draws := n.draws + 1 }, n.draws, by
        simp [select, h, hd, freeSel, State.draw]⟩)

theorem select_busOnly (i : Nat) (s : State) : BusOnly s (select i s).state := by
  rcases select_cases i s with ⟨_, h⟩ | ⟨_, n, h⟩ | ⟨_, n, k, h⟩ <;> rw [h]
  · exact BusOnly.refl s
  · exact ⟨_, _, _, rfl⟩
  · exact ⟨_, _, _, rfl⟩

theorem select_sel_length (i : Nat) (s : State) (h : s.sel.length = s.par.nsel) :
    (select i s).state.sel.length = s.par.nsel := by
  rcases select_cases i s with ⟨_, h'⟩ | ⟨_, n, h'⟩ | ⟨_, n, k, h'⟩ <;> rw [h'] <;> simp [h]

/-- `WRREG`: rejected with no effect, or one transfer of the write frame. -/
theorem wrreg_cases (a : Nat) (v : Word) (s : State) :
    (addressOk a = false ∧ wrreg a v s = ⟨.err .badArgument, s⟩) ∨
    (addressOk a = true ∧ ∃ ans n, wrreg a v s =
      ⟨if ans = .busError then .err .transport else .ok (),
        { s with trace := s.trace ++ [.xfer (lineIndex s.sel) (wrFrame s.par.crcPoly a v) ans], env := n }⟩) := by
  by_cases h : addressOk a
  · obtain ⟨ans, n, hx, _⟩ := busXfer_spec (wrFrame s.par.crcPoly a v) s
    refine .inr ⟨h, ans, n, ?_⟩
    cases ans <;> simp [wrreg, h, hx]
  · exact .inl ⟨by simpa using h, by simp [wrreg, h]⟩

theorem wrreg_busOnly (a : Nat) (v : Word) (s : State) : BusOnly s (wrreg a v s).state := by
  rcases wrreg_cases a v s with ⟨_, h⟩ | ⟨_, ans, n, h⟩ <;> rw [h]
  · exact BusOnly.refl s
  · exact ⟨s.sel, _, n, rfl⟩

theorem wrreg_sel (a : Nat) (v : Word) (s : State) : (wrreg a v s).state.sel = s.sel := by
  rcases wrreg_cases a v s with ⟨_, h⟩ | ⟨_, ans, n, h⟩ <;> rw [h]

/-- `RDREG`: rejected with no effect; or one transfer of the request, then `Transport`, `Crc`, or `count` words. -/
theorem rdreg_cases (a n : Nat) (s : State) :
    ((countOk n && addressOk a) = false ∧ rdreg a n s = ⟨.err .badArgument, s⟩) ∨
    ((countOk n && addressOk a) = true ∧ ∃ ans env r, rdreg a n s =
      ⟨r, { s with trace := s.trace ++ [.xfer (lineIndex s.sel) (rdFrame a n) ans], env := env }⟩ ∧
      ((ans = .busError ∧ r = .err .transport) ∨
       ∃ rx, ans = .ok rx ∧ rx.length = 2 * n + 3 ∧
         r = if frameOk s.par.crcPoly rx then .ok (wordsOf n rx) else .err .crc)) := by
  by_cases h : (countOk n && addressOk a) = true
  · obtain ⟨ans, env, hx, hl⟩ := busXfer_spec (rdFrame a n) s
    simp only [Bool.and_eq_true] at h
    refine .inr ⟨by simp [h], ans, env, ?_⟩
    cases ans with
    | busError => exact ⟨.err .transport, by simp [rdreg, h, hx], .inl ⟨rfl, rfl⟩⟩
    | ok rx =>
      refine ⟨if frameOk s.par.crcPoly rx then .ok (wordsOf n rx) else .err .crc, ?_, .inr ⟨rx, rfl, ?_, rfl⟩⟩
      · simp only [rdreg, h, hx, Bool.not_true, Bool.false_eq_true, ↓reduceIte]
        split <;> rfl
      · simpa using hl rx rfl
  · refine .inl ⟨by simpa using h, ?_⟩
    simp only [Bool.and_eq_true, not_and] at h
    by_cases h1 : countOk n
    · simp [rdreg, h1, h h1]
    · simp [rdreg, h1]

theorem rdreg_busOnly (a n : Nat) (s : State) : BusOnly s (rdreg a n s).state := by
  rcases rdreg_cases a n s with ⟨_, h⟩ | ⟨_, ans, env, r, h, _⟩ <;> rw [h]
  · exact BusOnly.refl s
  · exact ⟨s.sel, _, env, rfl⟩

theorem rdreg_sel (a n : Nat) (s : State) : (rdreg a n s).state.sel = s.sel := by
  rcases rdreg_cases a n s with ⟨_, h⟩ | ⟨_, ans, env, r, h, _⟩ <;> rw [h]

/-- A relation to the start that `BusOnly` steps compose. -/
theorem andThen_busOnly {α β : Type} {s : State} {r : Run α} {f : α → State → Run β}
    (h1 : BusOnly s r.state) (h2 : ∀ a t, BusOnly t (f a t).state) : BusOnly s (r.andThen f).state :=
  Run.andThen_keeps (P := BusOnly s) h1 fun a t ht => ht.trans (h2 a t)

theorem afeWrite_busOnly (p a : Nat) (v : Word) (s : State) : BusOnly s (afeWrite p a v s).state :=
  andThen_busOnly (select_busOnly p s) fun _ t => wrreg_busOnly a v t

theorem afeWriteReg_busOnly (p : Nat) (w : RegWrite) (s : State) : BusOnly s (afeWriteReg p w s).state :=
  afeWrite_busOnly p _ _ s

theorem afeRead_busOnly (p a n : Nat) (s : State) : BusOnly s (afeRead p a n s).state := by
  unfold afeRead
  split
  · exact BusOnly.refl s
  · exact andThen_busOnly (select_busOnly p s) fun _ t => rdreg_busOnly a n t

theorem writeAll_busOnly (p : Nat) (ws : List RegWrite) (s : State) : BusOnly s (writeAll p ws s).state := by
  induction ws generalizing s with
  | nil => exact BusOnly.refl s
  | cons w ws ih => exact andThen_busOnly (afeWriteReg_busOnly p w s) fun _ t => ih t

theorem readBlocks_busOnly (p : Nat) (bs : List Burst) (s : State) : BusOnly s (readBlocks p bs s).state := by
  induction bs generalizing s with
  | nil => exact BusOnly.refl s
  | cons b bs ih =>
    exact andThen_busOnly (afeRead_busOnly p _ _ s) fun _ t => andThen_busOnly (ih t) fun _ u => BusOnly.refl u

theorem readStatus_busOnly (p : Nat) (s : State) : BusOnly s (readStatus p s).state :=
  andThen_busOnly (afeRead_busOnly p _ _ s) fun _ t => BusOnly.refl t

theorem readCells_busOnly (p : Nat) (s : State) : BusOnly s (readCells p s).state :=
  andThen_busOnly (readBlocks_busOnly p _ s) fun _ t => BusOnly.refl t

theorem balance_busOnly (p : Nat) (s : State) : BusOnly s (balance p s).state :=
  andThen_busOnly (afeWriteReg_busOnly p _ s) fun _ t => BusOnly.refl t

/-! ## The lines keep their number -/

/-- There is one line per select line of the parameters (10_state.md R42). -/
def SelLength (s : State) : Prop := s.sel.length = s.par.nsel

theorem afeWrite_selLength (p a : Nat) (v : Word) (s : State) (h : SelLength s) : SelLength (afeWrite p a v s).state := by
  refine Run.andThen_keeps (P := SelLength) ?_ fun _ t ht => ?_
  · simpa [SelLength, (select_busOnly p s).par] using select_sel_length p s h
  · simpa [SelLength, wrreg_sel, (wrreg_busOnly a v t).par] using ht

theorem afeRead_selLength (p a n : Nat) (s : State) (h : SelLength s) : SelLength (afeRead p a n s).state := by
  unfold afeRead
  split
  · exact h
  · refine Run.andThen_keeps (P := SelLength) ?_ fun _ t ht => ?_
    · simpa [SelLength, (select_busOnly p s).par] using select_sel_length p s h
    · simpa [SelLength, rdreg_sel, (rdreg_busOnly a n t).par] using ht

theorem writeAll_selLength (p : Nat) (ws : List RegWrite) (s : State) (h : SelLength s) :
    SelLength (writeAll p ws s).state := by
  induction ws generalizing s with
  | nil => exact h
  | cons w ws ih => exact Run.andThen_keeps (P := SelLength) (afeWrite_selLength p _ _ s h) fun _ t ht => ih t ht

theorem readBlocks_selLength (p : Nat) (bs : List Burst) (s : State) (h : SelLength s) :
    SelLength (readBlocks p bs s).state := by
  induction bs generalizing s with
  | nil => exact h
  | cons b bs ih =>
    exact Run.andThen_keeps (P := SelLength) (afeRead_selLength p _ _ s h) fun _ t ht =>
      Run.andThen_keeps (P := SelLength) (ih t ht) fun _ u hu => hu

/-! ## What a successful read delivers -/

theorem rdreg_ok_length {a n : Nat} {s : State} {ws : List Word} (h : (rdreg a n s).reply = .ok ws) : ws.length = n := by
  rcases rdreg_cases a n s with ⟨_, h'⟩ | ⟨_, ans, env, r, h', hr⟩
  · simp [h'] at h
  · rw [h'] at h
    rcases hr with ⟨_, rfl⟩ | ⟨rx, _, _, rfl⟩
    · simp at h
    · simp only at h
      split at h
      · simp only [Reply.ok.injEq] at h; subst h; simp [wordsOf]
      · simp at h

theorem afeRead_ok_length {p a n : Nat} {s : State} {ws : List Word} (h : (afeRead p a n s).reply = .ok ws) :
    ws.length = n := by
  unfold afeRead at h
  split at h
  · simp at h
  · obtain ⟨_, _, h2⟩ := (Run.andThen_ok_iff _ _ _).1 h
    exact rdreg_ok_length h2

theorem readCells_ok_length {p : Nat} {s : State} {v : List Q} (h : (readCells p s).reply = .ok v) :
    v.length = s.par.ncell := by
  obtain ⟨_, _, h2⟩ := (Run.andThen_ok_iff _ _ _).1 h
  simp only [Run.pure_reply, Reply.ok.injEq] at h2
  subst h2; simp

/-! ## Under a script -/

theorem busXfer_scripted {tx rx : List Byte} {answers : List BusAnswer} {s : State}
    (h : s.env.answers = .ok rx :: answers) (hl : rx.length = tx.length) :
    busXfer tx s = (.ok rx, { s with trace := s.trace ++ [.xfer (lineIndex s.sel) tx (.ok rx)],
                                     env := { s.env with answers := answers } }) := by
  simp [busXfer, busAnswer, h, fitAnswer, exactly_of_length _ hl, State.emit]

theorem select_scripted {i : Nat} {drives : List Bool} {s : State} (hi : i < 2 ^ s.par.nsel)
    (h : s.env.drives = true :: drives) :
    select i s = ⟨.ok (), { s with sel := selLines s.par.nsel i, trace := s.trace ++ [.sel i true],
                                   env := { s.env with drives := drives } }⟩ := by
  simp [select, Nat.not_le.2 hi, selDrive, driveAnswer, h, State.emit]

theorem busXfer_scripted_error {tx : List Byte} {answers : List BusAnswer} {s : State}
    (h : s.env.answers = .busError :: answers) :
    busXfer tx s = (.busError, { s with trace := s.trace ++ [.xfer (lineIndex s.sel) tx .busError],
                                        env := { s.env with answers := answers } }) := by
  simp [busXfer, busAnswer, h, fitAnswer, State.emit]

theorem select_scripted_fail {i : Nat} {drives : List Bool} {s : State} (hi : i < 2 ^ s.par.nsel)
    (h : s.env.drives = false :: drives) :
    select i s = ⟨.err .transport, { s with
      sel := (List.range s.par.nsel).map (Config.freeLine s.env.draws), trace := s.trace ++ [.sel i false],
      env := { s.env with drives := drives, draws := s.env.draws + 1 } }⟩ := by
  simp [select, Nat.not_le.2 hi, selDrive, driveAnswer, h, State.emit, freeSel, State.draw]

/-- A script in two parts: the second part stands behind the first. -/
theorem script_append {xs ys : List (List Byte)} {ds : List Bool} {as : List BusAnswer} {s : State}
    (h : Script (xs ++ ys) ds as s) :
    Script xs (List.replicate ys.length true ++ ds) (ys.map BusAnswer.ok ++ as) s := by
  obtain ⟨h1, h2⟩ := h
  exact ⟨by rw [h1, List.length_append, ← List.replicate_append_replicate, List.append_assoc],
    by rw [h2, List.map_append, List.append_assoc]⟩

/-- A write transaction that the environment acknowledges. -/
theorem afeWrite_scripted {p a : Nat} {v : Word} {ack : List Byte} {drives : List Bool} {answers : List BusAnswer}
    {s : State} (hp : p < 2 ^ s.par.nsel) (ha : addressOk a = true) (hack : ack.length = 4)
    (hd : s.env.drives = true :: drives) (hx : s.env.answers = .ok ack :: answers) :
    afeWrite p a v s =
      ⟨.ok (), { s with sel := selLines s.par.nsel p,
                        trace := s.trace ++ transaction p (wrFrame s.par.crcPoly a v) ack,
                        env := envAfter s drives answers }⟩ := by
  simp only [afeWrite, select_scripted hp hd, Run.andThen_ok, wrreg, ha, ↓reduceIte]
  rw [busXfer_scripted (rx := ack) (answers := answers)]
  · simp [lineIndex_selLines hp, transaction, envAfter]
  · exact hx
  · simpa using hack

/-- A read transaction that the environment answers with a response. -/
theorem afeRead_scripted {p a n : Nat} {r : Resp} {drives : List Bool} {answers : List BusAnswer}
    {s : State} (hp : p < 2 ^ s.par.nsel) (ha : addressOk a = true) (hn : countOk n = true) (hw : r.ws.length = n)
    (hd : s.env.drives = true :: drives)
    (hx : s.env.answers = .ok (rsFrame s.par.crcPoly r.e0 r.e1 r.ws) :: answers) :
    afeRead p a n s =
      ⟨.ok r.ws, { s with sel := selLines s.par.nsel p,
                          trace := s.trace ++ transaction p (rdFrame a n) (rsFrame s.par.crcPoly r.e0 r.e1 r.ws),
                          env := envAfter s drives answers }⟩ := by
  simp only [afeRead, hn, Bool.not_true, Bool.false_eq_true, ↓reduceIte, select_scripted hp hd, Run.andThen_ok, rdreg, ha]
  rw [busXfer_scripted (rx := rsFrame s.par.crcPoly r.e0 r.e1 r.ws) (answers := answers)]
  · simp only [rsFrame_ok, ↓reduceIte]
    subst hw
    simp [wordsOf_rsFrame, lineIndex_selLines hp, transaction, envAfter]
  · exact hx
  · simp [hw]

/-- The state after a drive that failed. -/
theorem afterFailure_drive {p : Nat} {tx : List Byte} {s : State} {ds : List Bool} (hd : s.env.drives = false :: ds) :
    AfterFailure p tx s { s with
      sel := (List.range s.par.nsel).map (Config.freeLine s.env.draws), trace := s.trace ++ [.sel p false],
      env := { s.env with drives := ds, draws := s.env.draws + 1 } } := by
  refine ⟨fun ds' hd' => ?_, fun ds' a as hd' => by simp [hd] at hd'⟩
  obtain rfl : ds = ds' := by simpa [hd] using hd'
  exact ⟨_, _, by simp, rfl⟩

/-- The state after a transfer that failed. -/
theorem afterFailure_xfer {p : Nat} {tx : List Byte} {s : State} {ds : List Bool} {a : BusAnswer} {as : List BusAnswer}
    (hd : s.env.drives = true :: ds) (hx : s.env.answers = a :: as) :
    AfterFailure p tx s { s with
      sel := selLines s.par.nsel p, trace := s.trace ++ [.sel p true, .xfer p tx a], env := envAfter s ds as } := by
  refine ⟨fun ds' hd' => by simp [hd] at hd', fun ds' b as' hd' hx' => ?_⟩
  obtain rfl : ds = ds' := by simpa [hd] using hd'
  obtain ⟨rfl, rfl⟩ : a = b ∧ as = as' := by simpa [hx] using hx'
  rfl

/-- A write transaction that fails. -/
theorem afeWrite_fails {p a : Nat} {v : Word} {s : State} {k : ErrKind} (hp : p < 2 ^ s.par.nsel)
    (ha : addressOk a = true) (h : NextFails false 4 s k) :
    ∃ t, AfterFailure p (wrFrame s.par.crcPoly a v) s t ∧ afeWrite p a v s = ⟨.err k, t⟩ := by
  rcases h with ⟨ds, hd, rfl⟩ | ⟨ds, as, hd, hx, rfl⟩ | ⟨h, _⟩
  · exact ⟨_, afterFailure_drive hd, by simp [afeWrite, select_scripted_fail hp hd]⟩
  · refine ⟨_, afterFailure_xfer hd hx, ?_⟩
    simp only [afeWrite, select_scripted hp hd, Run.andThen_ok, wrreg, ha, ↓reduceIte]
    rw [busXfer_scripted_error (answers := as)]
    · simp [lineIndex_selLines hp, envAfter]
    · exact hx
  · cases h

/-- A read transaction that fails. -/
theorem afeRead_fails {p a n : Nat} {s : State} {k : ErrKind} (hp : p < 2 ^ s.par.nsel) (ha : addressOk a = true)
    (hn : countOk n = true) (h : NextFails true (2 * n + 3) s k) :
    ∃ t, AfterFailure p (rdFrame a n) s t ∧ afeRead p a n s = ⟨.err k, t⟩ := by
  have e : afeRead p a n s = (select p s).andThen fun _ s1 => rdreg a n s1 := by simp [afeRead, hn]
  rw [e]
  rcases h with ⟨ds, hd, rfl⟩ | ⟨ds, as, hd, hx, rfl⟩ | ⟨_, ds, rx, as, hd, hx, hl, hc, rfl⟩
  · exact ⟨_, afterFailure_drive hd, by simp [select_scripted_fail hp hd]⟩
  · refine ⟨_, afterFailure_xfer hd hx, ?_⟩
    simp only [select_scripted hp hd, Run.andThen_ok, rdreg, ha, hn, Bool.not_true, Bool.false_eq_true, ↓reduceIte]
    rw [busXfer_scripted_error (answers := as)]
    · simp [lineIndex_selLines hp, envAfter]
    · exact hx
  · refine ⟨_, afterFailure_xfer hd hx, ?_⟩
    simp only [select_scripted hp hd, Run.andThen_ok, rdreg, ha, hn, Bool.not_true, Bool.false_eq_true, ↓reduceIte]
    rw [busXfer_scripted (rx := rx) (answers := as)]
    · simp only [frameOk, beq_eq_false_iff_ne.2 hc]
      simp [lineIndex_selLines hp, envAfter]
    · exact hx
    · simpa using hl

/-- Writes one after another, in two parts. -/
theorem writeAll_append (p : Nat) (ws more : List RegWrite) (s : State) :
    writeAll p (ws ++ more) s = (writeAll p ws s).andThen fun _ s1 => writeAll p more s1 := by
  induction ws generalizing s with
  | nil => rfl
  | cons w ws ih =>
    simp only [List.cons_append, writeAll, ih]
    rcases afeWriteReg p w s with ⟨_ | _, _⟩ <;> rfl

/-- Bursts one after another, in two parts. -/
theorem readBlocks_append (p : Nat) (bs more : List Burst) (s : State) :
    readBlocks p (bs ++ more) s =
      (readBlocks p bs s).andThen fun l1 s1 => (readBlocks p more s1).andThen fun l2 s2 => Run.pure (l1 ++ l2) s2 := by
  induction bs generalizing s with
  | nil => simp only [List.nil_append, readBlocks, Run.andThen_pure]; rcases readBlocks p more s with ⟨_ | _, _⟩ <;> rfl
  | cons b bs ih =>
    simp only [List.cons_append, readBlocks, ih]
    rcases afeRead p b.addr b.count s with ⟨_ | _, t⟩
    · simp only [Run.andThen_ok]
      rcases readBlocks p bs t with ⟨_ | _, u⟩
      · simp only [Run.andThen_ok, Run.andThen_pure]
        rcases readBlocks p more u with ⟨_ | _, _⟩ <;> rfl
      · rfl
    · rfl

/-- Writes that the environment acknowledges. -/
theorem writeAll_scripted {p : Nat} {ws : List RegWrite} {acks : List (List Byte)} {drives : List Bool}
    {answers : List BusAnswer} {s : State} (hp : p < 2 ^ s.par.nsel) (ha : ws.all (fun w => addressOk w.addr) = true)
    (hk : Acks ws acks) (hs : Script acks drives answers s) :
    writeAll p ws s =
      ⟨.ok (), { s with sel := linesAfter ws.length p s, trace := s.trace ++ writeEvents s.par.crcPoly p ws acks,
                        env := envAfter s drives answers }⟩ := by
  induction ws generalizing acks s with
  | nil =>
    obtain ⟨hl, _⟩ := hk
    obtain rfl := List.length_eq_zero_iff.1 hl
    obtain ⟨h1, h2⟩ := hs
    simp only [List.length_nil, List.replicate_zero, List.nil_append, List.map_nil] at h1 h2
    subst h1 h2
    simp [writeAll, Run.pure, linesAfter, writeEvents, envAfter]
  | cons w ws ih =>
    obtain ⟨hl, h4⟩ := hk
    cases acks with
    | nil => simp at hl
    | cons ack acks =>
      obtain ⟨h1, h2⟩ := hs
      simp only [List.length_cons, List.replicate_succ, List.cons_append, List.map_cons] at h1 h2
      simp only [List.all_cons, Bool.and_eq_true] at ha
      simp only [writeAll, afeWriteReg, afeWrite_scripted hp ha.1 (h4 ack (by simp)) h1 h2, Run.andThen_ok]
      rw [ih (acks := acks)]
      · cases ws <;> simp [linesAfter, writeEvents, envAfter, transaction]
      · exact hp
      · exact ha.2
      · exact ⟨by simpa using hl, fun a h => h4 a (by simp [h])⟩
      · exact ⟨rfl, rfl⟩

/-- Bursts that the environment answers. -/
theorem readBlocks_scripted {p : Nat} {bs : List Burst} {rs : List Resp} {drives : List Bool}
    {answers : List BusAnswer} {s : State} (hp : p < 2 ^ s.par.nsel) (hb : bs.all burstValid = true)
    (hf : Fits bs rs) (hs : Script (respBytes s.par.crcPoly rs) drives answers s) :
    readBlocks p bs s =
      ⟨.ok (rs.map Resp.ws), { s with sel := linesAfter bs.length p s,
                                      trace := s.trace ++ readEvents s.par.crcPoly p bs rs,
                                      env := envAfter s drives answers }⟩ := by
  induction bs generalizing rs s with
  | nil =>
    cases rs with
    | cons r rs => simp [Fits] at hf
    | nil =>
      obtain ⟨h1, h2⟩ := hs
      simp only [respBytes, List.map_nil, List.length_nil, List.replicate_zero, List.nil_append] at h1 h2
      subst h1 h2
      simp [readBlocks, Run.pure, linesAfter, readEvents, envAfter]
  | cons b bs ih =>
    cases rs with
    | nil => simp [Fits] at hf
    | cons r rs =>
      obtain ⟨h1, h2⟩ := hs
      simp only [respBytes, List.map_cons, List.length_cons, List.replicate_succ, List.cons_append] at h1 h2
      simp only [List.all_cons, Bool.and_eq_true, burstValid] at hb
      obtain ⟨hf1, hf2⟩ := hf
      simp only [readBlocks, afeRead_scripted hp hb.1.1 hb.1.2 hf1 h1 h2, Run.andThen_ok]
      rw [ih (rs := rs)]
      · cases bs <;> simp [Run.pure, linesAfter, readEvents, envAfter, transaction]
      · exact hp
      · simpa [burstValid] using hb.2
      · exact hf2
      · exact ⟨rfl, rfl⟩

/-- `READ_STATUS` answered. -/
theorem readStatus_scripted {p : Nat} {e0 e1 : Byte} {w : Word} {ds : List Bool} {as : List BusAnswer} {s : State}
    (hp : p < 2 ^ s.par.nsel) (ha : addressOk s.par.profile.statusAddr = true)
    (hs : Script [rsFrame s.par.crcPoly e0 e1 [w]] ds as s) :
    readStatus p s = ⟨.ok (pwrCodeOf s.par.profile w), { s with
      sel := selLines s.par.nsel p,
      trace := s.trace ++ transaction p (rdFrame s.par.profile.statusAddr 1) (rsFrame s.par.crcPoly e0 e1 [w]),
      env := envAfter s ds as }⟩ := by
  obtain ⟨h1, h2⟩ := hs
  simp only [readStatus, afeRead_scripted (r := ⟨e0, e1, [w]⟩) hp ha (n := 1) rfl rfl h1 h2, Run.andThen_ok]
  rfl

/-- `READ_CELLS` answered. -/
theorem readCells_scripted {p : Nat} {rs : List Resp} {ds : List Bool} {as : List BusAnswer} {s : State}
    (hp : p < 2 ^ s.par.nsel) (hb : s.par.profile.cellBlocks.all burstValid = true)
    (hf : Fits s.par.profile.cellBlocks rs) (hs : Script (respBytes s.par.crcPoly rs) ds as s) :
    readCells p s = ⟨.ok (cellSamples s p (rs.map Resp.ws).flatten), { s with
      sel := linesAfter s.par.profile.cellBlocks.length p s,
      trace := s.trace ++ readEvents s.par.crcPoly p s.par.profile.cellBlocks rs,
      env := envAfter s ds as }⟩ := by
  simp only [readCells, readBlocks_scripted hp hb hf hs, Run.andThen_ok]
  rfl

/-- `READ_TELEMETRY` answered. -/
theorem readTelemetry_scripted {p : Nat} {rs : List Resp} {ds : List Bool} {as : List BusAnswer} {s : State}
    (hp : p < 2 ^ s.par.nsel) (hb : s.par.profile.telemBlocks.all burstValid = true)
    (hf : Fits s.par.profile.telemBlocks rs) (hs : Script (respBytes s.par.crcPoly rs) ds as s) :
    readTelemetry p s = ⟨.ok (), { s.setTel p (commitTelemetry s.par (s.cfg p) (rs.map Resp.ws) (s.tel p)) with
      sel := linesAfter s.par.profile.telemBlocks.length p s,
      trace := s.trace ++ readEvents s.par.crcPoly p s.par.profile.telemBlocks rs,
      env := envAfter s ds as }⟩ := by
  simp only [readTelemetry, readBlocks_scripted hp hb hf hs, Run.andThen_ok]
  rfl

end Sys2Proof.Machine
end

