-- ==== Sys2Proof/Laws/Frames.lean ====
section
/-! SUPPORT. What an operation of a pack can change, and the relations the supervisor's lemmas compose: `BusOf` for the
transactions of one pack, `Serves` for a whole operation, `Quiet` for an operation up to its commit. -/

namespace Sys2Proof.Safety

open Sys2Proof.Machine

/-! ## Events of one pack -/

theorem OwnBus.any {p : Nat} {es : List Event} (h : OwnBus p false es) (b : Bool) : OwnBus p b es := by
  cases es with
  | nil => trivial
  | cons e es =>
    cases e with
    | sel i ok => exact h
    | xfer d tx a => exact absurd h.1 (by simp)
    | report q c k => exact h

theorem OwnBus.append {p : Nat} {es fs : List Event} {b : Bool} (h1 : OwnBus p b es) (h2 : OwnBus p false fs) :
    OwnBus p b (es ++ fs) := by
  induction es generalizing b with
  | nil => exact h2.any b
  | cons e es ih =>
    cases e with
    | sel i ok => exact ⟨h1.1, ih h1.2⟩
    | xfer d tx a => exact ⟨h1.1, h1.2.1, ih h1.2.2⟩
    | report q c k => exact ⟨h1.1, ih h1.2⟩

/-- `t` is `s` after bus transactions of pack `p`. -/
structure BusOf (p : Nat) (s t : State) : Prop where
  only : BusOnly s t
  events : ∃ es, t.trace = s.trace ++ es ∧ es.all busEvent = true ∧ (p < 2 ^ s.par.nsel → OwnBus p false es)
  lines : s.sel.length = s.par.nsel → t.sel.length = s.par.nsel

theorem BusOf.refl (p : Nat) (s : State) : BusOf p s s :=
  ⟨BusOnly.refl s, ⟨[], by simp, rfl, fun _ => trivial⟩, id⟩

theorem BusOf.trans {p : Nat} {s t u : State} (h1 : BusOf p s t) (h2 : BusOf p t u) : BusOf p s u := by
  obtain ⟨e1, a1, b1, c1⟩ := h1.events
  obtain ⟨e2, a2, b2, c2⟩ := h2.events
  refine ⟨h1.only.trans h2.only, ⟨e1 ++ e2, by simp [a2, a1], by simp [b1, b2], fun hp => ?_⟩, fun hl => ?_⟩
  · exact (c1 hp).append (c2 (by rwa [h1.only.par]))
  · rw [← h1.only.par]; exact h2.lines (by rw [h1.only.par]; exact h1.lines hl)

/-- An event that reports no abort. -/
def noAbort : Event → Bool
  | .report _ _ (.err _) => false
  | _ => true

theorem noAbort_of_busEvent {es : List Event} (h : es.all busEvent = true) : es.all noAbort = true := by
  rw [List.all_eq_true] at *
  intro e he
  have := h e he
  cases e <;> simp_all [noAbort, busEvent]

/-- What an operation of pack `p` can change, whatever its outcome. -/
structure Serves (p : Nat) (s t : State) : Prop where
  par : t.par = s.par
  packs : ∃ tel, t.packs = s.packs.set p { s.pack p with tel := tel }
  cur : t.cur = s.cur
  sync : t.sync = s.sync
  shutdown : t.shutdown = s.shutdown
  halted : t.halted = s.halted
  vbus : t.vbus = s.vbus
  request : t.request = s.request
  events : ∃ es, t.trace = s.trace ++ es ∧ es.all noAbort = true ∧ (p < 2 ^ s.par.nsel → OwnBus p false es)
  lines : s.sel.length = s.par.nsel → t.sel.length = s.par.nsel
  buf : s.diagBuf.length = 3 * s.par.ncell → t.diagBuf.length = 3 * s.par.ncell
  wf : TelWf s.par.ncell p (s.tel p) → TelWf s.par.ncell p (t.tel p)

theorem set_pack_self (s : State) (p : Nat) : s.packs.set p (s.pack p) = s.packs := by
  by_cases h : p < s.packs.length
  · rw [s.pack_eq p h]; simp
  · exact List.set_eq_of_length_le (by omega)

theorem Serves.length {p : Nat} {s t : State} (h : Serves p s t) : t.packs.length = s.packs.length := by
  obtain ⟨tel, ht⟩ := h.packs; simp [ht]

theorem pack_of_packs {s t : State} (h : t.packs = s.packs) (q : Nat) : t.pack q = s.pack q := by
  simp [State.pack, h]

theorem pack_of_set {p : Nat} {s t : State} {k : Pack} (h : t.packs = s.packs.set p k) (q : Nat) :
    t.pack q = if q = p ∧ p < s.packs.length then k else s.pack q := by
  simp only [State.pack, h, List.getD_eq_getElem?_getD, List.getElem?_set]
  by_cases hq : p = q
  · subst hq
    by_cases hp : p < s.packs.length
    · simp [hp]
    · simp [hp]
  · simp [hq, Ne.symm hq]

theorem Serves.other {p : Nat} {s t : State} (h : Serves p s t) (q : Nat) (hq : q ≠ p) : t.pack q = s.pack q := by
  obtain ⟨tel, ht⟩ := h.packs
  rw [pack_of_set ht]; simp [hq]

theorem Serves.cmd {p : Nat} {s t : State} (h : Serves p s t) (q : Nat) : t.cmd q = s.cmd q := by
  obtain ⟨tel, ht⟩ := h.packs
  unfold State.cmd; rw [pack_of_set ht]; split
  · next hq => rw [hq.1]
  · rfl

theorem Serves.cfg {p : Nat} {s t : State} (h : Serves p s t) (q : Nat) : t.cfg q = s.cfg q := by
  obtain ⟨tel, ht⟩ := h.packs
  unfold State.cfg; rw [pack_of_set ht]; split
  · next hq => rw [hq.1]
  · rfl

theorem Serves.sanity {p : Nat} {s t : State} (h : Serves p s t) (q : Nat) :
    (t.pack q).sanityTrigger = (s.pack q).sanityTrigger := by
  obtain ⟨tel, ht⟩ := h.packs
  rw [pack_of_set ht]; split
  · next hq => rw [hq.1]
  · rfl

theorem Serves.refl (p : Nat) (s : State) : Serves p s s :=
  ⟨rfl, ⟨s.tel p, (set_pack_self s p).symm⟩, rfl, rfl, rfl, rfl, rfl, rfl,
    ⟨[], by simp, rfl, fun _ => trivial⟩, id, id, id⟩

theorem Serves.trans {p : Nat} {s t u : State} (h1 : Serves p s t) (h2 : Serves p t u) : Serves p s u := by
  obtain ⟨k1, hk1⟩ := h1.packs
  obtain ⟨k2, hk2⟩ := h2.packs
  obtain ⟨e1, a1, b1, c1⟩ := h1.events
  obtain ⟨e2, a2, b2, c2⟩ := h2.events
  refine ⟨h2.par.trans h1.par, ⟨k2, ?_⟩, h2.cur.trans h1.cur, h2.sync.trans h1.sync, h2.shutdown.trans h1.shutdown,
    h2.halted.trans h1.halted, h2.vbus.trans h1.vbus, h2.request.trans h1.request,
    ⟨e1 ++ e2, by simp [a2, a1], by simp [b1, b2], fun hp => (c1 hp).append (c2 (by rwa [h1.par]))⟩, ?_, ?_, ?_⟩
  · rw [hk2, hk1, List.set_set, pack_of_set hk1]
    by_cases hp : p < s.packs.length
    · simp [hp]
    · simp [hp]
  · intro h; rw [← h1.par]; exact h2.lines (by rw [h1.par]; exact h1.lines h)
  · intro h; rw [← h1.par]; exact h2.buf (by rw [h1.par]; exact h1.buf h)
  · intro h; rw [← h1.par]; exact h2.wf (by rw [h1.par]; exact h1.wf h)

/-- What an operation of pack `p` can change before its commit: neither the state register nor the lock, and no report. -/
structure Quiet (p : Nat) (s t : State) : Prop extends Serves p s t where
  code : (t.tel p).state = (s.tel p).state
  lock : t.diagLock = s.diagLock
  silent : ∃ es, t.trace = s.trace ++ es ∧ es.all busEvent = true
  result : t.result = s.result

theorem Quiet.refl (p : Nat) (s : State) : Quiet p s s :=
  ⟨Serves.refl p s, rfl, rfl, ⟨[], by simp, rfl⟩, rfl⟩

theorem Quiet.trans {p : Nat} {s t u : State} (h1 : Quiet p s t) (h2 : Quiet p t u) : Quiet p s u := by
  obtain ⟨e1, a1, b1⟩ := h1.silent
  obtain ⟨e2, a2, b2⟩ := h2.silent
  exact ⟨h1.toServes.trans h2.toServes, h2.code.trans h1.code, h2.lock.trans h1.lock,
    ⟨e1 ++ e2, by simp [a2, a1], by simp [b1, b2]⟩, h2.result.trans h1.result⟩

theorem BusOf.quiet {p : Nat} {s t : State} (h : BusOf p s t) : Quiet p s t := by
  obtain ⟨es, a, b, c⟩ := h.events
  have o := h.only
  refine ⟨⟨o.par, ⟨s.tel p, ?_⟩, o.cur, o.sync, o.shutdown, o.halted, o.vbus, o.request,
    ⟨es, a, noAbort_of_busEvent b, c⟩, h.lines, ?_, ?_⟩,
    by rw [o.tel], o.diagLock, ⟨es, a, b⟩, o.result⟩
  · rw [o.packs]; exact (set_pack_self s p).symm
  · intro hl; rw [o.diagBuf]; exact hl
  · intro hw; rw [o.tel]; exact hw

/-- Writing the telemetry record of pack `p` serves pack `p`, if the record stays well formed. -/
theorem Serves.setTel (p : Nat) (s : State) (t : Telemetry)
    (hw : p < s.packs.length → TelWf s.par.ncell p (s.tel p) → TelWf s.par.ncell p t) : Serves p s (s.setTel p t) := by
  refine ⟨rfl, ⟨t, rfl⟩, rfl, rfl, rfl, rfl, rfl, rfl,
    ⟨[], by simp, rfl, fun _ => trivial⟩, id, id, ?_⟩
  intro h
  by_cases hp : p < s.packs.length
  · rw [s.tel_setTel_self p t hp]; exact hw hp h
  · have : (s.setTel p t).packs = s.packs := by simp [List.set_eq_of_length_le (Nat.le_of_not_lt hp)]
    unfold State.tel; rw [pack_of_packs this]; exact h

theorem tel_setTel_state {s : State} {p : Nat} {t : Telemetry} (h : t.state = (s.tel p).state) :
    ((s.setTel p t).tel p).state = (s.tel p).state := by
  by_cases hp : p < s.packs.length
  · rw [s.tel_setTel_self p t hp, h]
  · have : (s.setTel p t).packs = s.packs := by simp [List.set_eq_of_length_le (Nat.le_of_not_lt hp)]
    unfold State.tel; rw [pack_of_packs this]

theorem Quiet.setTel (p : Nat) (s : State) (t : Telemetry) (hs : t.state = (s.tel p).state)
    (hw : TelWf s.par.ncell p (s.tel p) → TelWf s.par.ncell p t) : Quiet p s (s.setTel p t) :=
  ⟨Serves.setTel p s t fun _ => hw, tel_setTel_state hs, rfl, ⟨[], by simp, rfl⟩, rfl⟩

theorem Serves.packOnly {p : Nat} {s t : State} (h : Serves p s t) (r : OpResult) : PackOnly p s (t.setResult r) := by
  obtain ⟨tel, ht⟩ := h.packs
  obtain ⟨es, he, _⟩ := h.events
  refine ⟨tel, t.diagLock, t.diagBuf, t.sel, es, t.env, r, ?_⟩
  obtain ⟨a, b, c, d, e, f, g, i, j, k, l, m, n, o⟩ := t
  have := h.par; have := h.cur; have := h.sync; have := h.shutdown; have := h.halted; have := h.vbus; have := h.request
  simp_all [State.setResult]

theorem Serves.packOnly_abort {p : Nat} {s t : State} (h : Serves p s t) (code : BitVec 4) (k : ErrKind) :
    PackOnly p s (takeAbort p code k t) := by
  obtain ⟨tel, lock, buf, lines, es, env, r, ht⟩ := h.packOnly t.result
  have ht : t = _ := ht
  refine ⟨tel, lock, buf, lines, es ++ [.report p code (.err k)], env, .aborted k, ?_⟩
  rw [ht]
  simp [takeAbort, State.emit, State.setResult]

end Sys2Proof.Safety

namespace Sys2Proof.Machine

open Sys2Proof.Safety

/-! ## Replies again -/

/-- A failing whole keeps what its first part establishes and the rest keeps on failure. -/
theorem Run.andThen_err_keeps {α β : Type} {r : Run α} {f : α → State → Run β} {P : State → Prop} {k : ErrKind}
    (h : (r.andThen f).reply = .err k) (h1 : P r.state)
    (h2 : ∀ a t, P t → (f a t).reply = .err k → P (f a t).state) : P (r.andThen f).state := by
  rcases r with ⟨a | j, s⟩
  · exact h2 a s h1 h
  · exact h1

/-- A failing whole failed in its first part or in the rest. -/
theorem Run.andThen_err_iff {α β : Type} (r : Run α) (f : α → State → Run β) (k : ErrKind) :
    (r.andThen f).reply = .err k ↔ r.reply = .err k ∨ ∃ a, r.reply = .ok a ∧ (f a r.state).reply = .err k := by
  rcases r with ⟨a | j, s⟩ <;> simp [Run.andThen]

/-! ## Transactions of one pack -/

theorem busOf_andThen {α β : Type} {p : Nat} {s : State} {r : Run α} {f : α → State → Run β}
    (h1 : BusOf p s r.state) (h2 : ∀ a t, BusOf p t (f a t).state) : BusOf p s (r.andThen f).state :=
  Run.andThen_keeps (P := BusOf p s) h1 fun a t ht => ht.trans (h2 a t)

/-- A select, then one transfer: the two operations a transaction is made of. -/
theorem transaction_busOf {α : Type} {p : Nat} {s : State} {f : Unit → State → Run α}
    (hf : ∀ t, (f () t).state = t ∨ ∃ tx a n, (f () t).state = { t with trace := t.trace ++ [.xfer (lineIndex t.sel) tx a], env := n }) :
    BusOf p s ((select p s).andThen f).state := by
  rcases select_cases p s with ⟨_, h⟩ | ⟨hp, n, h⟩ | ⟨hp, n, k, h⟩
  · rw [h]; exact BusOf.refl p s
  · rw [h, Run.andThen_ok]
    rcases hf { s with sel := selLines s.par.nsel p, trace := s.trace ++ [.sel p true], env := n } with h2 | ⟨tx, a, m, h2⟩
    · rw [h2]
      exact ⟨⟨selLines s.par.nsel p, [.sel p true], n, rfl⟩, ⟨[.sel p true], rfl, rfl, fun _ => ⟨rfl, trivial⟩⟩, fun _ => by simp⟩
    · rw [h2]
      refine ⟨⟨selLines s.par.nsel p, [.sel p true, .xfer (lineIndex (selLines s.par.nsel p)) tx a], m, by simp⟩,
        ⟨[.sel p true, .xfer (lineIndex (selLines s.par.nsel p)) tx a], by simp, rfl, fun hp => ?_⟩, fun _ => by simp⟩
      rw [lineIndex_selLines hp]
      exact ⟨rfl, rfl, rfl, trivial⟩
  · rw [h, Run.andThen_err]
    exact ⟨⟨_, _, _, rfl⟩, ⟨[.sel p false], rfl, rfl, fun _ => ⟨rfl, trivial⟩⟩, fun _ => by simp⟩

theorem afeWrite_busOf (p a : Nat) (v : Word) (s : State) : BusOf p s (afeWrite p a v s).state := by
  refine transaction_busOf fun t => ?_
  rcases wrreg_cases a v t with ⟨_, h⟩ | ⟨_, ans, n, h⟩
  · left; rw [h]
  · right; exact ⟨_, ans, n, by rw [h]⟩

theorem afeWriteReg_busOf (p : Nat) (w : RegWrite) (s : State) : BusOf p s (afeWriteReg p w s).state :=
  afeWrite_busOf p _ _ s

theorem afeRead_busOf (p a n : Nat) (s : State) : BusOf p s (afeRead p a n s).state := by
  unfold afeRead
  split
  · exact BusOf.refl p s
  · refine transaction_busOf fun t => ?_
    rcases rdreg_cases a n t with ⟨_, h⟩ | ⟨_, ans, env, r, h, _⟩
    · left; rw [h]
    · right; exact ⟨_, ans, env, by rw [h]⟩

theorem writeAll_busOf (p : Nat) (ws : List RegWrite) (s : State) : BusOf p s (writeAll p ws s).state := by
  induction ws generalizing s with
  | nil => exact BusOf.refl p s
  | cons w ws ih => exact busOf_andThen (afeWriteReg_busOf p w s) fun _ t => ih t

theorem readBlocks_busOf (p : Nat) (bs : List Burst) (s : State) : BusOf p s (readBlocks p bs s).state := by
  induction bs generalizing s with
  | nil => exact BusOf.refl p s
  | cons b bs ih =>
    exact busOf_andThen (afeRead_busOf p _ _ s) fun _ t => busOf_andThen (ih t) fun _ u => BusOf.refl p u

theorem readStatus_busOf (p : Nat) (s : State) : BusOf p s (readStatus p s).state :=
  busOf_andThen (afeRead_busOf p _ _ s) fun _ t => BusOf.refl p t

theorem readCells_busOf (p : Nat) (s : State) : BusOf p s (readCells p s).state :=
  busOf_andThen (readBlocks_busOf p _ s) fun _ t => BusOf.refl p t

theorem balance_busOf (p : Nat) (s : State) : BusOf p s (balance p s).state :=
  busOf_andThen (afeWriteReg_busOf p _ s) fun _ t => BusOf.refl p t

end Sys2Proof.Machine
end

