-- ==== Sys2Proof/Laws/Supervisor.lean ====
section
/-! SUPPORT. What each operation of the supervisor can do: what it serves, what it has done when it fails, which state codes
it can write, and what it leaves of the telemetry record. -/

namespace Sys2Proof.Safety

open Sys2Proof.Machine

/-- An operation of pack `p` that leaves the lock alone and writes no state code outside `l`. -/
structure Moves (p : Nat) (l : List (BitVec 4)) (s t : State) : Prop extends Serves p s t where
  lock : t.diagLock = s.diagLock
  codes : (t.tel p).state = (s.tel p).state ∨ (t.tel p).state ∈ l

theorem Quiet.moves {p : Nat} {s t : State} (h : Quiet p s t) (l : List (BitVec 4)) : Moves p l s t :=
  ⟨h.toServes, h.lock, .inl h.code⟩

theorem Quiet.thenMoves {p : Nat} {l : List (BitVec 4)} {s t u : State} (h1 : Quiet p s t) (h2 : Moves p l t u) :
    Moves p l s u :=
  ⟨h1.toServes.trans h2.toServes, h2.lock.trans h1.lock, h2.codes.imp (fun h => h.trans h1.code) id⟩

theorem Moves.weaken {p : Nat} {l m : List (BitVec 4)} {s t : State} (h : Moves p l s t) (hs : l ⊆ m) : Moves p m s t :=
  ⟨h.toServes, h.lock, h.codes.imp id fun h => hs h⟩

theorem TelWf.setState {n p : Nat} {t : Telemetry} (h : TelWf n p t) {c : BitVec 4} (hc : c.toNat ≤ 13) :
    TelWf n p { t with state := c } :=
  ⟨h.ident, hc, h.reservedBits, h.capacity, h.health, h.cycles, h.cells, h.cellOv, h.cellUv⟩

theorem TelWf.setDrive {n p : Nat} {t : Telemetry} (h : TelWf n p t) (d : BitVec 3) :
    TelWf n p { t with mosfetDrive := d } :=
  ⟨h.ident, h.code, h.reservedBits, h.capacity, h.health, h.cycles, h.cells, h.cellOv, h.cellUv⟩

theorem TelWf.setAlerts {n p : Nat} {t : Telemetry} (h : TelWf n p t) {a : BitVec 32}
    (ha : ∀ n, 22 ≤ n → a.getLsbD n = false) : TelWf n p { t with swAlerts := a } :=
  ⟨h.ident, h.code, ha, h.capacity, h.health, h.cycles, h.cells, h.cellOv, h.cellUv⟩

theorem tel_setTel_cases (s : State) (p : Nat) (t : Telemetry) :
    (s.setTel p t).tel p = t ∨ (s.setTel p t).tel p = s.tel p := by
  by_cases hp : p < s.packs.length
  · exact .inl (s.tel_setTel_self p t hp)
  · right
    have : (s.setTel p t).packs = s.packs := by simp [List.set_eq_of_length_le (Nat.le_of_not_lt hp)]
    unfold State.tel; rw [pack_of_packs this]

theorem Serves.setCode (p : Nat) (s : State) {c : BitVec 4} (hc : c.toNat ≤ 13) : Serves p s (s.setCode p c) :=
  Serves.setTel p s _ fun _ h => h.setState hc

theorem Moves.setCode (p : Nat) (s : State) {c : BitVec 4} {l : List (BitVec 4)} (hc : c.toNat ≤ 13) (hl : c ∈ l) :
    Moves p l s (s.setCode p c) := by
  refine ⟨Serves.setCode p s hc, rfl, ?_⟩
  rcases tel_setTel_cases s p { s.tel p with state := c } with h | h
  · right; show ((s.setTel p _).tel p).state ∈ l; rw [h]; exact hl
  · left; show ((s.setTel p _).tel p).state = _; rw [h]

theorem Quiet.setDrive (p : Nat) (s : State) (d : BitVec 3) : Quiet p s (s.setDrive p d) :=
  Quiet.setTel p s _ rfl fun h => h.setDrive d

theorem Quiet.storeSamples (p k : Nat) (v : List Q) (s : State) : Quiet p s (storeSamples k v s) :=
  ⟨⟨rfl, ⟨s.tel p, (set_pack_self s p).symm⟩, rfl, rfl, rfl, rfl, rfl, rfl,
    ⟨[], by simp, rfl, fun _ => trivial⟩, id,
    fun _ => by simp [writeSamples], id⟩, rfl, rfl, ⟨[], by simp, rfl⟩, rfl⟩

theorem Serves.report (p : Nat) (c : BitVec 4) (k : ReportKind) (s : State) (hk : ∀ j, k ≠ .err j) :
    Serves p s (s.emit (.report p c k)) :=
  ⟨rfl, ⟨s.tel p, (set_pack_self s p).symm⟩, rfl, rfl, rfl, rfl, rfl, rfl,
    ⟨[.report p c k], rfl, by cases k <;> simp_all [noAbort], fun _ => ⟨rfl, trivial⟩⟩, id, id, id⟩

theorem Serves.freeDiagBuf (p : Nat) (s : State) : Serves p s (freeDiagBuf s) :=
  ⟨rfl, ⟨s.tel p, (set_pack_self s p).symm⟩, rfl, rfl, rfl, rfl, rfl, rfl,
    ⟨[], by simp, rfl, fun _ => trivial⟩, id,
    fun _ => by simp, id⟩

theorem Serves.lock (p : Nat) (s : State) (l : Option Nat) : Serves p s { s with diagLock := l } :=
  ⟨rfl, ⟨s.tel p, (set_pack_self s p).symm⟩, rfl, rfl, rfl, rfl, rfl, rfl,
    ⟨[], by simp, rfl, fun _ => trivial⟩, id, id, id⟩

/-- The telemetry record of pack `p` after an operation that is no run body: state code, drive (only ever to 0) and alerts
may have changed, nothing else. -/
def Small (p : Nat) (s t : State) : Prop :=
  ∃ c d a, t.tel p = { s.tel p with state := c, mosfetDrive := d, swAlerts := a } ∧ (d = (s.tel p).mosfetDrive ∨ d = 0)

theorem Small.of_eq {p : Nat} {s t : State} (h : t.tel p = s.tel p) : Small p s t :=
  ⟨_, _, _, h, .inl rfl⟩

theorem Small.trans {p : Nat} {s t u : State} (h1 : Small p s t) (h2 : Small p t u) : Small p s u := by
  obtain ⟨c1, d1, a1, e1, f1⟩ := h1
  obtain ⟨c2, d2, a2, e2, f2⟩ := h2
  refine ⟨c2, d2, a2, by rw [e2, e1], ?_⟩
  rw [e1] at f2
  rcases f2 with h | h
  · rw [h]; exact f1
  · exact .inr h

theorem BusOf.small {p : Nat} {s t : State} (h : BusOf p s t) : Small p s t := Small.of_eq (h.only.tel p)

theorem Small.setCode (p : Nat) (s : State) (c : BitVec 4) : Small p s (s.setCode p c) := by
  rcases tel_setTel_cases s p { s.tel p with state := c } with h | h
  · exact ⟨c, _, _, h, .inl rfl⟩
  · exact Small.of_eq h

theorem Small.setDriveOff (p : Nat) (s : State) : Small p s (s.setDrive p 0) := by
  rcases tel_setTel_cases s p { s.tel p with mosfetDrive := 0 } with h | h
  · exact ⟨_, 0, _, h, .inr rfl⟩
  · exact Small.of_eq h

theorem Small.setAlerts (p : Nat) (s : State) (a : BitVec 32) : Small p s (s.setAlerts p a) := by
  rcases tel_setTel_cases s p { s.tel p with swAlerts := a } with h | h
  · exact ⟨_, _, a, h, .inl rfl⟩
  · exact Small.of_eq h

end Sys2Proof.Safety

namespace Sys2Proof.Machine

open Sys2Proof.Safety

/-! ## Composition -/

theorem serves_andThen {α β : Type} {p : Nat} {s : State} {r : Run α} {f : α → State → Run β}
    (h1 : Serves p s r.state) (h2 : ∀ a t, Serves p t (f a t).state) : Serves p s (r.andThen f).state :=
  Run.andThen_keeps (P := Serves p s) h1 fun a t ht => ht.trans (h2 a t)

theorem quiet_andThen {α β : Type} {p : Nat} {s : State} {r : Run α} {f : α → State → Run β}
    (h1 : Quiet p s r.state) (h2 : ∀ a t, Quiet p t (f a t).state) : Quiet p s (r.andThen f).state :=
  Run.andThen_keeps (P := Quiet p s) h1 fun a t ht => ht.trans (h2 a t)

theorem small_andThen {α β : Type} {p : Nat} {s : State} {r : Run α} {f : α → State → Run β}
    (h1 : Small p s r.state) (h2 : ∀ a t, Small p t (f a t).state) : Small p s (r.andThen f).state :=
  Run.andThen_keeps (P := Small p s) h1 fun a t ht => ht.trans (h2 a t)

/-- What follows a quiet part decides what the whole moves. -/
theorem moves_andThen {α β : Type} {p : Nat} {l : List (BitVec 4)} {s : State} {r : Run α} {f : α → State → Run β}
    (h1 : Quiet p s r.state) (h2 : ∀ a t, Moves p l t (f a t).state) : Moves p l s (r.andThen f).state := by
  rcases r with ⟨a | k, u⟩
  · exact Quiet.thenMoves h1 (h2 a u)
  · exact Quiet.moves h1 l

/-- An operation that fails has been quiet. -/
def FailsQuietly {α : Type} (p : Nat) (s : State) (r : Run α) : Prop := ∀ k, r.reply = .err k → Quiet p s r.state

theorem failsQuietly_andThen {α β : Type} {p : Nat} {s : State} {r : Run α} {f : α → State → Run β}
    (h1 : Quiet p s r.state) (h2 : ∀ a t, FailsQuietly p t (f a t)) : FailsQuietly p s (r.andThen f) := by
  intro k h
  rcases r with ⟨a | j, u⟩
  · exact Quiet.trans h1 (h2 a u k h)
  · exact h1

theorem failsQuietly_pure {α : Type} (p : Nat) (s t : State) (a : α) : FailsQuietly p s (Run.pure a t) := by
  intro k h; simp at h

theorem failsQuietly_of_quiet {α : Type} {p : Nat} {s : State} {r : Run α} (h : Quiet p s r.state) : FailsQuietly p s r :=
  fun _ _ => h

/-! ## Alerts and telemetry -/

theorem alertBit_high (n k : Nat) (b : Bool) (hn : n < 22) (hk : 22 ≤ k) : (alertBit n b).getLsbD k = false := by
  cases b
  · simp [alertBit]
  · simp only [alertBit, ↓reduceIte, BitVec.getLsbD_ofNat, Nat.testBit_two_pow]
    simp; omega

theorem foldl_alerts_high (conds : List (Nat × Bool)) (h : ∀ c ∈ conds, c.1 < 22) (a : BitVec 32) (k : Nat) (hk : 22 ≤ k)
    (ha : a.getLsbD k = false) : (conds.foldl (fun a c => a ||| alertBit c.1 c.2) a).getLsbD k = false := by
  induction conds generalizing a with
  | nil => exact ha
  | cons c cs ih =>
    refine ih (fun c hc => h c (by simp [hc])) _ ?_
    simp [ha, alertBit_high c.1 k c.2 (h c (by simp)) hk]

theorem newAlerts_high (par : Params) (t : Telemetry) (g : PackConfig) (k : Nat) (hk : 22 ≤ k)
    (h : t.swAlerts.getLsbD k = false) : (newAlerts par t g).getLsbD k = false := by
  have h1 : (latchedAlerts (latchConditions par t g)).getLsbD k = false :=
    foldl_alerts_high _ (by simp [latchConditions]) 0 k hk (by simp)
  have h2 : (copiedAlerts t.hw).getLsbD k = false := by
    simp [copiedAlerts, alertBit_high 0 k _ (by omega) hk, alertBit_high 1 k _ (by omega) hk]
  simp [newAlerts, h, h1, h2]

theorem TelWf.commit {par : Params} {p : Nat} {g : PackConfig} {bs : List (List Word)} {t : Telemetry}
    (h : TelWf par.ncell p t) : TelWf par.ncell p (commitTelemetry par g bs t) :=
  ⟨h.ident, h.code, h.reservedBits, h.capacity, h.health, h.cycles, by simp [commitTelemetry],
    by simp [commitTelemetry, decodeHw], by simp [commitTelemetry, decodeHw]⟩

theorem readTelemetry_quiet (p : Nat) (s : State) : Quiet p s (readTelemetry p s).state :=
  quiet_andThen (readBlocks_busOf p _ s).quiet fun _ t => Quiet.setTel p t _ rfl TelWf.commit

theorem limits_quiet (p : Nat) (s : State) : Quiet p s (limits p s) :=
  Quiet.setTel p s _ rfl fun h =>
    ⟨h.ident, h.code, h.reservedBits, h.capacity, h.health, h.cycles, h.cells, h.cellOv, h.cellUv⟩

theorem i2t_quiet (p : Nat) (s : State) : Quiet p s (i2t p s) :=
  Quiet.setTel p s _ rfl fun h =>
    ⟨h.ident, h.code, h.reservedBits, h.capacity, h.health, h.cycles, h.cells, h.cellOv, h.cellUv⟩

theorem alerts_quiet (p : Nat) (s : State) : Quiet p s (alerts p s) :=
  Quiet.setTel p s _ rfl fun h => h.setAlerts fun k hk => newAlerts_high _ _ _ k hk (h.reservedBits k hk)

theorem clearAlerts_quiet (p : Nat) (s : State) : Quiet p s (s.setAlerts p 0) :=
  Quiet.setTel p s _ rfl fun h => h.setAlerts fun k _ => by simp

theorem alertClear_quiet (p : Nat) (c : Cmd) (s : State) : Quiet p s (alertClear p c s) := by
  unfold alertClear; split
  · exact clearAlerts_quiet p s
  · exact Quiet.refl p s

theorem runStages_quiet (p : Nat) (c : Cmd) (s : State) : Quiet p s (runStages p c s) :=
  (((alertClear_quiet p c s).trans (limits_quiet p _)).trans (i2t_quiet p _)).trans (alerts_quiet p _)

theorem balanceIfDue_busOf (p : Nat) (s : State) : BusOf p s (balanceIfDue p s).state := by
  unfold balanceIfDue; split
  · exact busOf_andThen (balance_busOf p s) fun _ t => BusOf.refl p t
  · exact BusOf.refl p s

theorem readBack_busOf (p : Nat) (u : List RegWrite) (rs : List (Nat × Nat)) (s : State) :
    BusOf p s (readBack p u rs s).state := by
  induction rs generalizing s with
  | nil => exact BusOf.refl p s
  | cons r rs ih =>
    refine busOf_andThen (afeRead_busOf p _ _ s) fun ws t => ?_
    split
    · exact ih t
    · exact BusOf.refl p t

/-! ## The state operations -/

theorem stWaitinit_moves (p : Nat) (s : State) : Moves p [codeInit] s (stWaitinit p s).state := by
  refine moves_andThen (readStatus_busOf p s).quiet fun code t => ?_
  split
  · refine moves_andThen (afeWrite_busOf p _ _ t).quiet fun _ u => ?_
    refine moves_andThen ((Quiet.setDrive p u 0).trans (afeWriteReg_busOf p _ _).quiet) fun _ w => ?_
    exact Moves.setCode p w (by decide) (by simp)
  · exact (Quiet.refl p t).moves _

theorem stWaitinit_fails (p : Nat) (s : State) : FailsQuietly p s (stWaitinit p s) := by
  refine failsQuietly_andThen (readStatus_busOf p s).quiet fun code t => ?_
  split
  · refine failsQuietly_andThen (afeWrite_busOf p _ _ t).quiet fun _ u => ?_
    exact failsQuietly_andThen ((Quiet.setDrive p u 0).trans (afeWriteReg_busOf p _ _).quiet) fun _ w =>
      failsQuietly_pure p w _ _
  · exact failsQuietly_pure p t _ _

theorem stWaitinit_small (p : Nat) (s : State) : Small p s (stWaitinit p s).state := by
  refine small_andThen (readStatus_busOf p s).small fun code t => ?_
  split
  · refine small_andThen (afeWrite_busOf p _ _ t).small fun _ u => ?_
    exact small_andThen ((Small.setDriveOff p u).trans (afeWriteReg_busOf p _ _).small) fun _ w => Small.setCode p w _
  · exact Small.of_eq rfl

theorem packFault_moves (p : Nat) (code : BitVec 4) (k : ReportKind) (s : State) (hk : ∀ j, k ≠ .err j) :
    Moves p [codeError] s (packFault p code k s) := by
  have h := Moves.setCode p s (c := codeError) (l := [codeError]) (by decide) (by simp)
  exact ⟨h.toServes.trans (Serves.report p code k _ hk), h.lock, h.codes⟩

theorem packFault_small (p : Nat) (code : BitVec 4) (k : ReportKind) (s : State) : Small p s (packFault p code k s) :=
  (Small.setCode p s codeError).trans (Small.of_eq rfl)

theorem stInit_moves (p : Nat) (s : State) : Moves p [codeWaitDiag0, codeError] s (stInit p s).state := by
  refine moves_andThen (writeAll_busOf p _ s).quiet fun _ t => ?_
  refine moves_andThen (readBack_busOf p _ _ t).quiet fun matched u => ?_
  split
  · exact moves_andThen (writeAll_busOf p _ u).quiet fun _ w => Moves.setCode p w (by decide) (by simp)
  · exact (packFault_moves p _ _ u (by simp)).weaken (by simp)

theorem stInit_fails (p : Nat) (s : State) : FailsQuietly p s (stInit p s) := by
  refine failsQuietly_andThen (writeAll_busOf p _ s).quiet fun _ t => ?_
  refine failsQuietly_andThen (readBack_busOf p _ _ t).quiet fun matched u => ?_
  split
  · exact failsQuietly_andThen (writeAll_busOf p _ u).quiet fun _ w => failsQuietly_pure p w _ _
  · exact failsQuietly_pure p u _ _

theorem stInit_small (p : Nat) (s : State) : Small p s (stInit p s).state := by
  refine small_andThen (writeAll_busOf p _ s).small fun _ t => ?_
  refine small_andThen (readBack_busOf p _ _ t).small fun matched u => ?_
  split
  · exact small_andThen (writeAll_busOf p _ u).small fun _ w => Small.setCode p w _
  · exact packFault_small p _ _ u

/-- `ST_WAITDIAG0`: the lock is taken with the move to `Diag0`, or nothing happens. -/
theorem stWaitdiag0_cases (p : Nat) (s : State) :
    (s.diagLock = none ∧ stWaitdiag0 p s = { s.setCode p codeDiag0 with diagLock := some p }) ∨
    (s.diagLock ≠ none ∧ stWaitdiag0 p s = s) := by
  unfold stWaitdiag0
  split
  · next h => exact .inl ⟨h, rfl⟩
  · next h => exact .inr ⟨by simp [h], rfl⟩

theorem stWaitdiag0_serves (p : Nat) (s : State) : Serves p s (stWaitdiag0 p s) := by
  rcases stWaitdiag0_cases p s with ⟨_, h⟩ | ⟨_, h⟩ <;> rw [h]
  · exact (Serves.setCode p s (by decide)).trans (Serves.lock p _ _)
  · exact Serves.refl p s

theorem stWaitdiag0_small (p : Nat) (s : State) : Small p s (stWaitdiag0 p s) := by
  rcases stWaitdiag0_cases p s with ⟨_, h⟩ | ⟨_, h⟩ <;> rw [h]
  · exact (Small.setCode p s codeDiag0).trans (Small.of_eq rfl)
  · exact Small.of_eq rfl

theorem stDiag0_moves (p : Nat) (s : State) : Moves p [codeWaitDiag1] s (stDiag0 p s).state := by
  refine moves_andThen (afeWriteReg_busOf p _ s).quiet fun _ t => ?_
  refine moves_andThen (readCells_busOf p t).quiet fun v u => ?_
  exact moves_andThen ((Quiet.storeSamples p 0 v u).trans (afeWriteReg_busOf p _ _).quiet) fun _ w =>
    Moves.setCode p w (by decide) (by simp)

theorem stDiag0_fails (p : Nat) (s : State) : FailsQuietly p s (stDiag0 p s) := by
  refine failsQuietly_andThen (afeWriteReg_busOf p _ s).quiet fun _ t => ?_
  refine failsQuietly_andThen (readCells_busOf p t).quiet fun v u => ?_
  exact failsQuietly_andThen ((Quiet.storeSamples p 0 v u).trans (afeWriteReg_busOf p _ _).quiet) fun _ w =>
    failsQuietly_pure p w _ _

theorem stDiag0_small (p : Nat) (s : State) : Small p s (stDiag0 p s).state := by
  refine small_andThen (afeWriteReg_busOf p _ s).small fun _ t => ?_
  refine small_andThen (readCells_busOf p t).small fun v u => ?_
  exact small_andThen ((Small.of_eq (t := storeSamples 0 v u) rfl).trans (afeWriteReg_busOf p _ _).small) fun _ w =>
    Small.setCode p w _

theorem stDiag1_moves (p : Nat) (s : State) : Moves p [codeWaitDiag2] s (stDiag1 p s).state := by
  refine moves_andThen (readCells_busOf p s).quiet fun v u => ?_
  exact moves_andThen ((Quiet.storeSamples p 1 v u).trans (afeWriteReg_busOf p _ _).quiet) fun _ w =>
    Moves.setCode p w (by decide) (by simp)

theorem stDiag1_fails (p : Nat) (s : State) : FailsQuietly p s (stDiag1 p s) := by
  refine failsQuietly_andThen (readCells_busOf p s).quiet fun v u => ?_
  exact failsQuietly_andThen ((Quiet.storeSamples p 1 v u).trans (afeWriteReg_busOf p _ _).quiet) fun _ w =>
    failsQuietly_pure p w _ _

theorem stDiag1_small (p : Nat) (s : State) : Small p s (stDiag1 p s).state := by
  refine small_andThen (readCells_busOf p s).small fun v u => ?_
  exact small_andThen ((Small.of_eq (t := storeSamples 1 v u) rfl).trans (afeWriteReg_busOf p _ _).small) fun _ w =>
    Small.setCode p w _

theorem alertBit14_high (a : BitVec 32) (k : Nat) (hk : 22 ≤ k) (h : a.getLsbD k = false) :
    (a ||| alertBit 14 true).getLsbD k = false := by
  simp [h, alertBit_high 14 k true (by omega) hk]

theorem setDiagErr_quiet (p : Nat) (s : State) : Quiet p s (s.setAlerts p ((s.tel p).swAlerts ||| alertBit 14 true)) :=
  Quiet.setTel p s _ rfl fun h => h.setAlerts fun k hk => alertBit14_high _ k hk (h.reservedBits k hk)

/-- The end of `ST_DIAG2`: the lock is released and the pack goes to `Config` or to `Error`. -/
theorem diagVerdict_spec (p : Nat) (code : BitVec 4) (s : State) :
    Serves p s (diagVerdict p code s) ∧ (diagVerdict p code s).diagLock = none ∧
    (((diagVerdict p code s).tel p).state ∈ [codeConfig, codeError] ∨ s.packs.length ≤ p) ∧
    Small p s (diagVerdict p code s) := by
  have h0 : Serves p s { s with diagLock := none } := Serves.lock p s none
  unfold diagVerdict
  simp only
  split
  · refine ⟨(h0.trans (Serves.setCode p _ (by decide))).trans (Serves.freeDiagBuf p _), rfl, ?_, ?_⟩
    · by_cases hp : p < s.packs.length
      · left
        rw [State.freeDiagBuf_tel, State.tel_setCode_self { s with diagLock := none } _ _ hp]; simp
      · right; omega
    · exact ((Small.of_eq (t := { s with diagLock := none }) rfl).trans (Small.setCode p _ _)).trans (Small.of_eq rfl)
  · refine ⟨((h0.trans (setDiagErr_quiet p _).toServes).trans (packFault_moves p _ _ _ (by simp)).toServes).trans
        (Serves.freeDiagBuf p _), rfl, ?_, ?_⟩
    · by_cases hp : p < s.packs.length
      · left
        rw [State.freeDiagBuf_tel]
        unfold packFault
        rw [State.emit_tel, State.tel_setCode_self _ _ _ (by simpa using hp)]; simp
      · right; omega
    · exact (((Small.of_eq (t := { s with diagLock := none }) rfl).trans (Small.setAlerts p _ _)).trans
        (packFault_small p code .diagFault _)).trans (Small.of_eq rfl)

/-- `ST_DIAG2`: quiet, or it released the lock and moved to `Config` or `Error`. -/
theorem stDiag2_cases (p : Nat) (s : State) :
    ((∃ k, (stDiag2 p s).reply = .err k) ∧ Quiet p s (stDiag2 p s).state) ∨
    ((stDiag2 p s).reply = .ok () ∧ Serves p s (stDiag2 p s).state ∧ (stDiag2 p s).state.diagLock = none ∧
      (((stDiag2 p s).state.tel p).state ∈ [codeConfig, codeError] ∨ s.packs.length ≤ p)) := by
  have h1 := (readCells_busOf p s).quiet
  unfold stDiag2
  rcases hr : readCells p s with ⟨v | k, u⟩
  · rw [hr] at h1
    have h2 := h1.trans ((Quiet.storeSamples p 2 v u).trans (afeWriteReg_busOf p u.par.profile.diagClear (storeSamples 2 v u)).quiet)
    simp only [Run.andThen_ok]
    rcases hw : afeWriteReg p u.par.profile.diagClear (storeSamples 2 v u) with ⟨x | k, w⟩
    · rw [hw] at h2
      right
      obtain ⟨a, b, c, _⟩ := diagVerdict_spec p (s.tel p).state w
      exact ⟨rfl, h2.toServes.trans a, b, by rw [← h2.toServes.length]; exact c⟩
    · rw [hw] at h2
      exact .inl ⟨⟨k, rfl⟩, h2⟩
  · rw [hr] at h1
    exact .inl ⟨⟨k, rfl⟩, h1⟩

theorem stDiag2_serves (p : Nat) (s : State) : Serves p s (stDiag2 p s).state := by
  rcases stDiag2_cases p s with ⟨_, h⟩ | ⟨_, h, _⟩
  · exact h.toServes
  · exact h

theorem stDiag2_fails (p : Nat) (s : State) : FailsQuietly p s (stDiag2 p s) := by
  intro k h
  rcases stDiag2_cases p s with ⟨_, h'⟩ | ⟨h', _⟩
  · exact h'
  · rw [h'] at h; cases h

theorem stDiag2_small (p : Nat) (s : State) : Small p s (stDiag2 p s).state := by
  refine small_andThen (readCells_busOf p s).small fun v u => ?_
  exact small_andThen ((Small.of_eq (t := storeSamples 2 v u) rfl).trans (afeWriteReg_busOf p _ _).small) fun _ w =>
    (diagVerdict_spec p _ w).2.2.2

theorem stConfig_moves (p : Nat) (s : State) : Moves p [codeRun] s (stConfig p s).state :=
  moves_andThen (writeAll_busOf p _ s).quiet fun _ t => Moves.setCode p t (by decide) (by simp)

theorem stConfig_fails (p : Nat) (s : State) : FailsQuietly p s (stConfig p s) :=
  failsQuietly_andThen (writeAll_busOf p _ s).quiet fun _ t => failsQuietly_pure p t _ _

theorem stConfig_small (p : Nat) (s : State) : Small p s (stConfig p s).state :=
  small_andThen (writeAll_busOf p _ s).small fun _ t => Small.setCode p t _

theorem stError_moves (p : Nat) (c : Cmd) (s : State) : Moves p [codeWaitInit] s (stError p c s) := by
  unfold stError; split
  · exact (clearAlerts_quiet p s).thenMoves (Moves.setCode p _ (by decide) (by simp))
  · exact (Quiet.refl p s).moves _

theorem stError_small (p : Nat) (c : Cmd) (s : State) : Small p s (stError p c s) := by
  unfold stError; split
  · exact (Small.setAlerts p s 0).trans (Small.setCode p _ _)
  · exact Small.of_eq rfl

/-- The codes a completed run body writes (10_state.md R23). -/
def runCodes : List (BitVec 4) := [codeSanityCheck, codeRunWarning, codeRun]

theorem nextRunState_moves (p : Nat) (s : State) : Moves p runCodes s (nextRunState p s) := by
  unfold nextRunState; split
  · exact Moves.setCode p s (by decide) (by simp [runCodes])
  · split
    · exact Moves.setCode p s (by decide) (by simp [runCodes])
    · exact Moves.setCode p s (by decide) (by simp [runCodes])

theorem runBody_moves (p : Nat) (c : Cmd) (s : State) : Moves p runCodes s (runBody p c s).state := by
  refine moves_andThen (readTelemetry_quiet p s) fun _ t => ?_
  refine Quiet.thenMoves (runStages_quiet p c t) ?_
  refine moves_andThen (afeWrite_busOf p _ _ _).quiet fun _ u => ?_
  refine Quiet.thenMoves (Quiet.setDrive p u (runDrive p c (runStages p c t))) ?_
  exact moves_andThen (balanceIfDue_busOf p _).quiet fun _ w => nextRunState_moves p w

theorem runBody_fails (p : Nat) (c : Cmd) (s : State) : FailsQuietly p s (runBody p c s) := by
  refine failsQuietly_andThen (readTelemetry_quiet p s) fun _ t => ?_
  intro k h
  refine Quiet.trans (runStages_quiet p c t) ?_
  revert k
  show FailsQuietly p _ _
  refine failsQuietly_andThen (afeWrite_busOf p _ _ _).quiet fun _ u => ?_
  intro k h
  refine Quiet.trans (Quiet.setDrive p u (runDrive p c (runStages p c t))) ?_
  revert k
  show FailsQuietly p _ _
  exact failsQuietly_andThen (balanceIfDue_busOf p _).quiet fun _ w => failsQuietly_pure p w _ _

/-! ## Packs that may run -/

/-- An operation of a pack that may run ends in its next state. -/
theorem onPack_ready {p : Nat} {s : State} (h : Ready p s) (t : State) : onPack p s t = .next t := by
  simp [onPack, Nat.not_le.2 h.pack, h.params, h.config]

/-- An operation of a pack ends in its next state or not at all. -/
theorem onPack_next {p : Nat} {s t u : State} (h : onPack p s t = .next u) : u = t ∧ p < s.packs.length := by
  unfold onPack at h
  split at h
  · cases h
  · split at h
    · cases h
    · split at h
      · cases h
      · cases h; exact ⟨rfl, by omega⟩

/-- What valid parameters say, one by one. -/
theorem paramsValid_spec {par : Params} (h : paramsValid par = true) :
    (1 ≤ par.nsel ∧ 1 ≤ par.npack ∧ par.npack ≤ 2 ^ par.nsel ∧ 1 ≤ par.ncell ∧ 1 ≤ par.k ∧ 0 < par.cycleS ∧
      par.crcPoly.getLsbD 7 = true) ∧
    addressOk par.profile.statusAddr = true ∧ addressOk par.profile.mosfetCtrlAddr = true ∧
    (commandWrites par.profile).all (fun w => addressOk w.addr) = true ∧
    par.profile.cellBlocks.all burstValid = true ∧ par.profile.telemBlocks.all burstValid = true ∧
    (∀ mask d, addressOk (balPack par.profile mask d).addr = true) := by
  simp only [paramsValid, profileValid, Bool.and_eq_true, decide_eq_true_eq] at h
  obtain ⟨⟨⟨⟨⟨⟨⟨h1, h2⟩, h3⟩, h4⟩, h5⟩, h6⟩, h7⟩, ⟨⟨⟨⟨a1, a2⟩, a3⟩, a4⟩, a5⟩, a6⟩ := h
  refine ⟨⟨h1, h2, h3, h4, h5, h6, h7⟩, a1, a2, a3, a4, a5, fun mask d => ?_⟩
  cases hb : par.profile.balPack with
  | durationOverMask a => simpa [balPack, hb] using a6
  | implementation => simp only [balPack, hb, addressOk, decide_eq_true_eq]; omega

/-- A pack's index is a device index. -/
theorem ready_device {p : Nat} {s : State} (h : Ready p s) : p < 2 ^ s.par.nsel := by
  have h1 := (paramsValid_spec h.params).1
  have := h.pack
  rw [h.count] at this
  omega

/-! ## Readback -/

theorem runsFrom_bounds (k0 n prev : Nat) (rest : List RegWrite) (h1 : 1 ≤ n) (h2 : n ≤ 32) :
    ∀ r ∈ runsFrom k0 n prev rest, 1 ≤ r.2 ∧ r.2 ≤ 32 ∧ r.1 + r.2 ≤ k0 + n + rest.length := by
  induction rest generalizing k0 n prev with
  | nil => intro r hr; simp [runsFrom] at hr; subst hr; simp; omega
  | cons w rest ih =>
    intro r hr
    unfold runsFrom at hr
    split at hr
    · next h =>
      have hn : n < 32 := by simp at h; exact h.1
      have := ih k0 (n + 1) w.addr (by omega) (by omega) r hr
      simp only [List.length_cons]; omega
    · rcases List.mem_cons.1 hr with rfl | hr
      · simp only [List.length_cons]; omega
      · have := ih (k0 + n) 1 w.addr (by omega) (by omega) r hr
        simp only [List.length_cons]; omega

/-- Every run is a legal burst inside the list. -/
theorem runs_bounds (u : List RegWrite) : ∀ r ∈ runs u, 1 ≤ r.2 ∧ r.2 ≤ 32 ∧ r.1 + r.2 ≤ u.length := by
  cases u with
  | nil => simp [runs]
  | cons w rest =>
    intro r hr
    have := runsFrom_bounds 0 1 w.addr rest (by omega) (by omega) r hr
    simp only [List.length_cons]; omega

/-- The readback bursts of a list in range are valid. -/
theorem runBursts_valid {u : List RegWrite} (hu : u.all (fun w => addressOk w.addr) = true) {rs : List (Nat × Nat)}
    (hr : ∀ r ∈ rs, r ∈ runs u) : (runBursts u rs).all burstValid = true := by
  simp only [runBursts, List.all_map, List.all_eq_true, Function.comp_apply]
  intro r h
  obtain ⟨h1, h2, h3⟩ := runs_bounds u r (hr r h)
  have hk : r.1 < u.length := by omega
  have ha : addressOk (u.getD r.1 default).addr = true := by
    rw [List.getD_eq_getElem?_getD, List.getElem?_eq_getElem hk]
    exact List.all_eq_true.1 hu _ (List.getElem_mem hk)
  simp only [burstValid, runAddr, countOk, ha, h1, h2, decide_true, Bool.and_self]

/-- Readback of runs that match, one after another. -/
theorem readBack_scripted {p : Nat} {u : List RegWrite} {good rest : List (Nat × Nat)} {gs : List Resp} {ds : List Bool}
    {as : List BusAnswer} {s : State} (hp : p < 2 ^ s.par.nsel) (hb : (runBursts u good).all burstValid = true)
    (hf : Fits (runBursts u good) gs) (hw : gs.map Resp.ws = runWords u good)
    (hs : Script (respBytes s.par.crcPoly gs) ds as s) :
    readBack p u (good ++ rest) s = readBack p u rest { s with
      sel := linesAfter good.length p s,
      trace := s.trace ++ readEvents s.par.crcPoly p (runBursts u good) gs,
      env := envAfter s ds as } := by
  induction good generalizing gs s with
  | nil =>
    cases gs with
    | cons g gs => simp [runWords] at hw
    | nil =>
      obtain ⟨h1, h2⟩ := hs
      simp only [respBytes, List.map_nil, List.length_nil, List.replicate_zero, List.nil_append] at h1 h2
      subst h1 h2
      simp [linesAfter, runBursts, readEvents, envAfter]
  | cons r good ih =>
    cases gs with
    | nil => simp [runWords] at hw
    | cons g gs =>
      obtain ⟨h1, h2⟩ := hs
      simp only [respBytes, List.map_cons, List.length_cons, List.replicate_succ, List.cons_append] at h1 h2
      simp only [runBursts, List.map_cons, List.all_cons, Bool.and_eq_true, burstValid] at hb
      simp only [runWords, List.map_cons, List.cons.injEq] at hw
      obtain ⟨hf1, hf2⟩ := hf
      obtain ⟨k0, n⟩ := r
      simp only [List.cons_append, readBack, afeRead_scripted hp hb.1.1 hb.1.2 hf1 h1 h2, Run.andThen_ok, hw.1, ↓reduceIte]
      rw [ih (gs := gs)]
      · cases good <;> simp [linesAfter, runBursts, readEvents, envAfter, transaction, hw.1]
      · exact hp
      · simpa [runBursts, burstValid] using hb.2
      · exact hf2
      · exact hw.2
      · exact ⟨rfl, rfl⟩

end Sys2Proof.Machine
end

