-- ==== Sys2Proof/Laws/PackOps.lean ====
section
/-! SUPPORT. What an operation of a pack can answer: the inversions of `PACK_STEP`, of `READ_TELEMETRY`, and of all of
them. -/

namespace Sys2Proof.Machine

open Sys2Proof.Safety

theorem readBlocks_ok {p : Nat} {bs : List Burst} {s : State} {l : List (List Word)} (h : (readBlocks p bs s).reply = .ok l) :
    l.map List.length = bs.map Burst.count := by
  induction bs generalizing s l with
  | nil => simp [readBlocks] at h; subst h; rfl
  | cons b bs ih =>
    obtain ⟨ws, h1, h2⟩ := (Run.andThen_ok_iff _ _ _).1 h
    obtain ⟨more, h3, h4⟩ := (Run.andThen_ok_iff _ _ _).1 h2
    simp at h4; subst h4
    simp [afeRead_ok_length h1, ih h3]

theorem readTel_cases (p : Nat) (s : State) :
    ((readTelemetry p s).reply = .ok () ∧ ∃ blocks, blocks.map List.length = s.par.profile.telemBlocks.map Burst.count ∧
      (readTelemetry p s).state.packs = s.packs.set p { s.pack p with tel := commitTelemetry s.par (s.cfg p) blocks (s.tel p) } ∧
      ∃ u, BusOnly s u ∧ (readTelemetry p s).state = u.setTel p (commitTelemetry s.par (s.cfg p) blocks (s.tel p))) ∨
    ((∃ k, (readTelemetry p s).reply = .err k) ∧ (readTelemetry p s).state.packs = s.packs) := by
  have hb := (readBlocks_busOf p s.par.profile.telemBlocks s).only
  unfold readTelemetry
  rcases hr : readBlocks p s.par.profile.telemBlocks s with ⟨l | k, u⟩
  · rw [hr] at hb
    simp only at hb
    left
    refine ⟨rfl, l, readBlocks_ok (by rw [hr]), ?_, u, hb, ?_⟩
    · simp [hb.packs, hb.pack, hb.cfg, hb.tel, hb.par]
    · simp [hb.packs, hb.pack, hb.cfg, hb.tel, hb.par]
  · rw [hr] at hb
    right
    exact ⟨⟨k, rfl⟩, hb.packs⟩

/-- A pack step that ends in a next state is the operation its state code selects. -/
theorem packStep_next {p : Nat} {s t : State} (h : exec (.packStep p) s = .next t) :
    p < s.packs.length ∧ ∃ i, decodeState p (s.cmd p) (s.tel p).state = .ok i ∧ exec i s = .next t := by
  by_cases hp : p < s.packs.length
  · refine ⟨hp, ?_⟩
    simp only [exec, execPackStep, Nat.not_le.2 hp, ↓reduceIte] at h
    unfold decodeState
    split at h
    case h_15 => cases h
    all_goals (rename_i hc; first | exact ⟨_, rfl, h⟩ | (rw [hc]; exact ⟨_, rfl, h⟩))
  · simp [exec, execPackStep, Nat.not_lt.1 hp] at h

/-- What an operation of a pack can end in: its own effect, nothing at all (where `idle`: a disabled pack), or an abort taken
after quiet work. -/
inductive Ended (p : Nat) (idle : Prop) (s : State) : State → Prop where
  | done (u : State) (r : OpResult) (h : Serves p s u) (hr : ∀ k, r ≠ .aborted k) : Ended p idle s (u.setResult r)
  | same (h : idle) : Ended p idle s s
  | abort (u : State) (k : ErrKind) (h : Quiet p s u) : Ended p idle s (takeAbort p (s.tel p).state k u)

theorem ended_finished {α : Type} {p : Nat} {idle : Prop} {s t : State} {r : Run α} {f : α → OpResult} (h1 : Serves p s r.state)
    (h2 : FailsQuietly p s r) (h3 : ∀ a k, f a ≠ .aborted k)
    (h4 : onPack p s (r.finished p (s.tel p).state f) = .next t) : Ended p idle s t := by
  obtain ⟨rfl, _⟩ := onPack_next h4
  rcases r with ⟨a | k, w⟩
  · exact .done w (f a) h1 (h3 a)
  · exact .abort w k (h2 k rfl)

theorem ended_done {p : Nat} {idle : Prop} {s t u : State} (h1 : Serves p s u)
    (h2 : onPack p s (u.setResult .done) = .next t) : Ended p idle s t := by
  obtain ⟨rfl, _⟩ := onPack_next h2
  exact .done u .done h1 (by simp)

/-- Every operation of a pack but `PACK_STEP`. -/
theorem ended_of_op {p : Nat} {c : Cmd} {i : Instr} {s t : State} (hi : i ∈ (packOps p c).tail)
    (h : exec i s = .next t) : Ended p (i = .stDisabled p) s t := by
  simp only [packOps, List.tail_cons, List.mem_cons, List.not_mem_nil, or_false] at hi
  rcases hi with rfl | rfl | rfl | rfl | rfl | rfl | rfl | rfl | rfl | rfl | rfl | rfl | rfl | rfl | rfl | rfl | rfl |
    rfl | rfl | rfl | rfl | rfl | rfl
  · simp only [exec, execStDisabled, onSlot] at h
    split at h
    · cases h; exact .same rfl
    · cases h
  · exact ended_finished (stWaitinit_moves p s).toServes (stWaitinit_fails p s) (by simp) h
  · exact ended_finished (stInit_moves p s).toServes (stInit_fails p s) (by simp) h
  · exact ended_done (stWaitdiag0_serves p s) h
  · exact ended_finished (stDiag0_moves p s).toServes (stDiag0_fails p s) (by simp) h
  · exact ended_done (Serves.setCode p s (by decide)) h
  · exact ended_finished (stDiag1_moves p s).toServes (stDiag1_fails p s) (by simp) h
  · exact ended_done (Serves.setCode p s (by decide)) h
  · exact ended_finished (stDiag2_serves p s) (stDiag2_fails p s) (by simp) h
  · exact ended_finished (stConfig_moves p s).toServes (stConfig_fails p s) (by simp) h
  · exact ended_finished (runBody_moves p c s).toServes (runBody_fails p c s) (by simp) h
  · exact ended_finished (runBody_moves p c s).toServes (runBody_fails p c s) (by simp) h
  · exact ended_finished (runBody_moves p c s).toServes (runBody_fails p c s) (by simp) h
  · exact ended_done (stError_moves p c s).toServes h
  · exact ended_finished (readStatus_busOf p s).quiet.toServes (failsQuietly_of_quiet (readStatus_busOf p s).quiet) (by simp) h
  · exact ended_finished (readCells_busOf p s).quiet.toServes (failsQuietly_of_quiet (readCells_busOf p s).quiet) (by simp) h
  · exact ended_finished (readTelemetry_quiet p s).toServes (failsQuietly_of_quiet (readTelemetry_quiet p s)) (by simp) h
  · exact ended_finished (runBody_moves p c s).toServes (runBody_fails p c s) (by simp) h
  · exact ended_done (nextRunState_moves p s).toServes h
  · exact ended_done (limits_quiet p s).toServes h
  · exact ended_done (i2t_quiet p s).toServes h
  · exact ended_done (alerts_quiet p s).toServes h
  · exact ended_finished (balance_busOf p s).quiet.toServes (failsQuietly_of_quiet (balance_busOf p s).quiet) (by simp) h

theorem decodeState_mem {p : Nat} {c : Cmd} {code : BitVec 4} {i : Instr} (h : decodeState p c code = .ok i) :
    i ∈ (packOps p c).tail := by
  unfold decodeState at h
  split at h <;> cases h <;> simp [packOps]

theorem Ended.weaken {p : Nat} {a b : Prop} {s t : State} (h : Ended p a s t) (hab : a → b) : Ended p b s t := by
  cases h with
  | done u r h hr => exact .done u r h hr
  | same h => exact .same (hab h)
  | abort u k h => exact .abort u k h

theorem decodeState_disabled {p : Nat} {c : Cmd} {code : BitVec 4} (h : decodeState p c code = .ok (.stDisabled p)) :
    code = codeDisabled := by
  unfold decodeState at h
  split at h
  case h_1 hc => exact BitVec.eq_of_toNat_eq hc
  all_goals cases h

/-- Every operation of a pack. -/
theorem ended_of_packOp {p : Nat} {c : Cmd} {i : Instr} {s t : State} (hi : i ∈ packOps p c) (h : exec i s = .next t) :
    Ended p (i = .stDisabled p ∨ i = .packStep p ∧ (s.tel p).state = codeDisabled) s t := by
  rcases List.mem_cons.1 hi with rfl | hi
  · obtain ⟨_, j, hj, hx⟩ := packStep_next h
    exact (ended_of_op (decodeState_mem hj) hx).weaken fun e => .inr ⟨rfl, decodeState_disabled (e ▸ hj)⟩
  · exact (ended_of_op (c := c) hi h).weaken .inl

end Sys2Proof.Machine
end

