-- ==== Sys2Proof/Laws/PerInstr.lean ====
section
/-! SUPPORT. The per-instruction family: what the decoder gives is in range. -/

namespace Sys2Proof.Laws

open Sys2Proof.Machine

/-- The pack a state code stands beside is one of the packs. A request names none. -/
def DecodedInRange.packInRange (par : Params) : Coded → Prop
  | .request _ => True
  | .state p _ _ => p < par.npack

/-- An instruction the decoder gives has its operands in the ranges of the spec (30_encoding.md R94, R96). -/
def DecodedInRange.Statement (i : Instr) : Prop :=
  ∀ (par : Params) (f : Coded), DecodedInRange.packInRange par f → decode par.nsel f = .ok i → i.wellFormed par = true

theorem lineIndex_lt_two_pow (ls : List Bool) : lineIndex ls < 2 ^ ls.length := by
  induction ls with
  | nil => simp [lineIndex]
  | cons b ls ih =>
    simp only [lineIndex, List.length_cons, Nat.pow_succ]
    split <;> omega

theorem header_address_le (b : Byte) : (b >>> 1).toNat ≤ 127 := by
  have := b.isLt
  simp only [BitVec.toNat_ushiftRight, Nat.shiftRight_eq_div_pow]
  omega

theorem decodeFrame_in_range (par : Params) (bytes : List Byte) (i : Instr) (h : decodeFrame bytes = .ok i) :
    i.wellFormed par = true := by
  unfold decodeFrame at h
  split at h
  · rename_i b0 b1 rest
    have ha := header_address_le b0
    have hn := (b1.extractLsb' 0 5).isLt
    split at h
    · split at h
      · cases h
        simpa [Instr.wellFormed, addressOk] using ha
      · cases h
    · repeat' split at h
      all_goals cases h
      simp only [Instr.wellFormed, addressOk, countOk, Bool.and_eq_true, decide_eq_true_eq]
      omega
  · cases h

theorem decodeState_in_range (par : Params) (p : Nat) (c : Cmd) (code : BitVec 4) (i : Instr) (hp : p < par.npack)
    (h : decodeState p c code = .ok i) : i.wellFormed par = true := by
  unfold decodeState at h
  split at h <;> cases h <;> simpa [Instr.wellFormed] using hp

/-- The family in one lemma: whatever the decoder gives is well formed. -/
theorem decode_in_range (i : Instr) : DecodedInRange.Statement i := by
  intro par f hp h
  match f with
  | .request (.frame bytes) => exact decodeFrame_in_range par bytes i h
  | .request (.lines ls) =>
    simp only [decode, decodeRequest, decodeLines] at h
    split at h
    · rename_i hl
      cases h
      simpa [Instr.wellFormed, hl] using lineIndex_lt_two_pow ls
    · cases h
  | .state p c code => exact decodeState_in_range par p c code i hp h

namespace DecodedInRange

theorem select (index : Nat) : Statement (.select index) :=
  decode_in_range _

theorem wrreg (address : Nat) (value : Word) : Statement (.wrreg address value) :=
  decode_in_range _

theorem rdreg (address : Nat) (count : Nat) : Statement (.rdreg address count) :=
  decode_in_range _

theorem packStep (p : Nat) : Statement (.packStep p) :=
  decode_in_range _

theorem stDisabled (p : Nat) : Statement (.stDisabled p) :=
  decode_in_range _

theorem stWaitinit (p : Nat) : Statement (.stWaitinit p) :=
  decode_in_range _

theorem stInit (p : Nat) : Statement (.stInit p) :=
  decode_in_range _

theorem stWaitdiag0 (p : Nat) : Statement (.stWaitdiag0 p) :=
  decode_in_range _

theorem stDiag0 (p : Nat) : Statement (.stDiag0 p) :=
  decode_in_range _

theorem stWaitdiag1 (p : Nat) : Statement (.stWaitdiag1 p) :=
  decode_in_range _

theorem stDiag1 (p : Nat) : Statement (.stDiag1 p) :=
  decode_in_range _

theorem stWaitdiag2 (p : Nat) : Statement (.stWaitdiag2 p) :=
  decode_in_range _

theorem stDiag2 (p : Nat) : Statement (.stDiag2 p) :=
  decode_in_range _

theorem stConfig (p : Nat) : Statement (.stConfig p) :=
  decode_in_range _

theorem stRun (p : Nat) (c : Cmd) : Statement (.stRun p c) :=
  decode_in_range _

theorem stRunwarning (p : Nat) (c : Cmd) : Statement (.stRunwarning p c) :=
  decode_in_range _

theorem stSanitycheck (p : Nat) (c : Cmd) : Statement (.stSanitycheck p c) :=
  decode_in_range _

theorem stError (p : Nat) (c : Cmd) : Statement (.stError p c) :=
  decode_in_range _

theorem crc8 (bs : List Byte) : Statement (.crc8 bs) :=
  decode_in_range _

theorem frameOk (f : List Byte) : Statement (.frameOk f) :=
  decode_in_range _

theorem afeWrite (p : Nat) (address : Nat) (value : Word) : Statement (.afeWrite p address value) :=
  decode_in_range _

theorem afeRead (p : Nat) (address : Nat) (count : Nat) : Statement (.afeRead p address count) :=
  decode_in_range _

theorem readStatus (p : Nat) : Statement (.readStatus p) :=
  decode_in_range _

theorem readCells (p : Nat) : Statement (.readCells p) :=
  decode_in_range _

theorem readTelemetry (p : Nat) : Statement (.readTelemetry p) :=
  decode_in_range _

theorem pass : Statement (.pass) :=
  decode_in_range _

theorem runs (u : List RegWrite) : Statement (.runs u) :=
  decode_in_range _

theorem runBody (p : Nat) (c : Cmd) : Statement (.runBody p c) :=
  decode_in_range _

theorem nextRunState (p : Nat) : Statement (.nextRunState p) :=
  decode_in_range _

theorem limits (p : Nat) : Statement (.limits p) :=
  decode_in_range _

theorem i2t (p : Nat) : Statement (.i2t p) :=
  decode_in_range _

theorem alerts (p : Nat) : Statement (.alerts p) :=
  decode_in_range _

theorem arbiter (a : BitVec 32) (h : HwFlags) (c : Cmd) (vpack vb tol : Q) : Statement (.arbiter a h c vpack vb tol) :=
  decode_in_range _

theorem diagEval (buf : List Q) (thr : Q) : Statement (.diagEval buf thr) :=
  decode_in_range _

theorem balance (p : Nat) : Statement (.balance p) :=
  decode_in_range _

end DecodedInRange

end Sys2Proof.Laws
end

