-- ==== Sys2Proof/Tests/Slice0.lean ====
section
/-! SUPPORT. Tests: ill-formed operands, words written out from the spec's encodings, single steps with the expected values
of spec/95_test_vectors.md, and a witness for the hypotheses of every statement. -/

namespace Sys2Proof.Tests

/-! One theorem after another: many kernel evaluations at once can exhaust a machine's threads. -/

set_option Elab.async false

open Sys2Proof.Machine Sys2Proof.Safety

/-! ## Fixtures -/

/-- Pack 0 in state `code` with telemetry `f` of the reset record, an environment that does not move, and these answers. -/
def fixture (code : BitVec 4) (f : Telemetry → Telemetry) (drives : List Bool) (answers : List BusAnswer) : State :=
  { State.reset.setTel 0 { f (State.reset.tel 0) with state := code } with
    env := ⟨List.replicate 8 [], drives, answers, 0⟩ }

/-- Pack 0 in state `code`, every drive `Ok`, and these responses. -/
def answered (code : BitVec 4) (rxs : List (List Byte)) : State :=
  fixture code id (List.replicate rxs.length true) (rxs.map .ok)

/-- A component of the next state, where there is one. -/
def got {α : Type} (o : Host.Outcome State Fault Refusal) (f : State → α) : Option α :=
  match o with
  | .next t => some (f t)
  | .fault _ => none
  | .refused _ => none

/-- The frames sent. -/
def sent (s : State) : List (List Byte) :=
  s.trace.filterMap fun e => match e with
    | .xfer _ tx _ => some tx
    | .sel _ _ => none
    | .report _ _ _ => none

/-- The reports made. -/
def reports (s : State) : List (Nat × BitVec 4 × ReportKind) :=
  s.trace.filterMap fun e => match e with
    | .report p c k => some (p, c, k)
    | .sel _ _ => none
    | .xfer _ _ _ => none

/-- The acknowledgement of the reference responder (95_test_vectors.md 1.3). -/
def ack : List Byte := [0, 0, 0, 0]

/-- The status answer with code 5 (95_test_vectors.md 2.4). -/
def status5 : List Byte := [0, 0, 0, 0x05, 0x3F]

/-- The cells answer of P2 (95_test_vectors.md, cycle 2). -/
def cellsBase : List Byte := [0x20, 0x03, 0x0E, 0x74, 0x0E, 0x74, 0x0E, 0x6A, 0x0E, 0x74, 0x0D]

/-- The pull-down answer of device 0 in P2 (cycle 6). -/
def cellsDown0 : List Byte := [0x20, 0x03, 0x0E, 0x10, 0x0D, 0x7A, 0x0E, 0x06, 0x0E, 0x10, 0x30]

/-- The pull-down answer of device 1 in P2 (cycle 11). -/
def cellsDown1 : List Byte := [0x20, 0x03, 0x0E, 0x10, 0x0C, 0x80, 0x0E, 0x06, 0x0E, 0x10, 0x1C]

/-- The telemetry answer of 95_test_vectors.md 5.1. -/
def telem51 : List Byte :=
  [0x00, 0x0F, 0x00, 0x05, 0x00, 0x05, 0, 0, 0, 0, 0, 0, 0, 0, 0x00, 0x03, 0, 0, 0x0F, 0xA0, 0x0C, 0xE4, 0x00, 0xFA,
   0, 0, 0, 0, 0, 0, 0, 0, 0x07, 0xD0, 0x3F]

/-- The telemetry answer of P3, cycle 5. -/
def telemP3c5 : List Byte :=
  [0x00, 0x0F, 0x00, 0x05, 0, 0, 0, 0, 0, 0, 0, 0, 0, 0, 0x00, 0x03, 0x00, 0x01, 0x0F, 0xA0, 0, 0, 0, 0,
   0, 0, 0, 0, 0, 0, 0, 0, 0x00, 0xC8, 0x4E]

/-- The cells answer of P3, cycle 5. -/
def cellsP3c5 : List Byte := [0x20, 0x03, 0x10, 0x04, 0x0F, 0xD2, 0x0F, 0xD2, 0x0F, 0xC8, 0xE8]

/-- The user register list of P1. -/
def userP1 : List RegWrite := [⟨0x40, 0x1234⟩, ⟨0x41, 0xABCD⟩, ⟨0x43, 0x0001⟩]

/-- The reset state of a machine whose loader gave both packs the list of P1, pack 0 in `Init`, with these answers. -/
def initP1 (rxs : List (List Byte)) : State :=
  { (State.resetWith refParams fun _ => { refConfig with userRegs := userP1 ++ [⟨0, 0⟩] }).setCode 0 codeInit with
    env := ⟨[], List.replicate rxs.length true, rxs.map .ok, 0⟩ }

/-- Both enables set. -/
def enables : Cmd := ⟨true, true, false, false⟩

/-! ## WellFormed refuses (30_encoding.md R101, 10_state.md R21, R41; 00_scope.md R19 (e)) -/

theorem test_illformed_framer :
    [Instr.select 8, .wrreg 128 0, .rdreg 128 1, .rdreg 0 0, .rdreg 0 33, .afeWrite 2 0 0, .afeWrite 0 128 0,
     .afeRead 2 0 1, .afeRead 0 128 1, .afeRead 0 0 0, .afeRead 0 0 33].all (fun i => !i.wellFormed refParams) = true := by
  decide

theorem test_illformed_packs :
    (packOps 2 enables).all (fun i => !i.wellFormed refParams) = true ∧
    (packOps 1 enables).all (fun i => i.wellFormed refParams) = true := by
  decide

theorem test_illformed_units :
    [Instr.runs [⟨1, 0⟩, ⟨128, 0⟩], .arbiter 0 (hwReset 4) enables 0 0 (-1), .diagEval (List.replicate 11 0) 0,
     .diagEval (List.replicate 12 0) (-1)].all (fun i => !i.wellFormed refParams) = true := by
  decide +kernel

/-! ## Decoding words written out from the spec (30_encoding.md R91 to R97) -/

theorem test_decode_wrreg :
    decodeFrame [0b01000001, 0b00000000, 0b00000100, 0b11111011] = .ok (.wrreg 0x20 0x0004) ∧
    decodeFrame [0xFF, 0xFF, 0xFF, 0x66] = .ok (.wrreg 0x7F 0xFFFF) ∧
    decodeFrame [0x01, 0x00, 0x00, 0xAB] = .ok (.wrreg 0x00 0x0000) := by
  decide

theorem test_decode_rdreg :
    decodeFrame [0b10000000, 0b00000001, 0, 0, 0, 0, 0] = .ok (.rdreg 0x40 2) ∧
    decodeFrame ([0xFE, 0x1F] ++ List.replicate 65 0) = .ok (.rdreg 0x7F 32) ∧
    decodeFrame [0, 0, 0, 0, 0] = .ok (.rdreg 0 1) := by
  decide

theorem test_decode_select :
    decodeLines 3 [true, false, true] = .ok (.select 5) ∧ decodeLines 3 [true, true, false] = .ok (.select 3) ∧
    decodeLines 3 [true, true] = .error .wrongLineCount := by
  decide

theorem test_decode_states :
    ([0b0000, 0b0001, 0b0010, 0b0011, 0b0100, 0b0101, 0b0110, 0b0111, 0b1000, 0b1001, 0b1010, 0b1011, 0b1100, 0b1101] :
      List (BitVec 4)).map (decodeState 1 enables) =
    [Instr.stDisabled 1, .stWaitinit 1, .stInit 1, .stWaitdiag0 1, .stDiag0 1, .stWaitdiag1 1, .stDiag1 1,
     .stWaitdiag2 1, .stDiag2 1, .stConfig 1, .stRun 1 enables, .stRunwarning 1 enables, .stSanitycheck 1 enables,
     .stError 1 enables].map Except.ok := by
  decide

theorem test_decode_refuses :
    decodeFrame [0x20] = .error .shortFrame ∧ decodeFrame [0x41, 0, 4] = .error .wrongLength ∧
    decodeFrame [0x20, 0x03, 0, 0, 0] = .error .wrongLength ∧
    decodeFrame [0x00, 0x20, 0, 0, 0] = .error .reservedBits ∧
    decodeFrame [0x00, 0x80, 0, 0, 0] = .error .highAddressBit ∧
    decodeFrame [0x00, 0x00, 0, 1, 0] = .error .fillerNotZero ∧
    decodeState 0 default 0b1110 = .error .reservedCode ∧ decodeState 0 default 0b1111 = .error .reservedCode := by
  decide

theorem test_table_words :
    decodeTableWord 32 0x410004FB = some (.wrreg 0x20 4) ∧ decodeTableWord 16 0x2003 = some (.rdreg 0x10 4) ∧
    decodeTableWord 3 0b101 = some (.select 5) ∧ decodeTableWord 4 0b1001 = some (.stConfig 0) ∧
    decodeTableWord 8 0b1001 = some (.stConfig 0) ∧ decodeTableWord 4 0b1110 = none := by
  decide

/-! ## Encoding (95_test_vectors.md 2.3, 2.4) -/

theorem test_frames :
    wrFrame 0x8C 0x21 0x0A01 = [0x43, 0x0A, 0x01, 0x6C] ∧ wrFrame 0x8C 0x24 0xFFFF = [0x49, 0xFF, 0xFF, 0x0B] ∧
    rdFrame 0x10 4 = [0x20, 0x03, 0, 0, 0, 0, 0, 0, 0, 0, 0] ∧ (rdFrame 0x7F 32).length = 67 := by
  decide +kernel

/-! ## Transport framer -/

theorem test_crc8 :
    got (exec (.crc8 [0x31, 0x32, 0x33, 0x34, 0x35, 0x36, 0x37, 0x38, 0x39]) State.reset) State.result =
      some (.byte 0xA1) ∧
    got (exec (.crc8 [0x80, 0x01, 0x12, 0x34, 0xAB, 0xCD]) State.reset) State.result = some (.byte 0xA2) := by
  decide +kernel

theorem test_crc8_other_polynomials :
    crc8 0xE0 [0x41, 0x00, 0x04] = 0xBC ∧ crc8 0xB8 [0x41, 0x00, 0x04] = 0x22 ∧
    crc8 0xAB [0x41, 0x00, 0x04] = 0xFD ∧ crcTable 0x8C 0x01 = 0x5E ∧ crcTable 0x8C 0xFF = 0x35 := by
  decide +kernel

theorem test_frame_ok :
    got (exec (.frameOk [0x41, 0x00, 0x04, 0xFB]) State.reset) State.result = some (.bool true) ∧
    got (exec (.frameOk [0x41, 0x00, 0x05, 0xFB]) State.reset) State.result = some (.bool false) := by
  decide +kernel

theorem test_select :
    got (exec (.select 5) (fixture 1 id [true] [])) (fun t => (t.sel, t.trace, t.result)) =
      some ([true, false, true], [.sel 5 true], .done) ∧
    got (exec (.select 8) (fixture 1 id [true] [])) (fun t => (t.sel, t.trace, t.result)) =
      some ([false, false, false], [], .err .badArgument) := by
  decide +kernel

theorem test_select_fails :
    got (exec (.select 3) (fixture 1 id [false] [])) (fun t => (t.trace, t.result)) =
      some ([.sel 3 false], .err .transport) := by
  decide +kernel

theorem test_wrreg :
    got (exec (.wrreg 0x20 0x0004) (fixture 1 id [] [.ok ack])) (fun t => (t.trace, t.result)) =
      some ([.xfer 0 [0x41, 0x00, 0x04, 0xFB] (.ok ack)], .done) ∧
    got (exec (.wrreg 0x80 0x0000) (fixture 1 id [] [.ok ack])) (fun t => (t.trace, t.result)) =
      some ([], .err .badArgument) := by
  decide +kernel

theorem test_rdreg :
    got (exec (.rdreg 0x40 2) (fixture 1 id [] [.ok [0x80, 0x01, 0x12, 0x34, 0xAB, 0xCD, 0xA2]])) State.result =
      some (.words [0x1234, 0xABCD]) ∧
    got (exec (.rdreg 0x00 1) (fixture 1 id [] [.ok [0xAA, 0x55, 0x00, 0x05, 0xC3]])) State.result =
      some (.words [0x0005]) := by
  decide +kernel

theorem test_rdreg_errors :
    got (exec (.rdreg 0x00 1) (fixture 1 id [] [.ok [0, 0, 0, 0x05, 0x3E]])) State.result = some (.err .crc) ∧
    got (exec (.rdreg 0x80 33) (fixture 1 id [] [.ok []])) (fun t => (t.trace, t.result)) =
      some ([], .err .badArgument) := by
  decide +kernel

/-! ## Register facade (95_test_vectors.md 5.1) -/

theorem test_afe_write :
    got (exec (.afeWrite 0 0x20 0x0004) (answered 1 [ack])) State.trace =
      some [.sel 0 true, .xfer 0 [0x41, 0x00, 0x04, 0xFB] (.ok ack)] ∧
    got (exec (.afeWrite 0 0x20 4) (fixture 1 id [false] [])) (fun t => (t.trace, t.result)) =
      some ([.sel 0 false], .err .transport) := by
  decide +kernel

theorem test_afe_read :
    got (exec (.afeRead 1 0x10 4) (answered 1 [cellsBase])) (fun t => (t.sel, t.result)) =
      some ([true, false, false], .words [0x0E74, 0x0E74, 0x0E6A, 0x0E74]) ∧
    got (exec (.afeRead 0 0x00 33) (answered 1 [cellsBase])) (fun t => (t.trace, t.result)) =
      some ([], .err .badArgument) := by
  decide +kernel

theorem test_read_status :
    got (exec (.readStatus 0) (answered 1 [[0, 0, 0, 0x45, 0x79]])) State.result = some (.code 5) := by
  decide +kernel

theorem test_read_cells :
    got (exec (.readCells 0) (answered 1 [cellsBase])) (fun t => (t.result, (t.tel 0).cellV)) =
      some (.samples [37 / 10, 37 / 10, 369 / 100, 37 / 10], [0, 0, 0, 0]) := by
  decide +kernel

theorem test_read_telemetry :
    got (exec (.readTelemetry 0) (answered 10 [telem51, cellsBase])) (fun t =>
      ((t.tel 0).voltage, (t.tel 0).auxV, (t.tel 0).dieTemp, (t.tel 0).ntc, (t.tel 0).current)) =
      some (40, 33 / 10, 25, ⟨0, 0, 0, 0⟩, 20) := by
  decide +kernel

theorem test_read_telemetry_flags :
    got (exec (.readTelemetry 0) (answered 10 [telem51, cellsBase])) (fun t => (t.tel 0).hw) =
      some { hwReset 4 with pwrCode := 5, occ := true, sc := true, dsgOn := true, chgOn := true } := by
  decide +kernel

/-! ## Supervisor (95_test_vectors.md 4, 5.2, 5.7) -/

theorem test_st_disabled : exec (.stDisabled 0) (answered 0 [ack]) = .next (answered 0 [ack]) := rfl

theorem test_st_waitinit_match :
    got (exec (.stWaitinit 0) (answered 1 [status5, ack, ack])) (fun t => (sent t, (t.tel 0).state)) =
      some ([[0, 0, 0, 0, 0], [0x41, 0x00, 0x00, 0x9A], [0x43, 0x00, 0x00, 0xD5]], 2) := by
  decide +kernel

theorem test_st_waitinit_bus_error :
    got (exec (.stWaitinit 0) (fixture 1 id [true] [.busError])) (fun t => (reports t, (t.tel 0).state)) =
      some ([(0, 1, .err .transport)], 1) := by
  decide +kernel

theorem test_st_init :
    got (exec (.stInit 0) (initP1 [ack, ack, ack, [0x80, 0x01, 0x12, 0x34, 0xAB, 0xCD, 0xA2],
      [0x86, 0x00, 0x00, 0x01, 0x8E], ack, ack])) (fun t => (sent t, (t.tel 0).state)) =
    some ([[0x81, 0x12, 0x34, 0x6B], [0x83, 0xAB, 0xCD, 0x7C], [0x87, 0x00, 0x01, 0x46], [0x80, 0x01, 0, 0, 0, 0, 0],
      [0x86, 0, 0, 0, 0], [0x4D, 0x00, 0x01, 0x7F], [0x45, 0x00, 0x01, 0x5A]], 3) := by
  decide +kernel

theorem test_st_init_mismatch :
    got (exec (.stInit 0) (initP1 [ack, ack, ack, [0x80, 0x01, 0x12, 0x34, 0xAB, 0xCC, 0xFC]]))
      (fun t => ((sent t).length, reports t, (t.tel 0).state, (t.tel 0).swAlerts)) =
    some (4, [(0, 2, .configFault)], 13, 0) := by
  decide +kernel

theorem test_st_waitdiag0 :
    got (exec (.stWaitdiag0 0) (answered 3 [])) (fun t => ((t.tel 0).state, t.diagLock)) = some (4, some 0) ∧
    got (exec (.stWaitdiag0 0) { answered 3 [] with diagLock := some 1 }) (fun t => ((t.tel 0).state, t.diagLock)) =
      some (3, some 1) := by
  decide +kernel

theorem test_st_diag0 :
    got (exec (.stDiag0 0) (answered 4 [ack, cellsBase, ack])) (fun t => (sent t, (t.tel 0).state, t.diagBuf)) =
      some ([[0x47, 0x00, 0x01, 0x15], [0x20, 0x03, 0, 0, 0, 0, 0, 0, 0, 0, 0], [0x47, 0x00, 0x02, 0xF7]], 5,
        [37 / 10, 37 / 10, 369 / 100, 37 / 10, 0, 0, 0, 0, 0, 0, 0, 0]) := by
  decide +kernel

theorem test_st_waitdiag1 :
    got (exec (.stWaitdiag1 0) (answered 5 [])) (fun t => ((t.tel 0).state, t.trace)) = some (6, []) := by
  decide +kernel

theorem test_st_diag1 :
    got (exec (.stDiag1 0) (answered 6 [[0x20, 0x03, 0x0E, 0xD8, 0x0E, 0xD8, 0x0E, 0xCE, 0x0E, 0xD8, 0x06], ack]))
      (fun t => ((sent t).getLast?, (t.tel 0).state, t.diagBuf)) =
      some (some [0x47, 0x00, 0x03, 0xA9], 7, [0, 0, 0, 0, 38 / 10, 38 / 10, 379 / 100, 38 / 10, 0, 0, 0, 0]) := by
  decide +kernel

theorem test_st_waitdiag2 :
    got (exec (.stWaitdiag2 0) (answered 7 [])) (fun t => ((t.tel 0).state, t.trace)) = some (8, []) := by
  decide +kernel

/-- Pack 0 in `Diag2` with the neutral snapshot of P2 in the buffer and the lock held. -/
def beforeVerdict (down : List Byte) : State :=
  { answered 8 [down, ack] with
    diagLock := some 0, diagBuf := [37 / 10, 37 / 10, 369 / 100, 37 / 10, 0, 0, 0, 0, 0, 0, 0, 0] }

theorem test_st_diag2_pass :
    got (exec (.stDiag2 0) (beforeVerdict cellsDown0))
      (fun t => ((sent t).getLast?, (t.tel 0).state, t.diagLock, (t.tel 0).swAlerts)) =
      some (some [0x47, 0x00, 0x00, 0x4B], 9, none, 0) := by
  decide +kernel

theorem test_st_diag2_fail :
    got (exec (.stDiag2 0) (beforeVerdict cellsDown1))
      (fun t => (reports t, (t.tel 0).state, t.diagLock, (t.tel 0).swAlerts)) =
      some ([(0, 8, .diagFault)], 13, none, 0x00004000) := by
  decide +kernel

theorem test_st_config :
    got (exec (.stConfig 0) (answered 9 [ack, ack])) (fun t => (sent t, (t.tel 0).state)) =
      some ([[0x49, 0xFF, 0xFF, 0x0B], [0x4B, 0x00, 0x64, 0xF4]], 10) := by
  decide +kernel

/-- P3, cycle 5: drive 3 and the balancer write. -/
theorem test_st_run_balances :
    got (exec (.stRun 0 enables) { answered 10 [telemP3c5, cellsP3c5, ack, ack] with vbus := 79 / 2 })
      (fun t => ((sent t).drop 2, (t.tel 0).mosfetDrive, (t.tel 0).availChg, (t.tel 0).state)) =
      some ([[0x41, 0x00, 0x03, 0x78], [0x43, 0x0A, 0x01, 0x6C]], 3, 157 / 10, 10) := by
  decide +kernel

/-- The drive write fails: alerts and accumulator stay, the old drive stays (P5, cycle 4). -/
theorem test_st_run_aborts :
    got (exec (.stRun 0 enables)
      (fixture 10 id [true, true, true] [.ok telemP3c5, .ok cellsP3c5, .busError]))
      (fun t => (reports t, (t.tel 0).mosfetDrive, (t.tel 0).current, (t.tel 0).state)) =
      some ([(0, 10, .err .transport)], 0, 2, 10) := by
  decide +kernel

theorem test_st_runwarning :
    got (exec (.stRunwarning 0 enables) (answered 11 [telem51, cellsBase, ack]))
      (fun t => ((t.tel 0).swAlerts, (t.tel 0).mosfetDrive, (t.tel 0).state)) = some (0x00000015, 0, 11) := by
  decide +kernel

theorem test_st_sanitycheck :
    got (exec (.stSanitycheck 0 enables) (answered 12 [telemP3c5, cellsP3c5, ack, ack])) (fun t => (t.tel 0).state) =
      some 10 := by
  decide +kernel

theorem test_run_body_crc_abort :
    got (exec (.runBody 0 enables) (fixture 10 id [true] [.ok (telem51.dropLast ++ [0x3E])]))
      (fun t => (reports t, decide (t.packs = (answered 10 []).packs))) = some ([(0, 10, .err .crc)], true) := by
  decide +kernel

theorem test_st_error :
    got (exec (.stError 0 { enables with resetReq := true })
      (fixture 13 (fun t => { t with swAlerts := 0x00004000, i2t := 15 / 2 }) [] []))
      (fun t => ((t.tel 0).state, (t.tel 0).swAlerts, (t.tel 0).i2t)) = some (1, 0, 15 / 2) ∧
    got (exec (.stError 0 enables) (answered 13 [])) (fun t => (t.tel 0).state) = some 13 := by
  decide +kernel

theorem test_pack_step :
    got (exec (.packStep 0) (answered 5 [])) (fun t => (t.tel 0).state) = some 6 ∧
    (match exec (.packStep 0) (answered 14 []) with
      | .refused r => decide (r = .reservedState 14)
      | .next _ => false
      | .fault _ => false) = true := by
  decide +kernel

theorem test_runs :
    got (exec (.runs [⟨0x40, 1⟩, ⟨0x41, 1⟩, ⟨0x43, 1⟩]) State.reset) State.result = some (.runs [(0, 2), (2, 1)]) ∧
    got (exec (.runs [⟨0x7E, 1⟩, ⟨0x7F, 1⟩, ⟨0x00, 1⟩]) State.reset) State.result = some (.runs [(0, 2), (2, 1)]) := by
  decide +kernel

theorem test_runs_limit :
    runs ((List.range 40).map fun i => ⟨0x40 + i, 1⟩) = [(0, 32), (32, 8)] ∧
    runs [⟨0x40, 1⟩, ⟨0x40, 1⟩] = [(0, 1), (1, 1)] ∧ runs [] = [] := by
  decide

theorem test_next_run_state :
    got (exec (.nextRunState 0) (fixture 10 (fun t => { t with swAlerts := 1 }) [] [])) (fun t => (t.tel 0).state) =
      some 11 ∧
    got (exec (.nextRunState 0) (answered 12 [])) (fun t => (t.tel 0).state) = some 10 := by
  decide +kernel

/-- `shutdown` before a pass; both packs disabled. -/
theorem test_pass :
    got (exec .pass { answered 1 [] with shutdown := true }) (fun t => (t.halted, t.sync, t.trace)) =
      some (true, false, []) ∧
    got (exec .pass ((answered 0 []).setCode 1 0)) (fun t => (t.halted, t.sync, t.trace)) = some (false, false, []) := by
  decide +kernel

/-- The shutdown flag set between the steps of the two packs. -/
theorem test_pass_shutdown_between :
    got (exec .pass { (answered 5 []).setCode 1 codeWaitDiag1 with
        env := ⟨[[], [.shutdown true], []], [], [], 0⟩ })
      (fun t => (t.halted, t.sync, (t.tel 0).state, (t.tel 1).state)) = some (true, false, 6, 5) := by
  decide +kernel

/-! ## Limits, alerts, arbiter, diagnosis, balancer (95_test_vectors.md 5.3 to 5.6) -/

theorem test_limits :
    got (exec (.limits 0) (fixture 10 (fun t => { t with hw := { t.hw with chgOn := true, dsgOn := true } }) [] []))
      (fun t => ((t.tel 0).availChg, (t.tel 0).availDsg)) = some (157 / 10, -157) ∧
    got (exec (.limits 0) (fixture 10 (fun t => { t with hw := { t.hw with dsgOn := true }, ntc := ⟨-30, 0, 0, 0⟩ })
      [] [])) (fun t => ((t.tel 0).availChg, (t.tel 0).availDsg)) = some (5, -50) := by
  decide +kernel

theorem test_i2t :
    got (exec (.i2t 0) (fixture 10 (fun t => { t with hw := { t.hw with pchgOn := true }, current := -10 }) [] []))
      (fun t => (t.tel 0).i2t) = some 25 ∧
    got (exec (.i2t 0) (fixture 10 (fun t => { t with i2t := 5 }) [] [])) (fun t => (t.tel 0).i2t) = some 0 := by
  decide +kernel

theorem test_alerts :
    got (exec (.alerts 0) (fixture 10 (fun t => { t with swAlerts := 0x00000015 }) [] []))
      (fun t => (t.tel 0).swAlerts) = some 0x00000014 ∧
    got (exec (.alerts 0) (fixture 10 (fun t => { t with ntc := ⟨-30, 0, 0, 50⟩, i2t := 10001 / 100 }) [] []))
      (fun t => (t.tel 0).swAlerts) = some 0x00100C00 := by
  decide +kernel

theorem test_arbiter :
    got (exec (.arbiter 0 (hwReset 4) enables 40 0 1) State.reset) State.result = some (.drive 4) ∧
    got (exec (.arbiter 0 { hwReset 4 with pchgOn := true } enables 39 40 1) State.reset) State.result =
      some (.drive 7) := by
  decide +kernel

theorem test_arbiter_errors :
    got (exec (.arbiter 0x00000004 { hwReset 4 with dsgOn := true, chgOn := true } enables 40 0 1) State.reset)
      State.result = some (.drive 1) ∧
    got (exec (.arbiter 0x00000010 { hwReset 4 with dsgOn := true, chgOn := true, pchgOn := true } enables 40 40 1)
      State.reset) State.result = some (.drive 0) := by
  decide +kernel

theorem test_diag_eval :
    got (exec (.diagEval [37 / 10, 37 / 10, 369 / 100, 37 / 10, 0, 0, 0, 0, 36 / 10, 345 / 100, 359 / 100, 36 / 10]
      (1 / 2)) State.reset) State.result = some (.verdict true) ∧
    got (exec (.diagEval [37 / 10, 37 / 10, 369 / 100, 37 / 10, 0, 0, 0, 0, 36 / 10, 32 / 10, 359 / 100, 36 / 10]
      (1 / 2)) State.reset) State.result = some (.verdict false) := by
  decide +kernel

theorem test_balance :
    got (exec (.balance 0) (fixture 10 (fun t => { t with cellV := [41 / 10, 41 / 10, 39 / 10, 39 / 10] }) [true]
      [.ok ack])) (fun t => (sent t, t.result)) = some ([[0x43, 0x0A, 0x03, 0xD0]], .bool true) ∧
    got (exec (.balance 0) (fixture 10 (fun t => { t with cellV := [402 / 100, 4, 4, 402 / 100] }) [true]
      [.ok ack])) (fun t => (sent t, t.result)) = some ([[0x43, 0x0A, 0x00, 0x32]], .bool false) := by
  decide +kernel

/-! ## The step (95_test_vectors.md 5.7) -/

theorem test_step_fetches :
    got (step ((answered 1 [ack]).withFetchWord 32 0x410004FB)) sent = some [[0x41, 0x00, 0x04, 0xFB]] ∧
    got (step ((answered 1 []).withFetchWord 8 5)) (fun t => ((t.tel 0).state, t.cur)) = some (6, some 1) := by
  decide +kernel

theorem test_reset :
    (State.resetWith { refParams with enabled := [true, false] } fun _ => refConfig).packs.map
      (fun k => (k.tel.id, k.tel.state)) = [(0, 1), (1, 0)] := by
  decide +kernel

/-! ## Witnesses: states and operands that meet the hypotheses of each statement -/

theorem ready_fixture (p : Nat) (code : BitVec 4) (f : Telemetry → Telemetry) (ds : List Bool) (as : List BusAnswer)
    (hp : p < 2) : Ready p (fixture code f ds as) := by
  have hv : paramsValid refParams = true ∧ configValid refParams refConfig = true := by decide +kernel
  have h : p = 0 ∨ p = 1 := by omega
  rcases h with rfl | rfl <;> exact ⟨hv.1, rfl, hp, hv.2⟩

theorem ready_initP1 (rxs : List (List Byte)) : Ready 0 (initP1 rxs) := by
  have hv : paramsValid refParams = true ∧
      configValid refParams { refConfig with userRegs := userP1 ++ [⟨0, 0⟩] } = true := by decide +kernel
  exact ⟨hv.1, rfl, (by decide : 0 < 2), hv.2⟩

theorem script_answered (code : BitVec 4) (rxs : List (List Byte)) : Script rxs [] [] (answered code rxs) := by
  simp [Script, answered, fixture]

theorem script_initP1 (rxs : List (List Byte)) : Script rxs [] [] (initP1 rxs) := by
  simp [Script, initP1]

/-- The cells answer as a response. -/
def cellsResp : Resp := ⟨0x20, 0x03, [0x0E74, 0x0E74, 0x0E6A, 0x0E74]⟩

/-- An all-zero answer to the first telemetry block but for `BAL_STATUS`. -/
def telemResp (bal : Word) : Resp := ⟨0x00, 0x0F, [5, 0, 0, 0, 0, 0, 0, bal, 0, 0, 0, 0, 0, 0, 0, 0]⟩

/-- Cells of 4.1, 4.05, 4.05, 4.04 V. -/
def cellsHigh : Resp := ⟨0x20, 0x03, [0x1004, 0x0FD2, 0x0FD2, 0x0FC8]⟩

/-- The readback responses of P1. -/
def initResps : List Resp := [⟨0x80, 0x01, [0x1234, 0xABCD]⟩, ⟨0x86, 0x00, [0x0001]⟩]

theorem test_witness_round_trip :
    [Instr.select 0, .select 7, .wrreg 0 0, .wrreg 127 0xFFFF, .rdreg 0 1, .rdreg 127 32, .stDisabled 0, .stError 1 enables].all
      (fun i => i.wellFormed refParams && (encode refParams i).isSome) = true := by
  decide +kernel

theorem test_witness_decoded_form :
    decodeFrame [0xFF, 0xFF, 0xFF, 0x00] = .ok (.wrreg 0x7F 0xFFFF) ∧
    decodeFrame ([0xFE, 0x1F] ++ List.replicate 65 0) = .ok (.rdreg 0x7F 32) ∧
    decodeLines 3 [true, true, true] = .ok (.select 7) ∧ decodeState 0 enables 13 = .ok (.stError 0 enables) ∧
    decodeState 0 enables 0 = .ok (.stDisabled 0) := by
  decide

theorem test_witness_crc :
    (0x8C : Byte).getLsbD 7 = true ∧ (0x80 : Byte).getLsbD 7 = true ∧ crcTable 0x8C 3 = crcTable 0x8C 3 ∧
    (4 : Byte) ≠ 5 ∧ frameOk 0x8C ([0x41, 0x00] ++ 4 :: [0xFB]) = true := by
  decide +kernel

theorem test_witness_select :
    2 ^ (fixture 1 id [true] []).par.nsel ≤ 8 ∧ 7 < 2 ^ (fixture 1 id [true] []).par.nsel ∧
    (fixture 1 id [true] []).env.drives = true :: [] ∧ (fixture 1 id [false] []).env.drives = false :: [] := by
  decide

theorem test_witness_wrreg :
    127 < 128 ∧ 127 ≤ 127 ∧ (fixture 1 id [] [.busError]).env.answers = .busError :: [] ∧ ack.length = 4 ∧
    (fixture 1 id [] [.ok ack]).env.answers = .ok ack :: [] := by
  decide

theorem test_witness_rdreg :
    0 < 1 ∧ 32 < 33 ∧ 127 < 128 ∧ (List.replicate 67 (0 : Byte)).length = 2 * 32 + 3 ∧
    (List.replicate 5 (0 : Byte)).length = 2 * 1 + 3 ∧
    (fixture 1 id [] [.busError]).env.answers = .busError :: [] ∧
    (fixture 1 id [] [.ok (List.replicate 67 0)]).env.answers = .ok (List.replicate 67 0) :: [] := by
  decide

theorem test_witness_response :
    cellsResp.ws.length ≤ 32 ∧ 1 ≤ cellsResp.ws.length ∧
    (fixture 1 id [] [.ok (rsFrame 0x8C 0x20 0x03 cellsResp.ws)]).env.answers =
      .ok (rsFrame (fixture 1 id [] []).par.crcPoly cellsResp.e0 cellsResp.e1 cellsResp.ws) :: [] := by
  decide +kernel

/-- The CRC byte of the status answer changed from 0x3F to 0x3E. -/
theorem test_witness_corrupt :
    (fixture 1 id [] []).par.crcPoly.getLsbD 7 = true ∧
    rsFrame (fixture 1 id [] []).par.crcPoly 0 0 [5] = [0, 0, 0, 5] ++ 0x3F :: [] ∧ (0x3F : Byte) ≠ 0x3E ∧
    (fixture 1 id [] [.ok [0, 0, 0, 5, 0x3E]]).env.answers = .ok ([0, 0, 0, 5] ++ 0x3E :: []) :: [] := by
  decide +kernel

/-- `ReferenceForms`: the mask and the duration at the edges of the packing. -/
theorem test_witness_reference :
    [true, false, false, false, false, false, false, true].length ≤ 8 ∧ 255 < 256 ∧
    (balPack refAfe [true, false, false, false, false, false, false, true] 255).value = 0xFF81 ∧
    conv .reference .current 0xFC18 refCal = -10 ∧ conv .reference .ntc 0xFF9C refCal = -10 ∧
    conv .reference .cellV 0x0E74 refCal = 37 / 10 := by
  decide +kernel

theorem test_witness_transport_frame :
    Instr.rdreg 128 33 ∈ [Instr.select 8, .wrreg 128 0, .rdreg 128 33, .afeWrite 8 128 0, .afeRead 8 128 33, .crc8 [],
      .frameOk []] ∧ (fixture 1 id [] []).sel.length = (fixture 1 id [] []).par.nsel := by
  decide

theorem test_witness_facade :
    2 ^ (answered 1 []).par.nsel ≤ 8 ∧ 1 < 2 ^ (answered 1 []).par.nsel ∧ 127 < 128 ∧
    (fixture 1 id [false] []).env.drives = false :: [] ∧ (fixture 1 id [true] []).env.drives = true :: [] ∧
    Script [ack] [] [] (answered 1 [ack]) ∧
    Script [rsFrame (answered 1 []).par.crcPoly 0x20 0x03 cellsResp.ws] [] []
      (answered 1 [rsFrame 0x8C 0x20 0x03 cellsResp.ws]) ∧
    (fixture 1 id [true] [.busError]).env.answers = .busError :: [] ∧ [0, 0, 0, 5, 0x3E].length = 2 * 1 + 3 ∧
    crc8 (answered 1 []).par.crcPoly [0, 0, 0, 5, 0x3E] ≠ 0 ∧
    Script [[0, 0, 0, 5, 0x3E]] [] [] (answered 1 [[0, 0, 0, 5, 0x3E]]) :=
  ⟨by decide, by decide, by decide, rfl, rfl, script_answered _ _, script_answered _ _, rfl, rfl, by decide +kernel,
    script_answered _ _⟩

/-- `StatusAndCellsComplete`, `StWaitinitCompletes`. -/
theorem test_witness_status :
    Ready 1 (answered 1 [rsFrame 0x8C 0 0 [5], ack, ack]) ∧
    Script [rsFrame (answered 1 []).par.crcPoly 0 0 [3]] [] [] (answered 1 [rsFrame 0x8C 0 0 [3]]) ∧
    pwrCodeOf (answered 1 []).par.profile 3 ≠ (answered 1 []).par.profile.powerupCode ∧
    pwrCodeOf (answered 1 []).par.profile 5 = (answered 1 []).par.profile.powerupCode ∧ ack.length = 4 ∧
    Script [rsFrame (answered 1 []).par.crcPoly 0 0 [5], ack, ack] [] []
      (answered 1 [rsFrame 0x8C 0 0 [5], ack, ack]) :=
  ⟨ready_fixture _ _ _ _ _ (by decide), script_answered _ _, by decide, by decide, rfl, script_answered _ _⟩

/-- `StatusAndCellsComplete`, `ReadTelemetryCompletes`. -/
theorem test_witness_blocks :
    Ready 0 (answered 10 (respBytes 0x8C [telemResp 0, cellsResp])) ∧
    Fits (answered 10 []).par.profile.cellBlocks [cellsResp] ∧
    Fits (answered 10 []).par.profile.telemBlocks [telemResp 0, cellsResp] ∧
    Script (respBytes (answered 10 []).par.crcPoly [cellsResp]) [] [] (answered 10 (respBytes 0x8C [cellsResp])) ∧
    Script (respBytes (answered 10 []).par.crcPoly [telemResp 0, cellsResp]) [] []
      (answered 10 (respBytes 0x8C [telemResp 0, cellsResp])) :=
  ⟨ready_fixture _ _ _ _ _ (by decide), ⟨rfl, trivial⟩, ⟨rfl, rfl, trivial⟩, script_answered _ _,
    script_answered _ _⟩

/-- `ReadTelemetryAllOrNothing`: a next state by each of its two cases. -/
theorem test_witness_telemetry :
    got (exec (.readTelemetry 0) (answered 10 [telem51, cellsBase])) State.result = some .done ∧
    got (exec (.readTelemetry 0) (fixture 10 id [true] [.busError])) State.result = some (.aborted .transport) := by
  decide +kernel

/-- `AbortKeepsStateAndReports`: a pack step, an operation by itself, and an abort that follows one of its kind. -/
theorem test_witness_abort :
    [Instr.packStep 0, .readStatus 0].all (· ∈ packOps 0 enables) = true ∧ Instr.packStep 0 ≠ .stDisabled 0 ∧
    ((fixture 1 id [false] []).tel 0).state ≠ codeDisabled ∧
    got (exec (.packStep 0) (fixture 1 id [false] [])) State.result = some (.aborted .transport) ∧
    got (exec (.readStatus 0) (fixture 1 id [false] [])) State.result = some (.aborted .transport) ∧
    got (exec (.packStep 0) { fixture 1 id [false] [] with result := .aborted .transport }) State.result =
      some (.aborted .transport) := by
  decide +kernel

/-- Pack 0 in state `code`, these responses, and then a drive that fails. -/
def failing (code : BitVec 4) (rxs : List (List Byte)) : State :=
  fixture code id (List.replicate rxs.length true ++ [false]) (rxs.map .ok)

/-- The same in `Init` with the list of P1. -/
def failingInit (rxs : List (List Byte)) : State :=
  { initP1 [] with env := ⟨[], List.replicate rxs.length true ++ [false], rxs.map .ok, 0⟩ }

/-- The voltages of the cells answer. -/
def cellsStored : List Q := [37 / 10, 37 / 10, 369 / 100, 37 / 10]

/-- `AbortKeepsStateAndReports`, the scripts: the responses, then whatever fails next. -/
theorem test_witness_later_scripts :
    (∀ code rxs, Ready 0 (failing code rxs) ∧ Script rxs [false] [] (failing code rxs)) ∧
    (∀ rxs, Ready 0 (failingInit rxs) ∧ Script rxs [false] [] (failingInit rxs)) ∧
    (∀ (a : Access) (s v : State) lines tr,
      a.Fails { v with sel := lines, trace := tr, env := envAfter s [false] [] } .transport) ∧
    (∀ (a : Access) (s v : State) lines tr,
      a.Fails { v with sel := lines, trace := tr, env := envAfter s [true] [.busError] } .transport) ∧
    (Access.read ⟨0x00, 1⟩).Fails (fixture 1 id [true] [.ok [0, 0, 0, 5, 0x3E]]) .crc :=
  ⟨fun _ _ => ⟨ready_fixture _ _ _ _ _ (by decide), rfl, by simp [failing, fixture]⟩,
    fun _ => ⟨⟨(ready_initP1 []).params, rfl, (by decide : 0 < 2), (ready_initP1 []).config⟩, rfl, by simp [failingInit]⟩,
    fun a _ _ _ _ => by cases a <;> exact .inl ⟨[], rfl, rfl⟩,
    fun a _ _ _ _ => by cases a <;> exact .inr (.inl ⟨[], [], rfl, rfl, rfl⟩),
    .inr (.inr ⟨rfl, [], _, [], rfl, rfl, rfl, by decide +kernel, rfl⟩)⟩

/-- `AbortKeepsStateAndReports`, the places in bring-up: MOSFETs off, balancer off, the second write of the list, the first
and the second readback, the writes after it, the watchdog. -/
theorem test_witness_later_bring_up :
    (∃ es v, Midway 0 (failing 1 [rsFrame 0x8C 0 0 [5]]) (.stWaitinit 0) (.write ⟨0x20, 0⟩) [rsFrame 0x8C 0 0 [5]] es v) ∧
    (∃ es v, Midway 0 (failing 1 [rsFrame 0x8C 0 0 [5], ack]) (.stWaitinit 0) (.write ⟨0x21, 0⟩)
      [rsFrame 0x8C 0 0 [5], ack] es v) ∧
    (∃ es v, Midway 0 (failingInit [ack]) (.stInit 0) (.write ⟨0x41, 0xABCD⟩) [ack] es v) ∧
    (∃ es v, Midway 0 (failingInit [ack, ack, ack]) (.stInit 0) (.read ⟨0x40, 2⟩) ([ack, ack, ack] ++ []) es v) ∧
    (∃ es v, Midway 0 (failingInit ([ack, ack, ack] ++ respBytes 0x8C (initResps.take 1))) (.stInit 0) (.read ⟨0x43, 1⟩)
      ([ack, ack, ack] ++ respBytes 0x8C (initResps.take 1)) es v) ∧
    (∃ es v, Midway 0 (failingInit ([ack, ack, ack] ++ respBytes 0x8C initResps ++ [])) (.stInit 0) (.write ⟨0x26, 1⟩)
      ([ack, ack, ack] ++ respBytes 0x8C initResps ++ []) es v) ∧
    (∃ es v, Midway 0 (failingInit ([ack, ack, ack] ++ respBytes 0x8C initResps ++ [ack])) (.stInit 0)
      (.write ⟨0x22, 1⟩) ([ack, ack, ack] ++ respBytes 0x8C initResps ++ [ack]) es v) ∧
    (∃ es v, Midway 0 (failing 9 [ack]) (.stConfig 0) (.write ⟨0x25, 0x64⟩) [ack] es v) :=
  ⟨⟨_, _, .mosfetsOff 0 0 5 (by decide)⟩, ⟨_, _, .balancerOff 0 0 5 ack (by decide) rfl⟩,
    ⟨_, _, .userWrite _ [⟨0x40, 0x1234⟩] [⟨0x43, 1⟩] [ack] (by decide) ⟨rfl, by decide⟩⟩,
    ⟨_, _, .readback userP1 (0, 2) [] [(2, 1)] [ack, ack, ack] [] (by decide) ⟨rfl, by decide⟩ (by decide) trivial rfl⟩,
    ⟨_, _, .readback userP1 (2, 1) [(0, 2)] [] [ack, ack, ack] (initResps.take 1) (by decide) ⟨rfl, by decide⟩ (by decide)
      ⟨rfl, trivial⟩ (by decide)⟩,
    ⟨_, _, .afterReadback userP1 _ [] [⟨0x22, 1⟩] [ack, ack, ack] [] initResps (by decide) ⟨rfl, by decide⟩
      ⟨rfl, rfl, trivial⟩ (by decide) rfl ⟨rfl, by decide⟩⟩,
    ⟨_, _, .afterReadback userP1 _ [⟨0x26, 1⟩] [] [ack, ack, ack] [ack] initResps (by decide) ⟨rfl, by decide⟩
      ⟨rfl, rfl, trivial⟩ (by decide) rfl ⟨rfl, by decide⟩⟩,
    ⟨_, _, .configWrite _ [⟨0x24, 0xFFFF⟩] [] [ack] rfl ⟨rfl, by decide⟩⟩⟩

/-- `AbortKeepsStateAndReports`, the places in the diagnosis and the reads. -/
theorem test_witness_later_diagnosis :
    (∃ es v, Midway 0 (failing 4 [ack]) (.stDiag0 0) (.read ⟨0x10, 4⟩) [ack] es v) ∧
    (∃ es v, Midway 0 (failing 4 (ack :: respBytes 0x8C [cellsResp])) (.stDiag0 0) (.write ⟨0x23, 2⟩)
      (ack :: respBytes 0x8C [cellsResp]) es v) ∧
    (∀ i ∈ [Instr.readCells 0, .stDiag1 0, .stDiag2 0], ∃ es v, Midway 0 (failing 6 []) i (.read ⟨0x10, 4⟩) [] es v) ∧
    (∃ es v, Midway 0 (failing 6 (respBytes 0x8C [cellsResp])) (.stDiag1 0) (.write ⟨0x23, 3⟩)
      (respBytes 0x8C [cellsResp]) es v) ∧
    (∃ es v, Midway 0 (failing 8 (respBytes 0x8C [cellsResp])) (.stDiag2 0) (.write ⟨0x23, 0⟩)
      (respBytes 0x8C [cellsResp]) es v) ∧
    (∃ es v, Midway 0 (failing 10 (respBytes 0x8C [telemResp 0])) (.readTelemetry 0) (.read ⟨0x10, 4⟩)
      (respBytes 0x8C [telemResp 0]) es v) :=
  ⟨⟨_, _, .neutralRead _ [] [] ack [] rfl rfl trivial⟩,
    ⟨_, _, .pullUp ack [cellsResp] (cellsStored ++ List.replicate 8 0) rfl ⟨rfl, trivial⟩
      (by unfold SnapshotStored; decide +kernel)⟩,
    fun _ hi => ⟨_, _, .cellsRead _ _ [] [] [] hi rfl trivial⟩,
    ⟨_, _, .pullDown [cellsResp] (List.replicate 4 0 ++ cellsStored ++ List.replicate 4 0) ⟨rfl, trivial⟩
      (by unfold SnapshotStored; decide +kernel)⟩,
    ⟨_, _, .diagClear [cellsResp] (List.replicate 8 0 ++ cellsStored) ⟨rfl, trivial⟩
      (by unfold SnapshotStored; decide +kernel)⟩,
    ⟨_, _, .telemetryRead _ [⟨0x00, 16⟩] [] [telemResp 0] rfl ⟨rfl, trivial⟩⟩⟩

/-- A later transaction of bring-up that fails: the MOSFET-off write, and a readback burst with a wrong CRC, which is no
configuration fault (R173, R174, R310). -/
theorem test_later_aborts_bring_up :
    got (exec (.packStep 0) (fixture 1 id [true, true] [.ok status5, .busError]))
      (fun t => (reports t, (t.tel 0).state)) = some ([(0, 1, .err .transport)], 1) ∧
    got (exec (.packStep 0) (initP1 [ack, ack, ack, [0x80, 0x01, 0x12, 0x34, 0xAB, 0xCD, 0xA3]]))
      (fun t => (reports t, (t.tel 0).state)) = some ([(0, 2, .err .crc)], 2) := by
  decide +kernel

/-- The clearing write of the diagnosis fails, and the lock stays held (R181, R310). -/
theorem test_later_aborts_diagnosis :
    got (exec (.packStep 0) { fixture 8 id [true, true] [.ok cellsDown0, .busError] with diagLock := some 0 })
      (fun t => (reports t, (t.tel 0).state, t.diagLock)) = some ([(0, 8, .err .transport)], 8, some 0) := by
  decide +kernel

/-- The watchdog write fails (R183, R310). -/
theorem test_later_aborts_config :
    got (exec (.packStep 0) (fixture 9 id [true, true] [.ok ack, .busError]))
      (fun t => (reports t, (t.tel 0).state)) = some ([(0, 9, .err .transport)], 9) := by
  decide +kernel

/-- `FailedFirstTransactionAborts`: each operation's first transaction, and each way it can fail. -/
theorem test_witness_first_transaction :
    Ready 0 (fixture 1 id [false] []) ∧
    (∀ i ∈ [Instr.readStatus 0, .stWaitinit 0], FirstRead 0 enables (fixture 1 id [] []) i ⟨0x00, 1⟩) ∧
    (∀ i ∈ [Instr.readCells 0, .stDiag1 0, .stDiag2 0], FirstRead 0 enables (fixture 1 id [] []) i ⟨0x10, 4⟩) ∧
    (∀ i ∈ [Instr.readTelemetry 0, .runBody 0 enables, .stRun 0 enables, .stRunwarning 0 enables,
      .stSanitycheck 0 enables], FirstRead 0 enables (fixture 1 id [] []) i ⟨0x00, 16⟩) ∧
    FirstWrite 0 (fixture 2 id [] []) (.stInit 0) ⟨0x26, 1⟩ ∧ FirstWrite 0 (initP1 []) (.stInit 0) ⟨0x40, 0x1234⟩ ∧
    FirstWrite 0 (fixture 4 id [] []) (.stDiag0 0) ⟨0x23, 1⟩ ∧
    FirstWrite 0 (fixture 9 id [] []) (.stConfig 0) ⟨0x24, 0xFFFF⟩ ∧
    FirstWrite 0 (fixture 10 id [] []) (.balance 0) ⟨0x21, 0x0A00⟩ ∧
    NextFails true 5 (fixture 1 id [false] []) .transport ∧
    NextFails false 4 (fixture 1 id [true] [.busError]) .transport ∧
    NextFails true 5 (fixture 1 id [true] [.ok [0, 0, 0, 5, 0x3E]]) .crc :=
  ⟨ready_fixture _ _ _ _ _ (by decide), fun _ h => .inl ⟨h, rfl⟩, fun _ h => .inr (.inl ⟨h, rfl⟩),
    fun _ h => .inr (.inr ⟨h, rfl⟩), .inl ⟨rfl, rfl⟩, .inl ⟨rfl, rfl⟩, .inr (.inl ⟨rfl, rfl⟩),
    .inr (.inr (.inl ⟨rfl, rfl⟩)), .inr (.inr (.inr ⟨rfl, by decide +kernel⟩)), .inl ⟨[], rfl, rfl⟩,
    .inr (.inl ⟨[], [], rfl, rfl, rfl⟩), .inr (.inr ⟨rfl, [], _, [], rfl, rfl, rfl, by decide +kernel, rfl⟩)⟩

/-- The first telemetry block answered and the second not. -/
def telemFails : State := fixture 10 id [true, true] [.ok (rsFrame 0x8C 0x00 0x0F (telemResp 0).ws), .busError]

/-- Telemetry answered, balancing due, and these drives after it, each with the answer `BusError` where it is `Ok`. -/
def writesFail (drives : List Bool) (acks : List (List Byte)) : State :=
  fixture 10 id ([true, true] ++ drives)
    ((respBytes 0x8C [telemResp 1, cellsHigh] ++ acks).map BusAnswer.ok ++ [.busError])

/-- `RunBodyAborts`: a telemetry burst, the drive write (both ways) and the balancer write fail. -/
theorem test_witness_run_aborts :
    Ready 0 telemFails ∧ telemFails.par.profile.telemBlocks = [⟨0x00, 16⟩] ++ ⟨0x10, 4⟩ :: [] ∧
    Fits [⟨0x00, 16⟩] [telemResp 0] ∧
    Script (respBytes telemFails.par.crcPoly [telemResp 0]) [true] [.busError] telemFails ∧
    NextFails true 11 { telemFails with env := envAfter telemFails [true] [.busError] } .transport ∧
    Fits (writesFail [] []).par.profile.telemBlocks [telemResp 1, cellsHigh] ∧
    Script (respBytes (writesFail [] []).par.crcPoly [telemResp 1, cellsHigh]) [false] [.busError]
      (writesFail [false] []) ∧
    NextFails false 4 { writesFail [] [] with env := envAfter (writesFail [] []) [false] [.busError] } .transport ∧
    NextFails false 4 { writesFail [] [] with env := envAfter (writesFail [] []) [true] [.busError] } .transport ∧
    Script (respBytes (writesFail [] []).par.crcPoly [telemResp 1, cellsHigh] ++ [ack]) [true] [.busError]
      (writesFail [true, true] [ack]) ∧
    ∃ s2, s2 = alerts 0 (i2t 0 (limits 0 ((writesFail [] []).setTel 0
        (commitTelemetry refParams refConfig [(telemResp 1).ws, cellsHigh.ws] ((writesFail [] []).tel 0))))) ∧
      (s2.tel 0).hw.balElapsed = true ∧ ∃ v ∈ (s2.tel 0).cellV, refConfig.balStartV ≤ v :=
  ⟨ready_fixture _ _ _ _ _ (by decide), rfl, ⟨rfl, trivial⟩, ⟨rfl, rfl⟩, .inr (.inl ⟨[], [], rfl, rfl, rfl⟩),
    ⟨rfl, rfl, trivial⟩, ⟨rfl, rfl⟩, .inl ⟨[], rfl, rfl⟩, .inr (.inl ⟨[], [], rfl, rfl, rfl⟩), ⟨rfl, rfl⟩, _, rfl,
    by decide +kernel, 41 / 10, by decide +kernel, by decide +kernel⟩

/-- `RunBodyAborts`, last clause: an aborted run body, each way it can be. -/
theorem test_witness_run_aborted :
    got (exec (.stRun 0 enables) (fixture 10 id [false] [])) State.result = some (.aborted .transport) ∧
    got (exec (.stRun 0 enables) (writesFail [true] [])) State.result = some (.aborted .transport) ∧
    got (exec (.stRun 0 enables) (writesFail [true, true] [ack])) State.result = some (.aborted .transport) := by
  decide +kernel

theorem test_witness_disabled :
    1 < (fixture 0 id [] []).packs.length ∧ 0 < (fixture 0 id [] []).par.npack ∧
    ¬(0 < 0 ∧ (fixture 0 id [] []).shutdown = true) ∧ ((fixture 0 id [] []).tel 0).state = codeDisabled := by
  decide

theorem test_witness_runs :
    0 < (runs userP1).length ∧ 0 + 1 < (runs userP1).length ∧ (0, 2) ∈ runs userP1 ∧ 0 + 1 < 2 ∧
    (runs userP1).getD 0 default = (0, 2) := by
  decide

theorem test_witness_init_verified :
    Ready 0 (initP1 []) ∧ userP1 = userList ((initP1 []).cfg 0).userRegs ∧ Acks userP1 [ack, ack, ack] ∧
    Fits (runBursts userP1 (runs userP1)) initResps ∧ initResps.map Resp.ws = runWords userP1 (runs userP1) ∧
    Acks [(initP1 []).par.profile.clrReset, (initP1 []).par.profile.balWindow] [ack, ack] ∧
    Script ([ack, ack, ack] ++ respBytes (initP1 []).par.crcPoly initResps ++ [ack, ack]) [] []
      (initP1 ([ack, ack, ack] ++ respBytes 0x8C initResps ++ [ack, ack])) :=
  ⟨ready_initP1 _, by decide, ⟨rfl, by decide⟩, ⟨rfl, rfl, trivial⟩, by decide, ⟨rfl, by decide⟩, script_initP1 _⟩

/-- The device of P1b: the second word of the first run reads back changed. -/
theorem test_witness_init_mismatch :
    Ready 0 (initP1 []) ∧ runs userP1 = [] ++ (0, 2) :: [(2, 1)] ∧ Fits (runBursts userP1 []) [] ∧
    ([] : List Resp).map Resp.ws = runWords userP1 [] ∧ ([0x1234, 0xABCC] : List Word).length = 2 ∧
    ([0x1234, 0xABCC] : List Word) ≠ runValues userP1 0 2 ∧
    Script ([ack, ack, ack] ++ respBytes (initP1 []).par.crcPoly ([] ++ [⟨0x80, 0x01, [0x1234, 0xABCC]⟩])) [] []
      (initP1 ([ack, ack, ack] ++ respBytes 0x8C [⟨0x80, 0x01, [0x1234, 0xABCC]⟩])) :=
  ⟨ready_initP1 _, by decide, trivial, rfl, rfl, by decide, script_initP1 _⟩

/-- `SilentStates`, `StWaitdiag1Settles`, `NextRunStateRule`. -/
theorem test_witness_silent :
    Ready 0 (fixture 3 id [] []) ∧ (fixture 3 id [] []).diagLock = none ∧
    ({ fixture 3 id [] [] with diagLock := some 0 }).diagLock = some 0 ∧
    ({ enables with resetReq := true }).resetReq = true ∧ enables.resetReq = false ∧
    ((fixture 10 id [] []).pack 0).sanityTrigger = false ∧
    ((applyWrite (fixture 10 id [] []) (.sanity 0 true)).pack 0).sanityTrigger = true ∧
    ((fixture 10 id [] []).tel 0).swAlerts &&& (fixture 10 id [] []).par.warnMask = 0 ∧
    ((fixture 10 (fun t => { t with swAlerts := 1 }) [] []).tel 0).swAlerts &&& (fixture 10 id [] []).par.warnMask ≠ 0 :=
  ⟨ready_fixture _ _ _ _ _ (by decide), rfl, rfl, rfl, rfl, rfl, rfl, by decide, by decide⟩

theorem test_witness_diag_samples :
    Ready 0 (answered 4 []) ∧ Fits (answered 4 []).par.profile.cellBlocks [cellsResp] ∧ ack.length = 4 ∧
    Script (ack :: respBytes (answered 4 []).par.crcPoly [cellsResp] ++ [ack]) [] []
      (answered 4 (ack :: respBytes 0x8C [cellsResp] ++ [ack])) ∧
    Script (respBytes (answered 6 []).par.crcPoly [cellsResp] ++ [ack]) [] []
      (answered 6 (respBytes 0x8C [cellsResp] ++ [ack])) :=
  ⟨ready_fixture _ _ _ _ _ (by decide), ⟨rfl, trivial⟩, rfl, script_answered _ _, script_answered _ _⟩

/-- Both verdicts: every delta 0, and cell 0 off by the whole of its voltage (the buffer still 0). -/
theorem test_witness_verdict :
    Ready 0 (answered 8 []) ∧
    Script (respBytes (answered 8 []).par.crcPoly [cellsResp] ++ [ack]) [] []
      (answered 8 (respBytes 0x8C [cellsResp] ++ [ack])) ∧
    (∀ j, j < 4 → qAbs (numSub .exact ([37 / 10, 37 / 10, 369 / 100, 37 / 10].getD j 0)
        ((cellSamples (answered 8 []) 0 cellsResp.ws).getD j 0)) < ((answered 8 []).cfg 0).diagThreshold) ∧
    ∃ j, j < 4 ∧ ((answered 8 []).cfg 0).diagThreshold ≤
      qAbs (numSub .exact ((answered 8 []).diagBuf.getD j 0) ((cellSamples (answered 8 []) 0 cellsResp.ws).getD j 0)) :=
  ⟨ready_fixture _ _ _ _ _ (by decide), script_answered _ _, by decide +kernel, 0, by decide, by decide +kernel⟩

theorem test_witness_config :
    Ready 0 (answered 9 [ack, ack]) ∧
    Acks ((answered 9 []).par.profile.clrErrors ++ [(answered 9 []).par.profile.wdtArm]) [ack, ack] ∧
    Script [ack, ack] [] [] (answered 9 [ack, ack]) :=
  ⟨ready_fixture _ _ _ _ _ (by decide), ⟨rfl, by decide⟩, script_answered _ _⟩

/-- The balancer not due, and due: the flags and cells the responses commit. -/
theorem test_witness_run_body :
    Ready 0 (answered 10 []) ∧ Fits (answered 10 []).par.profile.telemBlocks [telemResp 0, cellsResp] ∧
    Fits (answered 10 []).par.profile.telemBlocks [telemResp 1, cellsHigh] ∧
    Script (respBytes (answered 10 []).par.crcPoly [telemResp 0, cellsResp] ++ [ack]) [] []
      (answered 10 (respBytes 0x8C [telemResp 0, cellsResp] ++ [ack])) ∧
    Script (respBytes (answered 10 []).par.crcPoly [telemResp 1, cellsHigh] ++ [ack, ack]) [] []
      (answered 10 (respBytes 0x8C [telemResp 1, cellsHigh] ++ [ack, ack])) ∧
    (commitTelemetry refParams refConfig [(telemResp 0).ws, cellsResp.ws] default).hw.balElapsed = false ∧
    (commitTelemetry refParams refConfig [(telemResp 1).ws, cellsHigh.ws] default).hw.balElapsed = true ∧
    ∃ v ∈ (commitTelemetry refParams refConfig [(telemResp 1).ws, cellsHigh.ws] default).cellV,
      refConfig.balStartV ≤ v :=
  ⟨ready_fixture _ _ _ _ _ (by decide), ⟨rfl, rfl, trivial⟩, ⟨rfl, rfl, trivial⟩, script_answered _ _,
    script_answered _ _, by decide, by decide, 41 / 10, by decide +kernel, by decide +kernel⟩

/-- `PackStepDispatch`, `TransitionRelation`, `OnlySteadyStatesMeasureAndDrive`. -/
theorem test_witness_pack_step :
    0 < (answered 5 []).packs.length ∧ Ready 0 (answered 5 []) ∧ ((answered 5 []).tel 0).state = codeWaitDiag1 ∧
    decodeState 0 enables ((answered 13 []).tel 0).state = .ok (.stError 0 enables) ∧
    14 ≤ ((answered 14 []).tel 0).state.toNat ∧ ((answered 13 []).tel 0).state.toNat ≤ 13 ∧
    ((answered 5 []).tel 0).state ∉ [codeRun, codeRunWarning, codeSanityCheck] ∧
    got (exec (.packStep 0) (answered 5 [])) State.result = some .done :=
  ⟨by decide, ready_fixture _ _ _ _ _ (by decide), by decide, by decide, by decide, by decide, by decide,
    by decide +kernel⟩

/-- `OnlySteadyStatesMeasureAndDrive`: no command write of REF-AFE names its MOSFET control register, which `WaitInit` writes
with 0 and a user register list may write with another value. -/
theorem test_witness_drive_writes :
    (∀ w ∈ commandWrites refAfe, w.addr ≠ refAfe.mosfetCtrlAddr) ∧
    got (exec (.packStep 0) (answered 1 [status5, ack, ack])) (fun t => decide
      (Event.xfer 0 (wrFrame 0x8C refAfe.mosfetCtrlAddr 0) (.ok ack) ∈ t.trace)) = some true ∧
    ⟨refAfe.mosfetCtrlAddr, 3⟩ ∈ userList [⟨0x20, 3⟩, ⟨0, 0⟩, ⟨1, 1⟩] := by
  decide +kernel

/-- `PackOpsServeTheirPack`: a member of each list and a state outside each. -/
theorem test_witness_pack_only :
    Instr.limits 0 ∉ [Instr.packStep 0, .stWaitdiag0 0, .stDiag0 0, .stDiag1 0, .stDiag2 0] ∧
    ((answered 5 []).tel 0).state ∉ [codeWaitDiag0, codeDiag2] ∧
    ((answered 5 []).tel 0).state ∉ [codeDiag0, codeDiag1, codeDiag2] ∧
    got (exec (.stDiag0 0) (answered 4 [ack, cellsBase, ack])) State.diagLock = some none ∧
    got (exec (.stWaitdiag0 0) (answered 3 [])) State.diagBuf = some (List.replicate 12 0) := by
  decide +kernel

/-- `PackOpsServeTheirPack`, `PackOpsSelectFirst`, `NoBadArgumentFromPacks`, `OtherPacksDoNotMatter`. -/
theorem test_witness_pack_ops :
    Instr.readStatus 0 ∈ packOps 0 enables ∧ Ready 0 (answered 1 [status5]) ∧ (1 : Nat) ≠ 0 ∧
    got (exec (.readStatus 0) (answered 1 [status5])) State.result = some (.code 5) :=
  ⟨by decide, ready_fixture _ _ _ _ _ (by decide), by decide, by decide +kernel⟩

/-- No pack, parameters that are no CORE's, a configuration that is not valid, and neither. -/
theorem test_witness_stops :
    Instr.limits 2 ∈ packOps 2 enables ∧ (answered 10 []).packs.length ≤ 2 ∧ Instr.limits 0 ≠ .packStep 0 ∧
    Instr.limits 0 ≠ .stDisabled 0 ∧ 0 < (answered 10 []).packs.length ∧
    paramsValid { refParams with crcPoly := 0x0C } = false ∧ paramsValid (answered 10 []).par = true ∧
    configValid refParams { refConfig with i2tDecay := -1 } = false ∧
    configValid refParams { refConfig with chgCeilReduced := -10 } = false ∧
    configValid refParams { refConfig with dsgCeilFull := 157 } = false ∧
    configValid refParams { refConfig with table := [⟨-20, -5, -50⟩, ⟨0, 157 / 10, -157⟩, ⟨45, 314 / 10, -157⟩] } = false ∧
    configValid refParams { refConfig with chgCeilFull := 0, dsgCeilFull := 0 } = true ∧
    configValid (answered 10 []).par ((answered 10 []).cfg 0) = true := by
  decide +kernel

/-- The state after reset is well formed, and its packs have valid configurations. -/
theorem reset_stateWf : StateWf State.reset := by
  have hv : paramsValid refParams = true := by decide +kernel
  refine ⟨hv, rfl, ?_, rfl, rfl, rfl, (fun p h => by cases h), (fun h => by cases h)⟩
  intro p hp
  have h : p = 0 ∨ p = 1 := by have : p < 2 := hp; omega
  rcases h with rfl | rfl <;>
    exact ⟨rfl, by decide, by intro n _; exact BitVec.getLsbD_zero, rfl, rfl, rfl, rfl, rfl, rfl⟩

theorem reset_configsValid : ConfigsValid State.reset := by
  intro p hp _
  have hv : configValid refParams refConfig = true := by decide +kernel
  have h : p = 0 ∨ p = 1 := by have : p < 2 := hp; omega
  rcases h with rfl | rfl <;> exact hv

/-- `PassCompletes`: between passes, halted, shutdown seen, and a pass under way at its second pack and at its end. -/
theorem test_witness_pass :
    StateWf State.reset ∧ ConfigsValid State.reset ∧ State.reset.cur = none ∧ State.reset.halted = false ∧
    ({ State.reset with shutdown := true }).shutdown = true ∧
    StateWf { State.reset with halted := true } ∧ ConfigsValid { State.reset with halted := true } ∧
    ∀ p, p ≤ 2 → StateWf { State.reset with cur := some p, sync := true } ∧
      ConfigsValid { State.reset with cur := some p, sync := true } ∧
      ({ State.reset with cur := some p, sync := true }).cur ≠ none ∧
      exec .pass { State.reset with cur := some p, sync := true } = .refused .passOverrun :=
  ⟨reset_stateWf, reset_configsValid, rfl, rfl, rfl,
    ⟨reset_stateWf.params, rfl, reset_stateWf.tel, rfl, rfl, rfl, (fun _ h => by cases h), fun _ => rfl⟩,
    reset_configsValid,
    fun p hp => ⟨⟨reset_stateWf.params, rfl, reset_stateWf.tel, rfl, rfl, rfl, (fun _ h => by cases h; exact hp),
      fun h => by cases h⟩, reset_configsValid, by simp, rfl⟩⟩

/-- `PassRefinesSteps`: a pass that begins and ends. -/
theorem test_witness_pass_steps :
    ((answered 0 []).setCode 1 0).request = none ∧ (passBegin ((answered 0 []).setCode 1 0)).cur ≠ none ∧
    got (exec .pass ((answered 0 []).setCode 1 0)) State.cur = some none := by
  decide +kernel

/-- `StepRunsDecoded`: each of its three clauses. -/
theorem test_witness_step :
    paramsValid (answered 5 []).par = true ∧
    decodeRequest 3 (.frame [0x41, 0x00, 0x04, 0xFB]) = .ok (.wrreg 0x20 4) ∧
    decodeRequest 3 (.frame [0x41]) = .error .shortFrame ∧
    (envMove { answered 5 [] with cur := some 0 }).cur = some 0 ∧
    0 < (envMove { answered 5 [] with cur := some 0 }).par.npack ∧
    ((envMove (answered 5 [])).tel 0).state ≠ codeDisabled ∧
    decodeState 0 ((envMove (answered 5 [])).cmd 0) ((envMove (answered 5 [])).tel 0).state = .ok (.stWaitdiag1 0) := by
  decide +kernel

/-- `QuietBetweenPasses`, `StepKeepsWhatItMay`, `StateWfKept`, `AccumulatorsStayNonneg`: idle, between packs, after the last
pack. -/
theorem test_witness_quiet :
    paramsValid (answered 1 []).par = true ∧ (answered 1 []).request = none ∧ (answered 1 []).cur = none ∧
    (answered 1 []).halted = false ∧ (envMove (answered 1 [])).shutdown = false ∧
    (envMove { answered 1 [] with env := ⟨[[.shutdown true]], [], [], 0⟩ }).shutdown = true ∧
    ({ answered 1 [] with halted := true }).cur = none ∧
    got (step { answered 1 [] with halted := true }) (fun t => (t.halted, t.cur)) = some (true, none) ∧
    0 < 1 ∧ 1 < (answered 1 []).par.npack ∧ (answered 1 []).par.npack ≤ 2 ∧ (answered 1 []).par.num = .exact ∧
    got (step (answered 1 [])) State.cur = some (some 0) := by
  decide +kernel

theorem reset_lockInv : LockInv State.reset := by
  constructor
  · intro p hp
    have h : p = 0 ∨ p = 1 := by have : p < 2 := hp; omega
    rcases h with rfl | rfl <;> simp [inDiagnosis, State.reset, State.resetWith, State.tel, State.pack, telReset, refParams]
  · intro p h
    cases h

/-- `LockInvKept`, `StateWfKept`, `AccumulatorsStayNonneg`: the state after reset meets the invariants. -/
theorem test_witness_invariants : LockInv State.reset ∧ StateWf State.reset ∧ AccumulatorsNonneg State.reset := by
  refine ⟨reset_lockInv, reset_stateWf, ?_⟩
  intro p hp
  have h : p = 0 ∨ p = 1 := by have : p < 2 := hp; omega
  rcases h with rfl | rfl <;> decide +kernel

/-- `LimitsClamp`, `I2tRule`, `AlertCopiesAndLatches`, `AlertDerivedLatches`, `BalanceRule`. -/
theorem test_witness_units :
    Ready 0 (answered 10 [ack]) ∧ ((answered 10 [ack]).tel 0).cellV.length = (answered 10 [ack]).par.ncell ∧
    ack.length = 4 ∧ Script [ack] [] [] (answered 10 [ack]) ∧
    (fixture 10 (fun t => { t with hw := { t.hw with pchgOn := true } }) [] []).par.num = .exact ∧
    ((fixture 10 (fun t => { t with hw := { t.hw with pchgOn := true } }) [] []).tel 0).hw.pchgOn = true ∧
    ¬(((answered 10 [ack]).tel 0).hw.pchgOn = true ∧
      ¬(((answered 10 [ack]).tel 0).hw.chgOn = true ∧ ((answered 10 [ack]).tel 0).hw.dsgOn = true)) :=
  ⟨ready_fixture _ _ _ _ _ (by decide), rfl, rfl, script_answered _ _, rfl, rfl, by decide⟩

/-- `TableIndexRule`, `DiagEvalRule`, `BalanceRule`, `ErrorTermsAndPermissions`: the values at their edges. -/
theorem test_witness_edges :
    tableIndex refConfig.table 45 = 2 ∧ tableIndex refConfig.table (-30) = 0 ∧ tableIndex [] 0 = 0 ∧
    (∀ j, j < 4 ∨ 2 * 4 ≤ j → (List.replicate 12 (0 : Q)).getD j 0 = (List.replicate 12 (0 : Q)).getD j 0) ∧
    errorAll 0x10 = true ∧ allowCharge 0 enables = true ∧ qAbs (-1 / 2) = 1 / 2 ∧ ([1, 2] : List Q) ≠ [] ∧
    numSum .exact [1, 2, 3] = 6 ∧ numDiv .exact 6 4 = 3 / 2 := by
  refine ⟨by decide +kernel, by decide +kernel, by decide +kernel, fun _ _ => rfl, by decide, by decide,
    by decide +kernel, by decide, by decide +kernel, by decide +kernel⟩

end Sys2Proof.Tests
end

/-! SUPPORT. What a pass keeps of its surroundings, how a pass unfolds into sequencer steps, and where the operations of a
pack stop; with the statements of 00_scope.md they settle. -/

namespace Sys2Proof.Machine

open Sys2Proof.Safety

/-! ## What the environment and the sequencer leave alone -/

/-- The parameters and the pending request: what decides whether a step is one of the sequencer. -/
structure SameSetting (s t : State) : Prop where
  par : t.par = s.par
  request : t.request = s.request

theorem SameSetting.refl (s : State) : SameSetting s s := ⟨rfl, rfl⟩

theorem SameSetting.trans {s t u : State} (h1 : SameSetting s t) (h2 : SameSetting t u) : SameSetting s u :=
  ⟨h2.par.trans h1.par, h2.request.trans h1.request⟩

theorem applyWrite_sameSetting (s : State) (w : EnvWrite) : SameSetting s (applyWrite s w) := by
  cases w <;> exact ⟨rfl, rfl⟩

theorem applyMove_sameSetting (s : State) (m : List EnvWrite) : SameSetting s (applyMove s m) := by
  induction m generalizing s with
  | nil => exact .refl s
  | cons w m ih => exact (applyWrite_sameSetting s w).trans (ih (applyWrite s w))

theorem envMove_sameSetting (s : State) : SameSetting s (envMove s) := by
  unfold envMove
  split
  · next m ms _ => exact ⟨(applyMove_sameSetting _ m).par, (applyMove_sameSetting _ m).request⟩
  · next _ => exact ⟨(applyMove_sameSetting s.draw _).par, (applyMove_sameSetting s.draw _).request⟩

theorem Ended.sameSetting {p : Nat} {idle : Prop} {s t : State} (h : Ended p idle s t) : SameSetting s t := by
  cases h with
  | done u r h _ => exact ⟨h.par, h.request⟩
  | same _ => exact .refl s
  | abort u k h => exact ⟨h.par, h.request⟩

/-- A pack step leaves them alone, since it ends as an operation of its pack does. -/
theorem packStep_sameSetting {p : Nat} {s t : State} (h : exec (.packStep p) s = .next t) : SameSetting s t :=
  (ended_of_packOp (p := p) (c := s.cmd p) (by simp [packOps]) h).sameSetting

theorem advance_next {p : Nat} {o : Host.Outcome State Fault Refusal} {t : State} (h : advance p o = .next t) :
    ∃ u, o = .next u ∧ t = { u with cur := some (p + 1) } := by
  cases o with
  | next u => cases h; exact ⟨u, rfl, rfl⟩
  | fault f => cases h
  | refused r => cases h

/-- Everything a sequencer step at pack index `p` can do (42_pack_supervisor.md R170): end the pass, end it halted, go past a
disabled pack, or run the pack step and go on. -/
theorem passAt_next {p : Nat} {s t : State} (h : passAt p s = .next t) :
    (s.par.npack ≤ p ∧ t = { s with sync := false, cur := none }) ∨
    (0 < p ∧ s.shutdown = true ∧ t = { s with halted := true, sync := false, cur := none }) ∨
    ((s.tel p).state = codeDisabled ∧ t = { s with cur := some (p + 1) }) ∨
    ((s.tel p).state ≠ codeDisabled ∧ ∃ u, exec (.packStep p) s = .next u ∧ t = { u with cur := some (p + 1) }) := by
  unfold passAt at h
  split at h
  · next hp => cases h; exact .inl ⟨hp, rfl⟩
  split at h
  · next hs => cases h; exact .inr (.inl ⟨hs.1, hs.2, rfl⟩)
  split at h
  · cases h
  split at h
  · next hd => cases h; exact .inr (.inr (.inl ⟨hd, rfl⟩))
  · next hd => exact .inr (.inr (.inr ⟨hd, advance_next h⟩))

theorem passAt_sameSetting {p : Nat} {s t : State} (h : passAt p s = .next t) : SameSetting s t := by
  obtain ⟨_, rfl⟩ | ⟨_, _, rfl⟩ | ⟨_, rfl⟩ | ⟨_, u, hu, rfl⟩ := passAt_next h
  · exact ⟨rfl, rfl⟩
  · exact ⟨rfl, rfl⟩
  · exact ⟨rfl, rfl⟩
  · exact ⟨(packStep_sameSetting hu).par, (packStep_sameSetting hu).request⟩

theorem passBegin_sameSetting (s : State) : SameSetting s (passBegin s) := by
  unfold passBegin
  split
  · exact .refl s
  split <;> exact ⟨rfl, rfl⟩

theorem passStep_sameSetting {s t : State} (h : passStep s = .next t) : SameSetting s t := by
  unfold passStep at h
  split at h
  · cases h; exact passBegin_sameSetting s
  · exact passAt_sameSetting h

/-! ## A pass, step by step -/

/-- With nothing pending a step is the environment's move and one step of the sequencer. -/
theorem step_of_no_request {s : State} (hv : paramsValid s.par = true) (hr : s.request = none) :
    step s = passStep (envMove s) := by
  simp [step, hv, hr]

theorem steps_succ_of_next {s u : State} (n : Nat) (h : step s = .next u) : steps (n + 1) s = steps n u := by
  simp [steps, h]

/-- A turn of the loop of a pass: the environment's move and a sequencer step, after which the pass is over or goes on. -/
theorem passLoop_succ_next {n : Nat} {s t : State} (h : passLoop (n + 1) s = .next t) :
    ∃ u, passStep (envMove s) = .next u ∧ (u = t ∨ passLoop n u = .next t) := by
  unfold passLoop at h
  split at h
  · next u hu =>
    refine ⟨u, hu, ?_⟩
    split at h
    · cases h; exact .inl rfl
    · exact .inr h
  · cases h
  · cases h

/-- A pass that runs to its end is so many steps of the machine, one for each turn of its loop. -/
theorem passLoop_refines_steps {n : Nat} {s t : State} (hv : paramsValid s.par = true) (hr : s.request = none)
    (h : passLoop n s = .next t) : ∃ m, m ≤ n ∧ steps m s = .next t := by
  induction n generalizing s with
  | zero => exact ⟨0, Nat.le_refl 0, h⟩
  | succ n ih =>
    obtain ⟨u, hu, hend⟩ := passLoop_succ_next h
    have hstep : step s = .next u := (step_of_no_request hv hr).trans hu
    have hsame : SameSetting s u := (envMove_sameSetting s).trans (passStep_sameSetting hu)
    obtain rfl | hgo := hend
    · exact ⟨1, by omega, steps_succ_of_next 0 hstep⟩
    · obtain ⟨m, hm, hms⟩ := ih (by rw [hsame.par, hv]) (by rw [hsame.request, hr]) hgo
      exact ⟨m + 1, by omega, (steps_succ_of_next m hstep).trans hms⟩

/-- What `PASS` can end in: nothing begun, or the loop of a pass run to its end. -/
theorem pass_next {s t : State} (h : exec .pass s = .next t) :
    s.cur = none ∧ paramsValid s.par = true ∧
    ((passBegin s).cur = none ∧ t = passBegin s ∨ passLoop (s.par.npack + 1) (passBegin s) = .next t) := by
  simp only [exec, execPass] at h
  split at h
  · cases h
  next hc =>
  split at h
  · cases h
  next hv =>
  refine ⟨by simpa using hc, by simpa using hv, ?_⟩
  split at h
  · next hb => cases h; exact .inl ⟨by simpa using hb, rfl⟩
  · exact .inr h

/-- Settles O42: by induction on the turns of the pass's loop, each one step of the machine. -/
theorem passRefinesSteps : Obligations.PassRefinesSteps := by
  intro s t hr h hbegun
  obtain ⟨_, hv, ⟨hnone, _⟩ | hloop⟩ := pass_next h
  · exact absurd hnone hbegun
  · have hsame := passBegin_sameSetting s
    exact passLoop_refines_steps (by rw [hsame.par, hv]) (by rw [hsame.request, hr]) hloop

/-! ## Where an operation of a pack stops -/

theorem onPack_noSuchPack {p : Nat} {s : State} (hp : s.packs.length ≤ p) (t : State) :
    onPack p s t = .refused (.noSuchPack p) := by
  simp [onPack, hp]

theorem onPack_invalidParams {p : Nat} {s : State} (hp : p < s.packs.length) (hv : paramsValid s.par = false)
    (t : State) : onPack p s t = .refused .invalidParams := by
  simp [onPack, Nat.not_le.2 hp, hv]

theorem onPack_invalidConfig {p : Nat} {s : State} (hp : p < s.packs.length) (hv : paramsValid s.par = true)
    (hc : configValid s.par (s.cfg p) = false) (t : State) : onPack p s t = .refused (.invalidConfig p) := by
  simp [onPack, Nat.not_le.2 hp, hv, hc]

theorem onPack_valid {p : Nat} {s : State} (hp : p < s.packs.length) (hv : paramsValid s.par = true)
    (hc : configValid s.par (s.cfg p) = true) (t : State) : onPack p s t = .next t := by
  simp [onPack, Nat.not_le.2 hp, hv, hc]

/-- Every operation of a pack but `PACK_STEP` and `ST_DISABLED` looks at its pack, the parameters and the configuration
first. -/
theorem exec_eq_onPack {p : Nat} {c : Cmd} {i : Instr} (hi : i ∈ packOps p c) (h1 : i ≠ .packStep p)
    (h2 : i ≠ .stDisabled p) (s : State) : ∃ t, exec i s = onPack p s t := by
  simp only [packOps, List.mem_cons, List.not_mem_nil, or_false, h1, h2, false_or] at hi
  rcases hi with rfl | rfl | rfl | rfl | rfl | rfl | rfl | rfl | rfl | rfl | rfl | rfl | rfl | rfl | rfl | rfl | rfl |
    rfl | rfl | rfl | rfl | rfl <;> exact ⟨_, rfl⟩

/-- `PACK_STEP` and `ST_DISABLED` look whether there is a pack too. -/
theorem exec_noSuchPack {p : Nat} {c : Cmd} {i : Instr} {s : State} (hi : i ∈ packOps p c) (hp : s.packs.length ≤ p) :
    exec i s = .refused (.noSuchPack p) := by
  by_cases h1 : i = .packStep p
  · subst h1; simp [exec, execPackStep, hp]
  by_cases h2 : i = .stDisabled p
  · subst h2; simp [exec, execStDisabled, onSlot, Nat.not_lt.2 hp]
  obtain ⟨t, ht⟩ := exec_eq_onPack hi h1 h2 s
  rw [ht, onPack_noSuchPack hp]

/-- Settles O40: each operation but the two that are set apart is `onPack` of its next state, which stops by name. -/
theorem packOpsStopByName : Obligations.PackOpsStopByName := by
  intro p c i s hi
  refine ⟨exec_noSuchPack hi, fun h1 h2 hp => ?_⟩
  obtain ⟨t, ht⟩ := exec_eq_onPack hi h1 h2 s
  rw [ht]
  exact ⟨fun hv => onPack_invalidParams hp hv t, fun hv hc => onPack_invalidConfig hp hv hc t,
    fun hv hc => ⟨t, onPack_valid hp hv hc t⟩⟩

end Sys2Proof.Machine

/-! SUPPORT. What a pack step can do to its pack's record and to the lock, and what a step of the machine changes apart from
that; with the statements of 10_state.md they settle: the reset values, the transition relation and the three invariants. -/

namespace Sys2Proof.Machine

open Sys2Proof.Safety

/-! ## The end of a run leaves the records as they are -/

theorem Run.returned_eq {α : Type} (r : Run α) (f : α → OpResult) : ∃ v, r.returned f = r.state.setResult v := by
  rcases r with ⟨a | k, s⟩
  · exact ⟨f a, rfl⟩
  · exact ⟨.err k, rfl⟩

@[simp] theorem Run.finished_tel {α : Type} (r : Run α) (p q : Nat) (c : BitVec 4) (f : α → OpResult) :
    (r.finished p c f).tel q = r.state.tel q := by
  rcases r with ⟨a | k, s⟩ <;> rfl

@[simp] theorem Run.finished_packs {α : Type} (r : Run α) (p : Nat) (c : BitVec 4) (f : α → OpResult) :
    (r.finished p c f).packs = r.state.packs := by
  rcases r with ⟨a | k, s⟩ <;> rfl

@[simp] theorem Run.finished_diagLock {α : Type} (r : Run α) (p : Nat) (c : BitVec 4) (f : α → OpResult) :
    (r.finished p c f).diagLock = r.state.diagLock := by
  rcases r with ⟨a | k, s⟩ <;> rfl

@[simp] theorem Run.finished_cur {α : Type} (r : Run α) (p : Nat) (c : BitVec 4) (f : α → OpResult) :
    (r.finished p c f).cur = r.state.cur := by
  rcases r with ⟨a | k, s⟩ <;> rfl

/-! ## What a pack step does to the state register and the lock -/

/-- How the state register of pack `p` and the lock go from `s` to `t`: the register stays or moves on with the lock
unchanged, the free lock is taken with the move to `Diag0`, or it is released with the move out of `Diag2` (10_state.md R23,
R40). -/
inductive RegisterMove (p : Nat) (s t : State) : Prop where
  | stays (hlock : t.diagLock = s.diagLock) (hcode : (t.tel p).state = (s.tel p).state)
  | moves (hlock : t.diagLock = s.diagLock) (hfrom : (s.tel p).state ∉ [codeWaitDiag0, codeDiag2])
      (hto : (t.tel p).state ∈ successors (s.tel p).state)
  | acquires (hfree : s.diagLock = none) (hlock : t.diagLock = some p) (hfrom : (s.tel p).state = codeWaitDiag0)
      (hto : (t.tel p).state = codeDiag0)
  | releases (hlock : t.diagLock = none) (hfrom : (s.tel p).state = codeDiag2)
      (hto : (t.tel p).state ∈ [codeConfig, codeError])

/-- What the state operation `r` of a pack step of pack `p` does from `s`: it serves its pack, moves the state register and
the lock as they may move, and writes no measurement, limit or accumulator unless it is the run body. -/
structure StateOp (p : Nat) (s : State) (r : Run Unit) : Prop where
  serves : Serves p s r.state
  register : RegisterMove p s r.state
  record : Small p s r.state ∨ r = runBody p (s.cmd p) s

theorem RegisterMove.of_quiet {p : Nat} {s t : State} (h : Quiet p s t) : RegisterMove p s t := .stays h.lock h.code

theorem StateOp.of_moves {p : Nat} {c : BitVec 4} {s : State} {r : Run Unit} (hc : (s.tel p).state.toNat = c.toNat)
    (hn : c ∉ [codeWaitDiag0, codeDiag2]) (hm : Moves p (successors c) s r.state)
    (hr : Small p s r.state ∨ r = runBody p (s.cmd p) s) : StateOp p s r := by
  obtain rfl := BitVec.eq_of_toNat_eq hc
  exact ⟨hm.toServes, hm.codes.elim (.stays hm.lock) (.moves hm.lock hn), hr⟩

theorem stateOp_waitdiag0 {p : Nat} {s : State} (hp : p < s.packs.length) (hc : (s.tel p).state = codeWaitDiag0) :
    StateOp p s (.pure () (stWaitdiag0 p s)) := by
  refine ⟨stWaitdiag0_serves p s, ?_, .inl (stWaitdiag0_small p s)⟩
  obtain ⟨hfree, h⟩ | ⟨_, h⟩ := stWaitdiag0_cases p s <;> rw [Run.pure_state, h]
  · refine .acquires hfree rfl hc ?_
    show ((s.setCode p codeDiag0).tel p).state = codeDiag0
    rw [State.tel_setCode_self s p _ hp]
  · exact .stays rfl rfl

theorem stateOp_diag2 {p : Nat} {s : State} (hp : p < s.packs.length) (hc : (s.tel p).state = codeDiag2) :
    StateOp p s (stDiag2 p s) := by
  refine ⟨stDiag2_serves p s, ?_, .inl (stDiag2_small p s)⟩
  obtain ⟨_, hq⟩ | ⟨_, _, hlock, hto | hout⟩ := stDiag2_cases p s
  · exact .of_quiet hq
  · exact .releases hlock hc hto
  · omega

theorem StateOp.ends {p : Nat} {s t : State} {r : Run Unit} (hr : StateOp p s r)
    (h : onPack p s (r.finished p (s.tel p).state fun _ => .done) = .next t) :
    ∃ r, StateOp p s r ∧ t = r.finished p (s.tel p).state fun _ => .done :=
  ⟨r, hr, (onPack_next h).1⟩

/-- A pack step that ends in a next state does nothing, in a disabled pack, or ends a state operation. -/
theorem packStep_stateOp {p : Nat} {s t : State} (h : exec (.packStep p) s = .next t) :
    t = s ∨ ∃ r, StateOp p s r ∧ t = r.finished p (s.tel p).state fun _ => .done := by
  obtain ⟨hp, i, hi, hx⟩ := packStep_next h
  unfold decodeState at hi
  split at hi <;> cases hi
  case h_1.refl hc =>
    left
    simpa [exec, execStDisabled, onSlot, hp, eq_comm] using hx
  all_goals right
  case h_2.refl hc =>
    exact StateOp.ends (.of_moves (c := codeWaitInit) hc (by decide) (stWaitinit_moves p s)
      (.inl (stWaitinit_small p s))) hx
  case h_3.refl hc =>
    exact StateOp.ends (.of_moves (c := codeInit) hc (by decide) (stInit_moves p s) (.inl (stInit_small p s))) hx
  case h_4.refl hc => exact (stateOp_waitdiag0 hp (BitVec.eq_of_toNat_eq hc)).ends hx
  case h_5.refl hc =>
    exact StateOp.ends (.of_moves (c := codeDiag0) hc (by decide) (stDiag0_moves p s) (.inl (stDiag0_small p s))) hx
  case h_6.refl hc =>
    exact StateOp.ends (r := .pure () (s.setCode p codeDiag1)) (.of_moves (c := codeWaitDiag1) hc (by decide)
      (Moves.setCode p s (by decide) (by decide)) (.inl (Small.setCode p s _))) hx
  case h_7.refl hc =>
    exact StateOp.ends (.of_moves (c := codeDiag1) hc (by decide) (stDiag1_moves p s) (.inl (stDiag1_small p s))) hx
  case h_8.refl hc =>
    exact StateOp.ends (r := .pure () (s.setCode p codeDiag2)) (.of_moves (c := codeWaitDiag2) hc (by decide)
      (Moves.setCode p s (by decide) (by decide)) (.inl (Small.setCode p s _))) hx
  case h_9.refl hc => exact (stateOp_diag2 hp (BitVec.eq_of_toNat_eq hc)).ends hx
  case h_10.refl hc =>
    exact StateOp.ends (.of_moves (c := codeConfig) hc (by decide) (stConfig_moves p s) (.inl (stConfig_small p s))) hx
  case h_11.refl hc => exact StateOp.ends (.of_moves (c := codeRun) hc (by decide) (runBody_moves p _ s) (.inr rfl)) hx
  case h_12.refl hc =>
    exact StateOp.ends (.of_moves (c := codeRunWarning) hc (by decide) (runBody_moves p _ s) (.inr rfl)) hx
  case h_13.refl hc =>
    exact StateOp.ends (.of_moves (c := codeSanityCheck) hc (by decide) (runBody_moves p _ s) (.inr rfl)) hx
  case h_14.refl hc =>
    exact StateOp.ends (r := .pure () (stError p (s.cmd p) s)) (.of_moves (c := codeError) hc (by decide)
      (stError_moves p _ s) (.inl (stError_small p _ s))) hx

/-- Settles O34: each way the state register moves is along the table of successors. -/
theorem transitionRelation : Obligations.TransitionRelation := by
  intro p s t h
  obtain rfl | ⟨r, hr, rfl⟩ := packStep_stateOp h
  · exact .inl rfl
  rw [Run.finished_tel]
  cases hr.register with
  | stays _ hcode => exact .inl hcode
  | moves _ _ hto => exact .inr hto
  | acquires _ _ hfrom hto => rw [hfrom, hto]; decide
  | releases _ hfrom hto => rw [hfrom]; exact .inr hto

/-! ## What the environment and a request leave unchanged -/

/-- The parameters, the number of packs, every telemetry record, the lock and the buffer: what nothing but a pack step
writes (10_state.md R47; 20_memory.md R73). -/
structure SameRecords (s t : State) : Prop where
  par : t.par = s.par
  length : t.packs.length = s.packs.length
  tel : ∀ p, t.tel p = s.tel p
  lock : t.diagLock = s.diagLock
  buf : t.diagBuf = s.diagBuf

theorem SameRecords.refl (s : State) : SameRecords s s := ⟨rfl, rfl, fun _ => rfl, rfl, rfl⟩

theorem SameRecords.trans {s t u : State} (h1 : SameRecords s t) (h2 : SameRecords t u) : SameRecords s u :=
  ⟨h2.par.trans h1.par, h2.length.trans h1.length, fun p => (h2.tel p).trans (h1.tel p), h2.lock.trans h1.lock,
    h2.buf.trans h1.buf⟩

theorem SameRecords.of_busOnly {s t : State} (h : BusOnly s t) : SameRecords s t :=
  ⟨h.par, congrArg List.length h.packs, h.tel, h.diagLock, h.diagBuf⟩

/-- What the environment's writes leave: the records and the sequencer, but for the shutdown flag (10_state.md R37, R39,
R43). -/
structure InputsOnly (s t : State) : Prop extends SameRecords s t where
  sel : t.sel = s.sel
  cur : t.cur = s.cur
  sync : t.sync = s.sync
  halted : t.halted = s.halted

theorem InputsOnly.refl (s : State) : InputsOnly s s := ⟨.refl s, rfl, rfl, rfl, rfl⟩

theorem InputsOnly.trans {s t u : State} (h1 : InputsOnly s t) (h2 : InputsOnly t u) : InputsOnly s u :=
  ⟨h1.toSameRecords.trans h2.toSameRecords, h2.sel.trans h1.sel, h2.cur.trans h1.cur, h2.sync.trans h1.sync,
    h2.halted.trans h1.halted⟩

/-- A write to a pack that leaves its telemetry record leaves every telemetry record. -/
theorem tel_modify (packs : List Pack) (p q : Nat) {f : Pack → Pack} (hf : ∀ k, (f k).tel = k.tel) :
    ((packs.modify p f).getD q default).tel = (packs.getD q default).tel := by
  simp only [List.getD_eq_getElem?_getD, List.getElem?_modify]
  cases packs[q]? with
  | none => rfl
  | some k => by_cases h : p = q <;> simp [h, hf]

theorem modify_inputsOnly (s : State) (p : Nat) {f : Pack → Pack} (hf : ∀ k, (f k).tel = k.tel) :
    InputsOnly s { s with packs := s.packs.modify p f } :=
  ⟨⟨rfl, List.length_modify .., fun q => tel_modify s.packs p q hf, rfl, rfl⟩, rfl, rfl, rfl, rfl⟩

theorem applyWrite_inputsOnly (s : State) (w : EnvWrite) : InputsOnly s (applyWrite s w) := by
  cases w with
  | cmd p c => exact modify_inputsOnly s p fun _ => rfl
  | shutdown b => exact { InputsOnly.refl s with }
  | vbus v => exact { InputsOnly.refl s with }
  | sanity p b => exact modify_inputsOnly s p fun _ => rfl

theorem applyMove_inputsOnly (s : State) (m : List EnvWrite) : InputsOnly s (applyMove s m) := by
  induction m generalizing s with
  | nil => exact .refl s
  | cons w m ih => exact (applyWrite_inputsOnly s w).trans (ih (applyWrite s w))

theorem envMove_inputsOnly (s : State) : InputsOnly s (envMove s) := by
  have henv (n : Env) : InputsOnly s { s with env := n } := { InputsOnly.refl s with }
  unfold envMove
  split
  · exact (henv _).trans (applyMove_inputsOnly _ _)
  · exact (henv _).trans (applyMove_inputsOnly s.draw _)

/-- A coded request is a select, a register write or a register read (30_encoding.md R90). -/
theorem decodeRequest_cases {n : Nat} {r : Request} {i : Instr} (h : decodeRequest n r = .ok i) :
    (∃ p, i = .select p) ∨ (∃ a v, i = .wrreg a v) ∨ ∃ a k, i = .rdreg a k := by
  cases r with
  | frame bytes =>
    replace h : decodeFrame bytes = .ok i := h
    unfold decodeFrame at h
    split at h
    · split_ifs at h
      · split at h <;> cases h
        exact .inr (.inl ⟨_, _, rfl⟩)
      · cases h
        exact .inr (.inr ⟨_, _, rfl⟩)
    · cases h
  | lines ls =>
    replace h : decodeLines n ls = .ok i := h
    unfold decodeLines at h
    split at h <;> cases h
    exact .inl ⟨_, rfl⟩

/-- A request at the framer's interface changes what the framer may change, and a result. -/
theorem request_next {n : Nat} {r : Request} {i : Instr} {s t : State} (hi : decodeRequest n r = .ok i)
    (h : exec i s = .next t) :
    ∃ u v, BusOnly s u ∧ (s.sel.length = s.par.nsel → u.sel.length = s.par.nsel) ∧ t = u.setResult v := by
  obtain ⟨p, rfl⟩ | ⟨a, v, rfl⟩ | ⟨a, k, rfl⟩ := decodeRequest_cases hi <;> cases h
  · obtain ⟨v, hv⟩ := (select p s).returned_eq fun _ => .done
    exact ⟨_, v, select_busOnly p s, select_sel_length p s, hv⟩
  · obtain ⟨w, hw⟩ := (wrreg a v s).returned_eq fun _ => .done
    exact ⟨_, w, wrreg_busOnly a v s, by rw [wrreg_sel]; exact id, hw⟩
  · obtain ⟨w, hw⟩ := (rdreg a k s).returned_eq .words
    exact ⟨_, w, rdreg_busOnly a k s, by rw [rdreg_sel]; exact id, hw⟩

/-! ## What a step of the machine is -/

/-- A step runs a pending request, or the environment moves and the sequencer makes a step. -/
theorem step_next {s t : State} (h : step s = .next t) :
    paramsValid s.par = true ∧
    ((∃ r i, s.request = some r ∧ decodeRequest s.par.nsel r = .ok i ∧ exec i { s with request := none } = .next t) ∨
     (s.request = none ∧ passStep (envMove s) = .next t)) := by
  unfold step at h
  split at h
  · cases h
  next hv =>
  refine ⟨by simpa using hv, ?_⟩
  split at h
  · next r hr =>
    unfold runRequest at h
    split at h
    · next i hi => exact .inl ⟨r, i, hr, hi, h⟩
    · cases h
  · next hr => exact .inr ⟨hr, h⟩

theorem passBegin_sameRecords (s : State) : SameRecords s (passBegin s) := by
  unfold passBegin
  split
  · exact .refl s
  split <;> exact ⟨rfl, rfl, fun _ => rfl, rfl, rfl⟩

theorem setCur_sameRecords (s : State) (c : Option Nat) : SameRecords s { s with cur := c } :=
  ⟨rfl, rfl, fun _ => rfl, rfl, rfl⟩

/-- The records change in no step but by one pack step: the request, the environment and the sequencer leave them. -/
theorem step_records {s t : State} (h : step s = .next t) :
    SameRecords s t ∨ ∃ p u v, SameRecords s u ∧ exec (.packStep p) u = .next v ∧ SameRecords v t := by
  obtain ⟨_, ⟨r, i, _, hi, hx⟩ | ⟨_, hx⟩⟩ := step_next h
  · obtain ⟨u, v, hu, _, rfl⟩ := request_next hi hx
    have h0 : SameRecords s { s with request := none } := ⟨rfl, rfl, fun _ => rfl, rfl, rfl⟩
    exact .inl (h0.trans ((SameRecords.of_busOnly hu).trans ⟨rfl, rfl, fun _ => rfl, rfl, rfl⟩))
  · have he := (envMove_inputsOnly s).toSameRecords
    unfold passStep at hx
    split at hx
    · cases hx
      exact .inl (he.trans (passBegin_sameRecords _))
    next p _ =>
    obtain ⟨_, rfl⟩ | ⟨_, _, rfl⟩ | ⟨_, rfl⟩ | ⟨_, v, hv, rfl⟩ := passAt_next hx
    · exact .inl (he.trans ⟨rfl, rfl, fun _ => rfl, rfl, rfl⟩)
    · exact .inl (he.trans ⟨rfl, rfl, fun _ => rfl, rfl, rfl⟩)
    · exact .inl (he.trans (setCur_sameRecords _ _))
    · exact .inr ⟨p, envMove s, v, he, hv, setCur_sameRecords v _⟩

/-- An invariant of the records that every pack step keeps is one that every step keeps. -/
theorem step_keeps {P : State → Prop} (hsame : ∀ s t, SameRecords s t → P s → P t)
    (hpack : ∀ p s t, exec (.packStep p) s = .next t → P s → P t) {s t : State} (hs : P s) (h : step s = .next t) :
    P t := by
  obtain hr | ⟨p, u, v, hu, hv, ht⟩ := step_records h
  · exact hsame s t hr hs
  · exact hsame v t ht (hpack p u v hv (hsame s u hu hs))

/-! ## The lock -/

/-- Moving along the table, but for `WaitDiag0` and `Diag2`, neither enters nor leaves the diagnosis. -/
theorem inDiagnosis_of_successor {c d : BitVec 4} (hc : c ∉ [codeWaitDiag0, codeDiag2]) (hd : d ∈ successors c) :
    inDiagnosis d ↔ inDiagnosis c := by
  unfold inDiagnosis
  revert c d
  decide

theorem SameRecords.lockInv {s t : State} (h : SameRecords s t) (hs : LockInv s) : LockInv t := by
  constructor
  · intro p hp
    rw [h.tel, h.lock]
    exact hs.holder p (h.length ▸ hp)
  · intro p hp
    rw [h.length]
    exact hs.owner p (h.lock ▸ hp)

/-- Each way the state register and the lock move keeps the lock with the pack in diagnosis. -/
theorem RegisterMove.lockInv {p : Nat} {s t : State} (hp : p < s.packs.length) (hlen : t.packs.length = s.packs.length)
    (hother : ∀ q, q ≠ p → t.tel q = s.tel q) (h : RegisterMove p s t) (hs : LockInv s) : LockInv t := by
  have hkept (hlock : t.diagLock = s.diagLock) (hdiag : inDiagnosis (t.tel p).state ↔ inDiagnosis (s.tel p).state) :
      LockInv t := by
    refine ⟨fun q hq => ?_, fun q hq => ?_⟩
    · rw [hlock, ← hs.holder q (hlen ▸ hq)]
      by_cases hqp : q = p
      · rw [hqp, hdiag]
      · rw [hother q hqp]
    · rw [hlen]
      exact hs.owner q (hlock ▸ hq)
  cases h with
  | stays hlock hcode => exact hkept hlock (by rw [hcode])
  | moves hlock hfrom hto => exact hkept hlock (inDiagnosis_of_successor hfrom hto)
  | acquires hfree hlock hfrom hto =>
    refine ⟨fun q hq => ?_, fun q hq => ?_⟩
    · by_cases hqp : q = p
      · rw [hqp, hlock, hto]
        simp [inDiagnosis, codeDiag0]
      · rw [hother q hqp, hs.holder q (hlen ▸ hq), hfree, hlock]
        simp [Ne.symm hqp]
    · rw [hlock] at hq
      cases hq
      exact hlen ▸ hp
  | releases hlock hfrom hto =>
    have hheld : s.diagLock = some p := (hs.holder p hp).1 (by rw [hfrom]; simp [inDiagnosis, codeDiag2])
    refine ⟨fun q hq => ?_, fun q hq => ?_⟩
    · rw [hlock]
      by_cases hqp : q = p
      · have hout : ¬ inDiagnosis (t.tel p).state := by
          revert hto
          generalize (t.tel p).state = c
          unfold inDiagnosis
          revert c
          decide
        simp [hqp, hout]
      · rw [hother q hqp, hs.holder q (hlen ▸ hq), hheld]
        simp [Ne.symm hqp]
    · rw [hlock] at hq
      cases hq

theorem packStep_lockInv {p : Nat} {s t : State} (h : exec (.packStep p) s = .next t) (hs : LockInv s) : LockInv t := by
  obtain rfl | ⟨r, hr, rfl⟩ := packStep_stateOp h
  · exact hs
  have hrun : LockInv r.state := hr.register.lockInv (packStep_next h).1 hr.serves.length
    (fun q hq => congrArg Pack.tel (hr.serves.other q hq)) hs
  exact ⟨by simpa using hrun.holder, by simpa using hrun.owner⟩

/-- Settles O46: the lock and the state register move together, in the pack step alone. -/
theorem lockInvKept : Obligations.LockInvKept := fun _ _ hs h =>
  step_keeps (fun _ _ hr => hr.lockInv) (fun _ _ _ hp => packStep_lockInv hp) hs h

/-! ## The shape of the state -/

/-- With the records unchanged a state stays well formed, if the lines keep their number and the sequencer's own fields still
belong together. -/
theorem SameRecords.stateWf {s t : State} (h : SameRecords s t) (hs : StateWf s) (hsel : t.sel.length = t.par.nsel)
    (hsync : t.sync = t.cur.isSome) (hcur : ∀ p, t.cur = some p → p ≤ t.par.npack)
    (hhalted : t.halted = true → t.cur = none) : StateWf t where
  params := by rw [h.par]; exact hs.params
  count := by rw [h.par, h.length]; exact hs.count
  tel p hp := by rw [h.par, h.tel]; exact hs.tel p (h.length ▸ hp)
  sel := hsel
  diagBuf := by rw [h.par, h.buf]; exact hs.diagBuf
  sync := hsync
  cur := hcur
  halted := hhalted

theorem envMove_stateWf {s : State} (hs : StateWf s) : StateWf (envMove s) := by
  have h := envMove_inputsOnly s
  refine h.stateWf hs ?_ ?_ ?_ ?_
  · rw [h.sel, h.par]; exact hs.sel
  · rw [h.sync, h.cur]; exact hs.sync
  · rw [h.cur, h.par]; exact hs.cur
  · rw [h.halted, h.cur]; exact hs.halted

theorem setResult_stateWf {s : State} (hs : StateWf s) (v : OpResult) : StateWf (s.setResult v) :=
  { hs with }

/-- Neither a result nor an abort taken is part of the shape. -/
theorem finished_stateWf {α : Type} {r : Run α} (hs : StateWf r.state) (p : Nat) (c : BitVec 4) (f : α → OpResult) :
    StateWf (r.finished p c f) := by
  rcases r with ⟨a | k, u⟩ <;> exact { hs with }

/-- A request is the framer's: the lines keep their number, and nothing else of the shape is written. -/
theorem request_stateWf {n : Nat} {r : Request} {i : Instr} {s t : State} (hi : decodeRequest n r = .ok i)
    (h : exec i s = .next t) (hs : StateWf s) : StateWf t := by
  obtain ⟨u, v, hu, hsel, rfl⟩ := request_next hi h
  refine setResult_stateWf ((SameRecords.of_busOnly hu).stateWf hs ?_ ?_ ?_ ?_) v
  · rw [hu.par]; exact hsel hs.sel
  · rw [hu.sync, hu.cur]; exact hs.sync
  · rw [hu.cur, hu.par]; exact hs.cur
  · rw [hu.halted, hu.cur]; exact hs.halted

theorem passBegin_stateWf {s : State} (hs : StateWf s) (hidle : s.cur = none) : StateWf (passBegin s) := by
  unfold passBegin
  split
  · exact hs
  next hrunning =>
  split
  · exact { hs with halted := fun _ => hidle }
  · exact { hs with
      sync := rfl
      cur := fun p hp => by simp at hp; omega
      halted := fun h => absurd h hrunning }

/-- What serves a pack keeps its record well formed, leaves the other packs', and leaves the sequencer alone. -/
theorem stateWf_of_serves {p : Nat} {s t : State} (h : Serves p s t) (hs : StateWf s) : StateWf t where
  params := by rw [h.par]; exact hs.params
  count := by rw [h.par, h.length]; exact hs.count
  tel q hq := by
    rw [h.par]
    have hwf := hs.tel q (h.length ▸ hq)
    by_cases hqp : q = p
    · subst hqp
      exact h.wf hwf
    · rw [State.tel, h.other q hqp]
      exact hwf
  sel := by rw [h.par]; exact h.lines hs.sel
  diagBuf := by rw [h.par]; exact h.buf hs.diagBuf
  sync := by rw [h.sync, h.cur]; exact hs.sync
  cur := by rw [h.cur, h.par]; exact hs.cur
  halted := by rw [h.halted, h.cur]; exact hs.halted

theorem packStep_stateWf {p : Nat} {s t : State} (h : exec (.packStep p) s = .next t) (hs : StateWf s) : StateWf t := by
  obtain rfl | ⟨r, hr, rfl⟩ := packStep_stateOp h
  · exact hs
  · exact finished_stateWf (stateWf_of_serves hr.serves hs) _ _ _

/-- A pack step does not touch the pass index. -/
theorem packStep_cur {p : Nat} {s t : State} (h : exec (.packStep p) s = .next t) : t.cur = s.cur := by
  obtain rfl | ⟨r, hr, rfl⟩ := packStep_stateOp h
  · rfl
  · exact (Run.finished_cur ..).trans hr.serves.cur

/-- The end of a pass, halted or not. -/
theorem passEnd_stateWf {s : State} (hs : StateWf s) (b : Bool) :
    StateWf { s with halted := b, sync := false, cur := none } :=
  { hs with
    sync := rfl
    cur := fun _ h => by cases h
    halted := fun _ => rfl }

/-- Going on to the next pack of a pass. -/
theorem nextPack_stateWf {s : State} (hs : StateWf s) {p : Nat} (hcur : s.cur.isSome = true) (hp : p < s.par.npack) :
    StateWf { s with cur := some (p + 1) } :=
  { hs with
    sync := hs.sync.trans hcur
    cur := fun _ h => by cases h; exact hp
    halted := fun h => by simp [hs.halted h] at hcur }

theorem passAt_end {p : Nat} {s : State} (hp : s.par.npack ≤ p) :
    passAt p s = .next { s with sync := false, cur := none } := by
  simp [passAt, hp]

theorem passAt_stateWf {p : Nat} {s t : State} (hs : StateWf s) (hcur : s.cur = some p) (h : passAt p s = .next t) :
    StateWf t := by
  by_cases hp : s.par.npack ≤ p
  · rw [passAt_end hp] at h
    cases h
    exact passEnd_stateWf hs s.halted
  have hp : p < s.par.npack := Nat.not_le.1 hp
  obtain ⟨_, rfl⟩ | ⟨_, _, rfl⟩ | ⟨_, rfl⟩ | ⟨_, u, hu, rfl⟩ := passAt_next h
  · exact passEnd_stateWf hs s.halted
  · exact passEnd_stateWf hs true
  · exact nextPack_stateWf hs (by rw [hcur]; rfl) hp
  · exact nextPack_stateWf (packStep_stateWf hu hs) (by rw [packStep_cur hu, hcur]; rfl)
      (by rwa [(packStep_sameSetting hu).par])

/-- Settles O47: the parts of a step, the request, the environment's move, the begin of a pass, and a step of the sequencer
within one, each keep the shape. -/
theorem stateWfKept : Obligations.StateWfKept := by
  intro s t hs h
  obtain ⟨_, ⟨r, i, _, hi, hx⟩ | ⟨_, hx⟩⟩ := step_next h
  · exact request_stateWf hi hx { hs with }
  · have hs := envMove_stateWf hs
    unfold passStep at hx
    split at hx
    · next hidle => cases hx; exact passBegin_stateWf hs hidle
    · next p hcur => exact passAt_stateWf hs hcur hx

/-! ## The accumulators -/

/-- From `s` to `t` the parameters stay, and with exact numerics the accumulator of pack `p` does not become negative. -/
structure KeepsAccumulator (p : Nat) (s t : State) : Prop where
  par : t.par = s.par
  nonneg : s.par.num = .exact → 0 ≤ s.par.cycleS → 0 ≤ (s.tel p).i2t → 0 ≤ (t.tel p).i2t

theorem KeepsAccumulator.of_eq {p : Nat} {s t : State} (hpar : t.par = s.par) (h : (t.tel p).i2t = (s.tel p).i2t) :
    KeepsAccumulator p s t :=
  ⟨hpar, fun _ _ hs => h ▸ hs⟩

theorem KeepsAccumulator.trans {p : Nat} {s t u : State} (h1 : KeepsAccumulator p s t) (h2 : KeepsAccumulator p t u) :
    KeepsAccumulator p s u :=
  ⟨h2.par.trans h1.par, fun hn hc hs => h2.nonneg (h1.par ▸ hn) (h1.par ▸ hc) (h1.nonneg hn hc hs)⟩

theorem keepsAccumulator_andThen {α β : Type} {p : Nat} {s : State} {r : Run α} {f : α → State → Run β}
    (h1 : KeepsAccumulator p s r.state) (h2 : ∀ a t, KeepsAccumulator p t (f a t).state) :
    KeepsAccumulator p s (r.andThen f).state :=
  Run.andThen_keeps (P := KeepsAccumulator p s) h1 fun a t ht => ht.trans (h2 a t)

theorem keepsAccumulator_of_busOf {p : Nat} {s t : State} (h : BusOf p s t) : KeepsAccumulator p s t :=
  .of_eq h.only.par (by rw [h.only.tel])

theorem keepsAccumulator_of_small {p : Nat} {s t : State} (hpar : t.par = s.par) (h : Small p s t) :
    KeepsAccumulator p s t := by
  obtain ⟨c, d, a, htel, _⟩ := h
  exact .of_eq hpar (by rw [htel])

/-- A write of the record that keeps the accumulator, or gives it a value that is not negative. -/
theorem KeepsAccumulator.setTel {p : Nat} {s : State} {t : Telemetry}
    (h : s.par.num = .exact → 0 ≤ s.par.cycleS → 0 ≤ (s.tel p).i2t → 0 ≤ t.i2t) :
    KeepsAccumulator p s (s.setTel p t) := by
  refine ⟨rfl, fun hn hc hs => ?_⟩
  obtain ht | ht := tel_setTel_cases s p t <;> rw [ht]
  · exact h hn hc hs
  · exact hs

theorem qMax_zero_nonneg (a : Q) : 0 ≤ qMax 0 a := by
  unfold qMax
  split
  · assumption
  · exact le_refl 0

/-- One cycle of the thermal model: heating adds a square, and the decay is floored (43_limits_thermal.md R225). -/
theorem i2tOf_nonneg {par : Params} (g : PackConfig) {t : Telemetry} (hn : par.num = .exact) (hc : 0 ≤ par.cycleS)
    (ht : 0 ≤ t.i2t) : 0 ≤ i2tOf par g t := by
  unfold i2tOf
  split
  · simp only [hn, numAdd, numMul]
    have hsq := mul_self_nonneg t.current
    positivity
  · exact qMax_zero_nonneg _

theorem readTelemetry_keepsAccumulator (p : Nat) (s : State) : KeepsAccumulator p s (readTelemetry p s).state :=
  keepsAccumulator_andThen (keepsAccumulator_of_busOf (readBlocks_busOf p _ s)) fun _ _ => .setTel fun _ _ h => h

theorem runStages_keepsAccumulator (p : Nat) (c : Cmd) (s : State) : KeepsAccumulator p s (runStages p c s) := by
  have hclear : KeepsAccumulator p s (alertClear p c s) := by
    unfold alertClear
    split
    · exact .setTel fun _ _ h => h
    · exact .of_eq rfl rfl
  have hlimits (u : State) : KeepsAccumulator p u (limits p u) := .setTel fun _ _ h => h
  have hi2t (u : State) : KeepsAccumulator p u (i2t p u) := .setTel fun hn hc h => i2tOf_nonneg _ hn hc h
  have halerts (u : State) : KeepsAccumulator p u (alerts p u) := .setTel fun _ _ h => h
  exact ((hclear.trans (hlimits _)).trans (hi2t _)).trans (halerts _)

theorem nextRunState_keepsAccumulator (p : Nat) (s : State) : KeepsAccumulator p s (nextRunState p s) := by
  unfold nextRunState
  split
  · exact .setTel fun _ _ h => h
  · split <;> exact .setTel fun _ _ h => h

/-- Of the stages of a run body only the thermal model writes the accumulator. -/
theorem runBody_keepsAccumulator (p : Nat) (c : Cmd) (s : State) : KeepsAccumulator p s (runBody p c s).state := by
  refine keepsAccumulator_andThen (readTelemetry_keepsAccumulator p s) fun _ t => ?_
  refine (runStages_keepsAccumulator p c t).trans ?_
  refine keepsAccumulator_andThen (keepsAccumulator_of_busOf (afeWrite_busOf p _ _ _)) fun _ u => ?_
  have hdrive (d : BitVec 3) : KeepsAccumulator p u (u.setDrive p d) := .setTel fun _ _ h => h
  exact (hdrive _).trans (keepsAccumulator_andThen (keepsAccumulator_of_busOf (balanceIfDue_busOf p _)) fun _ w =>
    nextRunState_keepsAccumulator p w)

theorem StateOp.keepsAccumulator {p : Nat} {s : State} {r : Run Unit} (h : StateOp p s r) :
    KeepsAccumulator p s r.state := by
  obtain hsmall | rfl := h.record
  · exact keepsAccumulator_of_small h.serves.par hsmall
  · exact runBody_keepsAccumulator p _ s

/-- The invariant of the accumulators with what the thermal model needs of the parameters. -/
structure AccumulatorInv (s : State) : Prop where
  exactNum : s.par.num = .exact
  cycle : 0 ≤ s.par.cycleS
  nonneg : AccumulatorsNonneg s

theorem SameRecords.accumulatorInv {s t : State} (h : SameRecords s t) (hs : AccumulatorInv s) : AccumulatorInv t where
  exactNum := by rw [h.par]; exact hs.exactNum
  cycle := by rw [h.par]; exact hs.cycle
  nonneg p hp := by rw [h.tel]; exact hs.nonneg p (h.length ▸ hp)

theorem packStep_accumulatorInv {p : Nat} {s t : State} (h : exec (.packStep p) s = .next t) (hs : AccumulatorInv s) :
    AccumulatorInv t := by
  have hpar := (packStep_sameSetting h).par
  refine ⟨hpar ▸ hs.exactNum, hpar ▸ hs.cycle, ?_⟩
  obtain rfl | ⟨r, hr, rfl⟩ := packStep_stateOp h
  · exact hs.nonneg
  intro q hq
  rw [Run.finished_packs, hr.serves.length] at hq
  rw [Run.finished_tel]
  by_cases hqp : q = p
  · subst hqp
    exact hr.keepsAccumulator.nonneg hs.exactNum hs.cycle (hs.nonneg q hq)
  · rw [State.tel, hr.serves.other q hqp]
    exact hs.nonneg q hq

/-- Settles O48: only the thermal model of the run body writes an accumulator, and it keeps it at or above 0 since the cycle
time of a CORE is above 0. -/
theorem accumulatorsStayNonneg : Obligations.AccumulatorsStayNonneg := by
  intro s t hn hs h
  obtain ⟨⟨_, _, _, _, _, hcycle, _⟩, _⟩ := paramsValid_spec (step_next h).1
  have hinv := step_keeps (P := AccumulatorInv) (fun _ _ hr => hr.accumulatorInv)
    (fun _ _ _ hp => packStep_accumulatorInv hp) ⟨hn, hcycle.le, hs⟩ h
  exact hinv.nonneg

/-! ## Reset -/

/-- A pack after reset: its telemetry record all zero but the identity and the state, no command, the loaded configuration. -/
theorem pack_resetWith (par : Params) (g : Nat → PackConfig) {p : Nat} (hp : p < par.npack) :
    (State.resetWith par g).pack p = ⟨telReset par p, ⟨false, false, false, false⟩, g p, false⟩ := by
  simp [State.pack, State.resetWith, List.getD_eq_getElem?_getD, hp]

@[simp] theorem length_resetWith (par : Params) (g : Nat → PackConfig) :
    (State.resetWith par g).packs.length = par.npack := by
  simp [State.resetWith]

theorem tel_resetWith (par : Params) (g : Nat → PackConfig) {p : Nat} (hp : p < par.npack) :
    (State.resetWith par g).tel p = telReset par p := by
  rw [State.tel, pack_resetWith par g hp]

theorem telReset_state_cases (par : Params) (p : Nat) :
    (telReset par p).state = codeWaitInit ∨ (telReset par p).state = codeDisabled := by
  simp only [telReset]
  split
  · exact .inl rfl
  · exact .inr rfl

theorem telReset_wf (par : Params) (p : Nat) : TelWf par.ncell p (telReset par p) where
  ident := rfl
  code := by obtain h | h := telReset_state_cases par p <;> rw [h] <;> decide
  reservedBits _ _ := BitVec.getLsbD_zero
  capacity := rfl
  health := rfl
  cycles := rfl
  cells := List.length_replicate
  cellOv := List.length_replicate
  cellUv := List.length_replicate

theorem resetWith_lockInv (par : Params) (g : Nat → PackConfig) : LockInv (State.resetWith par g) where
  holder p hp := by
    rw [length_resetWith] at hp
    rw [tel_resetWith par g hp]
    obtain h | h := telReset_state_cases par p <;> rw [h] <;>
      simp [State.resetWith, inDiagnosis, codeWaitInit, codeDisabled]
  owner p h := by cases h

theorem resetWith_accumulatorsNonneg (par : Params) (g : Nat → PackConfig) :
    AccumulatorsNonneg (State.resetWith par g) := by
  intro p hp
  rw [length_resetWith] at hp
  rw [tel_resetWith par g hp]
  exact le_refl 0

theorem resetWith_stateWf {par : Params} (g : Nat → PackConfig) (hv : paramsValid par = true) :
    StateWf (State.resetWith par g) where
  params := hv
  count := length_resetWith par g
  tel p hp := by
    rw [length_resetWith] at hp
    rw [tel_resetWith par g hp]
    exact telReset_wf par p
  sel := List.length_replicate
  diagBuf := List.length_replicate
  sync := rfl
  cur p h := by cases h
  halted h := by cases h

/-- Settles O49: the reset record of each pack field by field, and the invariants from it. -/
theorem resetValues : Obligations.ResetValues := by
  rintro par g s rfl
  refine ⟨length_resetWith par g, rfl, rfl, rfl, rfl, rfl, rfl, fun k => ?_, resetWith_lockInv par g,
    resetWith_accumulatorsNonneg par g, resetWith_stateWf g, fun p hp => ?_, rfl⟩
  · simp only [State.resetWith, List.getD_eq_getElem?_getD, List.getElem?_replicate]
    split <;> rfl
  · rw [State.tel, State.cmd, State.cfg, pack_resetWith par g hp]
    exact ⟨rfl, rfl, rfl, rfl, rfl, rfl, rfl, rfl, rfl, rfl, rfl, rfl, rfl, rfl, rfl, rfl, rfl, rfl, rfl, rfl⟩

end Sys2Proof.Machine

/-! SUPPORT. What the environment and the begin of a pass leave silent, the sequencer's equations outside a pack step, and the
reference forms part by part; with the statements of 20_memory.md they settle. -/

namespace Sys2Proof.Machine

/-! ## What is silent between packs -/

theorem applyMove_trace (s : State) (m : List EnvWrite) : (applyMove s m).trace = s.trace := by
  induction m generalizing s with
  | nil => rfl
  | cons w m ih =>
    have hw : (applyWrite s w).trace = s.trace := by cases w <;> rfl
    exact (ih (applyWrite s w)).trans hw

/-- The environment's writes are no events of CORE (10_state.md R45). -/
theorem envMove_trace (s : State) : (envMove s).trace = s.trace := by
  unfold envMove
  split
  · exact applyMove_trace _ _
  · exact applyMove_trace s.draw _

/-- The records, the lines and the trace: what the spec's ports and its readers could see change (20_memory.md R73). -/
structure Silent (s t : State) : Prop extends SameRecords s t where
  sel : t.sel = s.sel
  trace : t.trace = s.trace

theorem Silent.trans {s t u : State} (h1 : Silent s t) (h2 : Silent t u) : Silent s u :=
  ⟨h1.toSameRecords.trans h2.toSameRecords, h2.sel.trans h1.sel, h2.trace.trans h1.trace⟩

theorem envMove_silent (s : State) : Silent s (envMove s) :=
  ⟨(envMove_inputsOnly s).toSameRecords, (envMove_inputsOnly s).sel, envMove_trace s⟩

/-! ## The sequencer outside a pack step (42_pack_supervisor.md R170) -/

theorem passBegin_of_halted {s : State} (hh : s.halted = true) : passBegin s = s := by
  simp [passBegin, hh]

theorem passBegin_of_shutdown {s : State} (hh : s.halted = false) (hd : s.shutdown = true) :
    passBegin s = { s with halted := true } := by
  simp [passBegin, hh, hd]

theorem passBegin_of_running {s : State} (hh : s.halted = false) (hd : s.shutdown = false) :
    passBegin s = { s with sync := true, cur := some 0 } := by
  simp [passBegin, hh, hd]

theorem passBegin_silent (s : State) : Silent s (passBegin s) := by
  refine ⟨passBegin_sameRecords s, ?_, ?_⟩ <;>
  · unfold passBegin
    split_ifs <;> rfl

theorem passStep_idle {s : State} (hc : s.cur = none) : passStep s = .next (passBegin s) := by
  simp [passStep, hc]

theorem passStep_within {s : State} {p : Nat} (hc : s.cur = some p) : passStep s = passAt p s := by
  simp [passStep, hc]

theorem passAt_shutdown {p : Nat} {s : State} (hp : p < s.par.npack) (hpos : 0 < p) (hd : s.shutdown = true) :
    passAt p s = .next { s with halted := true, sync := false, cur := none } := by
  simp [passAt, Nat.not_le.2 hp, hpos, hd]

/-- Settles O44: with no request pending a step is the environment's move, which is silent, and one step of the sequencer,
which outside a pack step is the begin of a pass or its end. -/
theorem quietBetweenPasses : Obligations.QuietBetweenPasses := by
  intro s hv hr
  have hstep : step s = passStep (envMove s) := step_of_no_request hv hr
  have hmove := envMove_inputsOnly s
  refine ⟨fun hidle => ?_, fun p hcur hpos hp hd => ?_, fun p hcur hp => ?_⟩
  · have hcur : (envMove s).cur = none := hmove.cur.trans hidle
    have hsilent := (envMove_silent s).trans (passBegin_silent (envMove s))
    refine ⟨passBegin (envMove s), hstep.trans (passStep_idle hcur), hsilent.tel, hsilent.lock, hsilent.buf, hsilent.sel,
      hsilent.trace, fun hh => ?halted, fun hh hd => ?shutdown, fun hh hd => ?running⟩
    all_goals replace hh := hmove.halted.trans hh
    case halted => rw [passBegin_of_halted hh]; exact ⟨hh, hcur, hmove.sync⟩
    case shutdown => rw [passBegin_of_shutdown hh hd]; exact ⟨rfl, hcur, hmove.sync⟩
    case running => rw [passBegin_of_running hh hd]; exact ⟨hh, rfl, rfl⟩
  · rw [hstep, passStep_within (hmove.cur.trans hcur), passAt_shutdown (by rwa [hmove.par]) hpos hd]
  · rw [hstep, passStep_within (hmove.cur.trans hcur), passAt_end (by rwa [hmove.par])]

/-! ## Reading the blocks of REF-AFE (20_memory.md R70)

Block 0 is the registers `r`, block 1 the cells `c`. -/

theorem bitAt_refBit (r c : List Word) (i b : Nat) : bitAt [r, c] (refBit i b) = (r.getD i 0).getLsbD b := rfl

theorem bitField_low_nibble (w : Word) : bitField w 3 0 = w.toNat % 16 := rfl

/-- A per-cell map of REF-AFE is the low four bits of one register, as many as there are cells. -/
theorem exactly_refCellBits (r c : List Word) (i : Nat) :
    exactly 4 false (((List.range 4).map (refBit i)).map (bitAt [r, c])) =
      [(r.getD i 0).getLsbD 0, (r.getD i 0).getLsbD 1, (r.getD i 0).getLsbD 2, (r.getD i 0).getLsbD 3] :=
  exactly_of_length false rfl

theorem rawMeas_refAfe_cell (r c : List Word) {i : Nat} (hi : i < 4) : (rawMeas refAfe [r, c]).cell i = c.getD i 0 := by
  simp [rawMeas, refAfe, refMeasMap, hi, wordAt]

theorem cellsOf_refAfe (c : List Word) {i : Nat} (hi : i < 4) : cellsOf refAfe c i = c.getD i 0 := by
  have hidx : [0, 1, 2, 3].getD i c.length = i := by
    change (List.range 4).getD i c.length = i
    simp [hi]
  simp only [cellsOf, refAfe, hidx]

/-! ## The packing of mask and duration (20_memory.md R70) -/

theorem maskNat_testBit (mask : List Bool) (n : Nat) : (maskNat mask).testBit n = mask.getD n false := by
  induction mask generalizing n with
  | nil => simp [maskNat]
  | cons b bs ih =>
    cases n with
    | zero => cases b <;> simp [maskNat, Nat.testBit_zero]
    | succ n =>
      have hhalf : maskNat (b :: bs) / 2 = maskNat bs := by
        rw [maskNat]
        split <;> omega
      rw [Nat.testBit_succ, hhalf, ih, List.getD_cons_succ]

/-- The low byte carries the mask and the high byte the duration. -/
theorem balPack_refAfe_getLsbD (mask : List Bool) (d : Nat) {n : Nat} (hn : n < 16) :
    (balPack refAfe mask d).value.getLsbD n = if n < 8 then mask.getD n false else d.testBit (n - 8) := by
  have hvalue : (balPack refAfe mask d).value =
      (BitVec.ofNat 16 d <<< 8) ||| BitVec.ofNat 16 (maskNat mask % 2 ^ 8) := rfl
  have hlow : n - 8 < 16 := by omega
  simp only [hvalue, BitVec.getLsbD_or, BitVec.getLsbD_shiftLeft, BitVec.getLsbD_ofNat, Nat.testBit_mod_two_pow,
    maskNat_testBit]
  by_cases h8 : n < 8 <;> simp [h8, hn, hlow]

/-! ## The reference polynomial (41_register_facade.md R159) -/

/-- The Horner form is the sum of the terms. -/
theorem polynomial_eq_sum (coef : List Q) (x : Q) :
    polynomial coef x = ((List.range coef.length).map fun k => coef.getD k 0 * x ^ k).sum := by
  induction coef with
  | nil => rfl
  | cons a rest ih =>
    have hshift : (fun k => (a :: rest).getD (k + 1) 0 * x ^ (k + 1)) = fun k => x * (rest.getD k 0 * x ^ k) := by
      funext k
      rw [List.getD_cons_succ]
      ring
    rw [polynomial, ih, ← List.sum_map_mul_left, ← hshift]
    simp [List.range_succ_eq_map, Function.comp_def]

/-- Settles O59: each flag and measurement by its position in REF-AFE, the packing bit by bit, and the polynomial as the sum
of its terms; the other formulas are those of the definition. -/
theorem referenceForms : Obligations.ReferenceForms := by
  refine ⟨fun r c => ⟨?flags, rfl, rfl, rfl, rfl, rfl, fun i hi => ⟨rawMeas_refAfe_cell r c hi, cellsOf_refAfe c hi⟩⟩,
    bitField_low_nibble, fun mask d _ _ => ⟨rfl, fun n hn => balPack_refAfe_getLsbD mask d hn⟩, fun w cal => ?conv⟩
  case flags =>
    simp only [decodeHw, hwFields, refParams, refAfe, refHwMap, bitAt_refBit, exactly_refCellBits, hwPwrCode, wordAt,
      bitField_low_nibble]
    rfl
  case conv => exact ⟨rfl, rfl, rfl, rfl, rfl, polynomial_eq_sum cal.ntcCoef (s16 w)⟩

end Sys2Proof.Machine

/-! SUPPORT. The bytes of a frame as numbers, the forms the decoder accepts and what it reads from each; with the statements
of 30_encoding.md they settle. -/

namespace Sys2Proof.Machine

open Sys2Proof.Laws (header_address_le lineIndex_lt_two_pow)

/-! ## Byte 0 of a request (30_encoding.md R94) -/

theorem headByte_toNat {a : Nat} (ha : a ≤ 127) (w : Bool) : (headByte a w).toNat = 2 * a + w.toNat := by
  have hshift : a <<< 1 ||| w.toNat = 2 * a + w.toNat := by
    rw [← Nat.shiftLeft_add_eq_or_of_lt (by cases w <;> decide), Nat.shiftLeft_eq]
    omega
  have hflag : (if w then 1 else 0 : Byte).toNat = w.toNat := by cases w <;> rfl
  have hfits : a <<< 1 < 2 ^ 8 := by rw [Nat.shiftLeft_eq]; omega
  rw [headByte, BitVec.toNat_or, hflag, BitVec.toNat_shiftLeft, BitVec.toNat_ofNat,
    Nat.mod_eq_of_lt (show a < 2 ^ 8 by omega), Nat.mod_eq_of_lt hfits, hshift]

theorem getLsbD_zero_toNat (b : Byte) : (b.getLsbD 0).toNat = b.toNat % 2 := by
  rw [BitVec.getLsbD, Nat.toNat_testBit, Nat.pow_zero, Nat.div_one]

theorem address_toNat (b : Byte) : (b >>> 1).toNat = b.toNat / 2 := by
  rw [BitVec.toNat_ushiftRight, Nat.shiftRight_eq_div_pow, Nat.pow_one]

theorem headByte_writeFlag {a : Nat} (ha : a ≤ 127) (w : Bool) : (headByte a w).getLsbD 0 = w := by
  rw [BitVec.getLsbD, headByte_toNat ha, Nat.testBit_zero]
  cases w <;> simp

theorem headByte_address {a : Nat} (ha : a ≤ 127) (w : Bool) : (headByte a w >>> 1).toNat = a := by
  have hle := w.toNat_le
  rw [address_toNat, headByte_toNat ha]
  omega

/-- A byte 0 is the one of the address and the flag it carries. -/
theorem headByte_of_fields {b : Byte} {w : Bool} (hw : b.getLsbD 0 = w) : headByte (b >>> 1).toNat w = b := by
  apply BitVec.eq_of_toNat_eq
  rw [headByte_toNat (header_address_le b), address_toNat, ← hw, getLsbD_zero_toNat]
  omega

/-! ## Byte 1 of a read request (30_encoding.md R92) -/

theorem countByte_toNat {n : Nat} (hn : n ≤ 32) : (countByte n).toNat = n - 1 := by
  rw [countByte, BitVec.toNat_ofNat, Nat.mod_eq_of_lt (by omega)]

theorem countByte_of_toNat (b : Byte) : countByte (b.toNat + 1) = b := by
  simp [countByte]

theorem countField_toNat {b : Byte} (hb : b.toNat < 32) : (b.extractLsb' 0 5).toNat = b.toNat := by
  rw [BitVec.extractLsb'_toNat, Nat.shiftRight_zero, Nat.mod_eq_of_lt hb]

/-- `h` and bits 6:5 are zero exactly where the byte holds a count alone. -/
theorem reserved_zero_iff (b : Byte) : b.getLsbD 7 = false ∧ b.extractLsb' 5 2 = 0 ↔ b.toNat < 32 := by
  have hb := b.isLt
  have hbits : (0 : BitVec 2).toNat = 0 := rfl
  simp only [BitVec.getLsbD, Nat.testBit_eq_decide_div_mod_eq, decide_eq_false_iff_not, ← BitVec.toNat_inj,
    BitVec.extractLsb'_toNat, Nat.shiftRight_eq_div_pow, hbits]
  omega

/-! ## The two bytes of a word (20_memory.md R64) -/

theorem hiByte_toNat (v : Word) : (hiByte v).toNat = v.toNat / 256 := by
  have hv := v.isLt
  rw [hiByte, BitVec.extractLsb'_toNat, Nat.shiftRight_eq_div_pow]
  omega

theorem loByte_toNat (v : Word) : (loByte v).toNat = v.toNat % 256 := by
  rw [loByte, BitVec.extractLsb'_toNat, Nat.shiftRight_zero]

theorem hiByte_joinBytes (h l : Byte) : hiByte (joinBytes h l) = h :=
  BitVec.extractLsb'_append_eq_left

theorem loByte_joinBytes (h l : Byte) : loByte (joinBytes h l) = l :=
  BitVec.extractLsb'_append_eq_right

/-! ## Frames (30_encoding.md R91 to R95, R98) -/

/-- The frames the decoder reads: four bytes with the write flag set, and a read request that is all zero but for its
address and its count. -/
theorem decodeFrame_eq_ok_iff {bytes : List Byte} {i : Instr} : decodeFrame bytes = .ok i ↔
    (∃ b0 b1 b2 c, b0.getLsbD 0 = true ∧ bytes = [b0, b1, b2, c] ∧ i = .wrreg (b0 >>> 1).toNat (joinBytes b1 b2)) ∨
    (∃ b0 b1, b0.getLsbD 0 = false ∧ b1.toNat < 32 ∧ bytes = b0 :: b1 :: List.replicate (2 * (b1.toNat + 1) + 1) 0 ∧
      i = .rdreg (b0 >>> 1).toNat (b1.toNat + 1)) := by
  constructor
  · intro h
    unfold decodeFrame at h
    split at h
    case h_2 => cases h
    next b0 b1 rest =>
    split_ifs at h with hw h7 h5 hlen hfill
    case pos =>
      split at h <;> cases h
      exact .inl ⟨b0, b1, _, _, hw, rfl, rfl⟩
    case neg =>
      have hcount : b1.toNat < 32 := (reserved_zero_iff b1).1 ⟨by simpa using h7, by simpa using h5⟩
      have hfield := countField_toNat hcount
      have hrest : rest = List.replicate (2 * (b1.toNat + 1) + 1) 0 :=
        List.eq_replicate_iff.2 ⟨by simpa [hfield] using hlen, by simpa using hfill⟩
      cases h
      exact .inr ⟨b0, b1, by simpa using hw, hcount, by rw [hrest], by rw [hfield]⟩
  · rintro (⟨b0, b1, b2, c, hw, rfl, rfl⟩ | ⟨b0, b1, hw, hcount, rfl, rfl⟩)
    · simp [decodeFrame, hw]
    · obtain ⟨h7, h5⟩ := (reserved_zero_iff b1).2 hcount
      simp only [decodeFrame, hw, h7, h5, countField_toNat hcount]
      simp

/-- The CRC byte of a write frame is no operand (30_encoding.md R95). -/
theorem decodeFrame_wrHead {a : Nat} (ha : a ≤ 127) (v : Word) (c : Byte) :
    decodeFrame (wrHead a v ++ [c]) = .ok (.wrreg a v) :=
  decodeFrame_eq_ok_iff.2 <| .inl ⟨headByte a true, hiByte v, loByte v, c, headByte_writeFlag ha true, rfl, by
    rw [headByte_address ha, joinBytes_hi_lo]⟩

theorem decodeFrame_rdFrame {a n : Nat} (ha : a ≤ 127) (h1 : 1 ≤ n) (hn : n ≤ 32) :
    decodeFrame (rdFrame a n) = .ok (.rdreg a n) := by
  have hcount : (countByte n).toNat + 1 = n := by rw [countByte_toNat hn]; omega
  refine decodeFrame_eq_ok_iff.2 <| .inr
    ⟨headByte a false, countByte n, headByte_writeFlag ha false, by omega, ?frame, ?operation⟩
  case frame => rw [hcount]; rfl
  case operation => rw [headByte_address ha, hcount]

/-- What a frame is read as has that frame, the CRC byte of a write frame apart. -/
theorem frame_of_decodeFrame {bytes : List Byte} {i : Instr} (h : decodeFrame bytes = .ok i) :
    (∃ a v c, i = .wrreg a v ∧ a ≤ 127 ∧ bytes = wrHead a v ++ [c]) ∨
    (∃ a n, i = .rdreg a n ∧ a ≤ 127 ∧ 1 ≤ n ∧ n ≤ 32 ∧ bytes = rdFrame a n) := by
  obtain ⟨b0, b1, b2, c, hw, rfl, rfl⟩ | ⟨b0, b1, hw, hcount, rfl, rfl⟩ := decodeFrame_eq_ok_iff.1 h
  · refine .inl ⟨_, _, c, rfl, header_address_le b0, ?_⟩
    rw [wrHead, headByte_of_fields hw, hiByte_joinBytes, loByte_joinBytes]
    rfl
  · refine .inr ⟨_, _, rfl, header_address_le b0, by omega, by omega, ?_⟩
    rw [rdFrame, headByte_of_fields hw, countByte_of_toNat]
    rfl

/-! ## Select lines (30_encoding.md R96) -/

theorem selLines_succ (n k : Nat) : selLines (n + 1) k = k.testBit 0 :: selLines n (k / 2) := by
  simp [selLines, List.range_succ_eq_map, Function.comp_def, Nat.testBit_succ]

/-- The lines are the code of the index they carry. -/
theorem selLines_lineIndex (ls : List Bool) : selLines ls.length (lineIndex ls) = ls := by
  induction ls with
  | nil => rfl
  | cons b ls ih =>
    have hhalf : lineIndex (b :: ls) / 2 = lineIndex ls := by
      rw [lineIndex]
      split <;> omega
    have hbit : (lineIndex (b :: ls)).testBit 0 = b := by
      cases b <;> simp [lineIndex, Nat.testBit_zero]
    rw [List.length_cons, selLines_succ, hhalf, hbit, ih]

theorem decodeLines_selLines {n k : Nat} (hk : k < 2 ^ n) : decodeLines n (selLines n k) = .ok (.select k) := by
  rw [decodeLines, if_pos (selLines_length n k), lineIndex_selLines hk]

theorem lines_of_decodeLines {n : Nat} {ls : List Bool} {i : Instr} (h : decodeLines n ls = .ok i) :
    ∃ k, i = .select k ∧ k < 2 ^ n ∧ ls = selLines n k := by
  unfold decodeLines at h
  split at h
  · next hlen =>
    subst hlen
    cases h
    exact ⟨_, rfl, lineIndex_lt_two_pow ls, (selLines_lineIndex ls).symm⟩
  · cases h

/-! ## State codes (30_encoding.md R97) -/

/-- The operation a state code selects has that code, with the command where it takes one. -/
theorem encode_of_decodeState (par : Params) {p : Nat} {c : Cmd} {code : BitVec 4} {i : Instr}
    (h : decodeState p c code = .ok i) :
    encode par i = some (.state p c code) ∨ encode par i = some (.state p default code) := by
  have hcode : code = BitVec.ofNat 4 code.toNat := by simp
  unfold decodeState at h
  split at h <;> cases h
  case h_11.refl hc | h_12.refl hc | h_13.refl hc | h_14.refl hc => exact .inl (by rw [hcode, hc]; rfl)
  all_goals
    rename_i hc
    exact .inr (by rw [hcode, hc]; rfl)

/-! ## A read that is answered (40_transport_framer.md R126) -/

theorem rdreg_scripted {a n : Nat} {rx : List Byte} {answers : List BusAnswer} {s : State} (ha : addressOk a = true)
    (hn : countOk n = true) (hx : s.env.answers = .ok rx :: answers) (hl : rx.length = 2 * n + 3) :
    rdreg a n s = ⟨if frameOk s.par.crcPoly rx then .ok (wordsOf n rx) else .err .crc, { s with
      trace := s.trace ++ [.xfer (lineIndex s.sel) (rdFrame a n) (.ok rx)],
      env := { s.env with answers := answers } }⟩ := by
  have hxfer := busXfer_scripted (tx := rdFrame a n) hx (by rw [hl, rdFrame_length])
  simp only [rdreg, ha, hn, hxfer, Bool.not_true, Bool.false_eq_true, ↓reduceIte]
  split <;> rfl

/-! ## The statements of 30_encoding.md -/

/-- Settles O1, by the operations that have a coded form: a select code and the two frames decode by their rules, and a state
code is looked up in the table. -/
theorem decodeEncodeRoundTrip : Obligations.DecodeEncodeRoundTrip := by
  intro par i f hwf henc
  cases i <;> cases henc
  case select.refl k => exact decodeLines_selLines (by simpa [Instr.wellFormed] using hwf)
  case wrreg.refl a v => exact decodeFrame_wrHead (by simpa [Instr.wellFormed, addressOk] using hwf) v _
  case rdreg.refl a n =>
    obtain ⟨ha, h1, hn⟩ : a ≤ 127 ∧ 1 ≤ n ∧ n ≤ 32 := by simpa [Instr.wellFormed, addressOk, countOk] using hwf
    exact decodeFrame_rdFrame ha h1 hn
  all_goals rfl

/-- Settles O2, one clause for each kind of coded form. -/
theorem decodedFormIsItsEncoding : Obligations.DecodedFormIsItsEncoding :=
  ⟨fun _ _ => frame_of_decodeFrame, fun _ _ _ => lines_of_decodeLines, fun par _ _ _ _ => encode_of_decodeState par⟩

/-- Settles O10: a response checks whatever its echo bytes, and its words are read from behind them. -/
theorem rdregDeliversResponse : Obligations.RdregDeliversResponse := by
  intro a r s rest ha h1 hn hx
  have hread := rdreg_scripted (by simpa [addressOk] using ha) (by simp [countOk, h1, hn]) hx
    (rsFrame_length s.par.crcPoly r.e0 r.e1 r.ws)
  rw [rsFrame_ok, if_pos rfl, wordsOf_rsFrame] at hread
  rw [exec, execRdreg, hread]
  rfl

/-- Settles O3: the accepted words are forms of the operations they stand for, and two are refused by evaluation. -/
theorem sampleWordsDecode : Obligations.SampleWordsDecode :=
  ⟨decodeFrame_wrHead (a := 0x20) (by decide) 0x0004 0xFB, decodeFrame_wrHead (a := 0x41) (by decide) 0xABCD 0x7C,
    decodeFrame_rdFrame (a := 0x10) (n := 4) (by decide) (by decide) (by decide), rfl,
    decodeLines_selLines (n := 3) (k := 5) (by decide), rfl, rfl⟩

/-- Settles O4: the frames are built from these bytes, whose numbers are known. -/
theorem frameLayouts : Obligations.FrameLayouts := by
  intro poly a v n ha _ hn
  refine ⟨⟨headByte a true, hiByte v, loByte v, rfl, headByte_toNat ha true, hiByte_toNat v, loByte_toNat v⟩,
    ⟨headByte a false, countByte n, rfl, headByte_toNat ha false, countByte_toNat hn⟩, ?_⟩
  rw [rdFrame_length]
  omega

end Sys2Proof.Machine

/-! SUPPORT. The CRC as steps that lose nothing, what an operation that returns its reply leaves, and the rejected and failed
operations of the framer; with the statements of 40_transport_framer.md they settle. -/

namespace Sys2Proof.Machine

open Sys2Proof.Safety

/-! ## One shift step (40_transport_framer.md R122)

A polynomial with bit 7 set marks in the result the bit that was shifted out, so no step loses anything. -/

/-- A byte is known from its upper seven bits and its bit 0. -/
theorem byte_eq_of_shift_eq {v w : Byte} (hshift : v >>> 1 = w >>> 1) (hlow : v.getLsbD 0 = w.getLsbD 0) : v = w := by
  have hhalf : v.toNat / 2 = w.toNat / 2 := by rw [← address_toNat, ← address_toNat, hshift]
  have hrem : v.toNat % 2 = w.toNat % 2 := by rw [← getLsbD_zero_toNat, ← getLsbD_zero_toNat, hlow]
  apply BitVec.eq_of_toNat_eq
  omega

theorem crcShift_bit_seven {poly : Byte} (hpoly : poly.getLsbD 7 = true) (v : Byte) :
    (crcShift poly v).getLsbD 7 = v.getLsbD 0 := by
  unfold crcShift
  split
  · next hlow => rw [BitVec.getLsbD_xor, hpoly, hlow]; simp
  · next hlow => rw [eq_false_of_ne_true hlow]; simp

theorem crcShift_injective {poly : Byte} (hpoly : poly.getLsbD 7 = true) : Function.Injective (crcShift poly) := by
  intro v w h
  have hlow : v.getLsbD 0 = w.getLsbD 0 := by rw [← crcShift_bit_seven hpoly v, ← crcShift_bit_seven hpoly w, h]
  refine byte_eq_of_shift_eq ?_ hlow
  simp only [crcShift, hlow] at h
  split at h
  · exact (BitVec.xor_left_inj poly).1 h
  · exact h

/-! ## The table and the CRC (40_transport_framer.md R121 to R123) -/

theorem crcTable_injective {poly : Byte} (hpoly : poly.getLsbD 7 = true) : Function.Injective (crcTable poly) :=
  (crcShift_injective hpoly).iterate 8

/-- Bytes that follow carry a difference of the CRC on (40_transport_framer.md R123 (c)). -/
theorem crc8_append_inj {poly : Byte} (hpoly : poly.getLsbD 7 = true) {xs ys : List Byte} (post : List Byte)
    (h : crc8 poly (xs ++ post) = crc8 poly (ys ++ post)) : crc8 poly xs = crc8 poly ys := by
  induction post generalizing xs ys with
  | nil => simpa using h
  | cons b post ih =>
    have hstep : crc8 poly (xs ++ [b]) = crc8 poly (ys ++ [b]) := ih (by simpa using h)
    rw [crc8_append, crc8_append] at hstep
    exact (BitVec.xor_left_inj b).1 (crcTable_injective hpoly hstep)

/-- Two messages that differ in one byte differ in their CRC. -/
theorem byte_eq_of_crc8_eq {poly : Byte} (hpoly : poly.getLsbD 7 = true) {pre post : List Byte} {a b : Byte}
    (h : crc8 poly (pre ++ a :: post) = crc8 poly (pre ++ b :: post)) : a = b := by
  have hstep : crc8 poly (pre ++ [a]) = crc8 poly (pre ++ [b]) := crc8_append_inj hpoly post (by simpa using h)
  rw [crc8_append, crc8_append] at hstep
  exact (BitVec.xor_right_inj (crc8 poly pre)).1 (crcTable_injective hpoly hstep)

theorem crc8_zeros (poly : Byte) (n : Nat) : crc8 poly (List.replicate n 0) = 0 := by
  induction n with
  | zero => rfl
  | succ n ih =>
    rw [List.replicate_succ', crc8_append, ih]
    exact crcTable_zero poly

/-! ## `FRAME_OK` (40_transport_framer.md R127) -/

theorem frameOk_iff {poly : Byte} {f : List Byte} : frameOk poly f = true ↔ crc8 poly f = 0 := beq_iff_eq

/-- A frame that checks does not check with one byte changed (40_transport_framer.md R123 (c)). -/
theorem frameOk_byte_changed {poly : Byte} (hpoly : poly.getLsbD 7 = true) {pre post : List Byte} {a b : Byte}
    (hab : a ≠ b) (h : frameOk poly (pre ++ a :: post) = true) : frameOk poly (pre ++ b :: post) = false := by
  refine eq_false_of_ne_true fun hb => hab (byte_eq_of_crc8_eq hpoly (pre := pre) (post := post) ?_)
  rw [frameOk_iff.1 h, frameOk_iff.1 hb]

/-! ## Operations that return their reply -/

@[simp] theorem Run.returned_ok {α : Type} (a : α) (s : State) (f : α → OpResult) :
    (Run.mk (.ok a) s).returned f = s.setResult (f a) := rfl

@[simp] theorem Run.returned_err {α : Type} (k : ErrKind) (s : State) (f : α → OpResult) :
    (Run.mk (.err k) s).returned f = s.setResult (.err k) := rfl

@[simp] theorem Run.returned_sel {α : Type} (r : Run α) (f : α → OpResult) : (r.returned f).sel = r.state.sel := by
  obtain ⟨v, hv⟩ := r.returned_eq f
  rw [hv, State.setResult_sel]

theorem setResult_busAndResultOnly {s u : State} (h : BusOnly s u) (v : OpResult) :
    BusAndResultOnly s (u.setResult v) := by
  obtain ⟨lines, events, env, rfl⟩ := h
  exact ⟨lines, events, env, v, rfl⟩

theorem returned_busAndResultOnly {α : Type} {r : Run α} {s : State} (f : α → OpResult) (h : BusOnly s r.state) :
    BusAndResultOnly s (r.returned f) := by
  obtain ⟨v, hv⟩ := r.returned_eq f
  rw [hv]
  exact setResult_busAndResultOnly h v

theorem exec_select (i : Nat) (s : State) : exec (.select i) s = .next ((select i s).returned fun _ => .done) := rfl

theorem exec_wrreg (a : Nat) (v : Word) (s : State) :
    exec (.wrreg a v) s = .next ((wrreg a v s).returned fun _ => .done) := rfl

theorem exec_rdreg (a n : Nat) (s : State) : exec (.rdreg a n) s = .next ((rdreg a n s).returned .words) := rfl

/-! ## Rejected operands (30_encoding.md R101) -/

theorem select_rejected {i : Nat} {s : State} (hi : 2 ^ s.par.nsel ≤ i) : select i s = ⟨.err .badArgument, s⟩ :=
  if_pos hi

theorem wrreg_rejected {a : Nat} (v : Word) (s : State) (ha : addressOk a = false) :
    wrreg a v s = ⟨.err .badArgument, s⟩ := by
  simp [wrreg, ha]

theorem rdreg_rejected {a n : Nat} (s : State) (h : countOk n = false ∨ addressOk a = false) :
    rdreg a n s = ⟨.err .badArgument, s⟩ := by
  obtain ⟨_, hrun⟩ | ⟨hok, _⟩ := rdreg_cases a n s
  · exact hrun
  · obtain ⟨hn, ha⟩ := Bool.and_eq_true_iff.1 hok
    simp [hn, ha] at h

/-! ## Transactions under a script (40_transport_framer.md R125, R126) -/

theorem wrreg_scripted {a : Nat} {v : Word} {rx : List Byte} {answers : List BusAnswer} {s : State}
    (ha : addressOk a = true) (hx : s.env.answers = .ok rx :: answers) (hl : rx.length = 4) :
    wrreg a v s = ⟨.ok (), { s with
      trace := s.trace ++ [.xfer (lineIndex s.sel) (wrFrame s.par.crcPoly a v) (.ok rx)],
      env := { s.env with answers := answers } }⟩ := by
  simp [wrreg, ha, busXfer_scripted (tx := wrFrame s.par.crcPoly a v) hx hl]

theorem wrreg_scripted_error {a : Nat} {v : Word} {answers : List BusAnswer} {s : State}
    (ha : addressOk a = true) (hx : s.env.answers = .busError :: answers) :
    wrreg a v s = ⟨.err .transport, { s with
      trace := s.trace ++ [.xfer (lineIndex s.sel) (wrFrame s.par.crcPoly a v) .busError],
      env := { s.env with answers := answers } }⟩ := by
  simp [wrreg, ha, busXfer_scripted_error hx]

theorem rdreg_scripted_error {a n : Nat} {answers : List BusAnswer} {s : State} (ha : addressOk a = true)
    (hn : countOk n = true) (hx : s.env.answers = .busError :: answers) :
    rdreg a n s = ⟨.err .transport, { s with
      trace := s.trace ++ [.xfer (lineIndex s.sel) (rdFrame a n) .busError],
      env := { s.env with answers := answers } }⟩ := by
  simp [rdreg, ha, hn, busXfer_scripted_error hx]

theorem selLines_getD {n k : Nat} (i : Nat) (hk : k < n) : (selLines n i).getD k false = i.testBit k := by
  simp [selLines, hk]

/-! ## The statements of 40_transport_framer.md -/

/-- Settles O6: a shift step loses nothing, so neither a table entry nor the CRC of the bytes that follow hides a changed
byte. -/
theorem crcProperties : Obligations.CrcProperties := fun poly hpoly =>
  ⟨crc8_append_self poly, fun _ _ h => crcTable_injective hpoly h, fun _ _ _ _ => frameOk_byte_changed hpoly,
    fun n => frameOk_iff.2 (crc8_zeros poly n)⟩

/-- Settles O11: the response checks, so with one byte changed it does not. -/
theorem corruptResponseRejected : Obligations.CorruptResponseRejected := by
  intro a r pre post x y s rest hpoly ha h1 hn hframe hxy hx
  have hgood : frameOk s.par.crcPoly (pre ++ x :: post) = true := by rw [← hframe, rsFrame_ok]
  have hlen : (pre ++ y :: post).length = 2 * r.ws.length + 3 := by
    rw [← rsFrame_length s.par.crcPoly r.e0 r.e1 r.ws, hframe]
    simp
  have hread := rdreg_scripted (by simpa [addressOk] using ha) (by simp [countOk, h1, hn]) hx hlen
  rw [frameOk_byte_changed hpoly hxy hgood] at hread
  rw [exec_rdreg, hread]
  rfl

/-- Settles O12: each operation but `CRC8` and `FRAME_OK` returns the reply of a run that writes the lines and the trace
alone. -/
theorem transportFrame : Obligations.TransportFrame := by
  intro i s p a n v bs hi
  simp only [List.mem_cons, List.not_mem_nil, or_false] at hi
  obtain rfl | rfl | rfl | rfl | rfl | rfl | rfl := hi
  · exact ⟨_, rfl, returned_busAndResultOnly _ (select_busOnly p s), by simpa using select_sel_length p s, by simp, by simp⟩
  · have hsel := wrreg_sel a v s
    exact ⟨_, rfl, returned_busAndResultOnly _ (wrreg_busOnly a v s), by simp [hsel], by simp [hsel], by simp⟩
  · have hsel := rdreg_sel a n s
    exact ⟨_, rfl, returned_busAndResultOnly _ (rdreg_busOnly a n s), by simp [hsel], by simp [hsel], by simp⟩
  · have hbus := afeWrite_busOnly p a v s
    have hlen := afeWrite_selLength p a v s
    rw [SelLength, SelLength, hbus.par] at hlen
    exact ⟨_, rfl, returned_busAndResultOnly _ hbus, by simpa using hlen, by simp, by simp⟩
  · have hbus := afeRead_busOnly p a n s
    have hlen := afeRead_selLength p a n s
    rw [SelLength, SelLength, hbus.par] at hlen
    exact ⟨_, rfl, returned_busAndResultOnly _ hbus, by simpa using hlen, by simp, by simp⟩
  · exact ⟨_, rfl, setResult_busAndResultOnly (.refl s) _, id, fun _ => rfl, fun _ => rfl⟩
  · exact ⟨_, rfl, setResult_busAndResultOnly (.refl s) _, id, fun _ => rfl, fun _ => rfl⟩

/-- Settles O5: the shift steps of a table entry are the iterates of `crcShift`. -/
theorem crcAndFrameCheck : Obligations.CrcAndFrameCheck := fun s =>
  ⟨fun _ => rfl, fun _ => rfl, rfl, fun bs b => crc8_append s.par.crcPoly bs [b], fun i =>
    ⟨fun k => Nat.repeat (crcShift s.par.crcPoly) k i, rfl, rfl, fun _ _ => rfl⟩⟩

/-- Settles O7, one clause for each outcome of the drive. -/
theorem selectOutcomes : Obligations.SelectOutcomes := by
  intro i s
  refine ⟨fun hi => ?rejected, fun hi ds => ⟨fun hd => ?driven, fun hd => ?failed⟩⟩
  case rejected => rw [exec_select, select_rejected hi, Run.returned_err]
  case driven =>
    refine ⟨selLines s.par.nsel i, selLines_length _ _, fun k => selLines_getD i, ?_⟩
    rw [exec_select, select_scripted hi hd, Run.returned_ok, State.setResult]
  case failed =>
    refine ⟨(List.range s.par.nsel).map (Config.freeLine s.env.draws), s.env.draws + 1, by simp, ?_⟩
    rw [exec_select, select_scripted_fail hi hd, Run.returned_err, State.setResult]

/-- Settles O8, one clause for the rejected address and one for each answer to the frame. -/
theorem wrregOutcomes : Obligations.WrregOutcomes := by
  intro a v s
  refine ⟨fun ha => ?rejected, fun ha rest => ?sent⟩
  case rejected => rw [exec_wrreg, wrreg_rejected v s (by simpa [addressOk] using ha), Run.returned_err]
  case sent =>
    have haddr : addressOk a = true := by simpa [addressOk] using ha
    refine ⟨fun hx => ?_, fun rx hl hx => ?_⟩
    · rw [exec_wrreg, wrreg_scripted_error haddr hx, Run.returned_err, State.setResult]
    · rw [exec_wrreg, wrreg_scripted haddr hx hl, Run.returned_ok, State.setResult]

/-- Settles O9, one clause for the rejected operands and one for each answer to the request. -/
theorem rdregOutcomes : Obligations.RdregOutcomes := by
  intro a n s
  refine ⟨fun h => ?rejected, fun h1 hn ha rest => ?sent⟩
  case rejected =>
    have hbad : countOk n = false ∨ addressOk a = false := by
      simp only [countOk, addressOk, Bool.and_eq_false_iff, decide_eq_false_iff_not]
      omega
    rw [exec_rdreg, rdreg_rejected s hbad, Run.returned_err]
  case sent =>
    have haddr : addressOk a = true := by simpa [addressOk] using ha
    have hcount : countOk n = true := by simp [countOk, h1, hn]
    refine ⟨fun hx => ?_, fun rx hl hx => ?_⟩
    · rw [exec_rdreg, rdreg_scripted_error haddr hcount hx, Run.returned_err, State.setResult]
    · rw [exec_rdreg, rdreg_scripted haddr hcount hx hl]
      by_cases hcrc : crc8 s.par.crcPoly rx = 0
      · rw [if_pos hcrc, if_pos (frameOk_iff.2 hcrc)]
        rfl
      · rw [if_neg hcrc, if_neg (mt frameOk_iff.1 hcrc)]
        rfl

end Sys2Proof.Machine

/-! SUPPORT. How an operation of a pack ends, in the words of its run, and what a register access does at a failed select, at
a rejected address and at a failed transfer; with the statements of 41_register_facade.md they settle. -/

namespace Sys2Proof.Machine

open Sys2Proof.Safety

/-! ## The end of a run that may raise a step abort -/

@[simp] theorem Run.finished_ok {α : Type} (a : α) (s : State) (p : Nat) (c : BitVec 4) (f : α → OpResult) :
    (Run.mk (.ok a) s).finished p c f = s.setResult (f a) := rfl

theorem Run.finished_result_of_ok {α : Type} {r : Run α} {a : α} (h : r.reply = .ok a) (p : Nat) (c : BitVec 4)
    (f : α → OpResult) : (r.finished p c f).result = f a := by
  simp [Run.finished, h]

theorem Run.finished_result_of_err {α : Type} {r : Run α} {k : ErrKind} (h : r.reply = .err k) (p : Nat) (c : BitVec 4)
    (f : α → OpResult) : (r.finished p c f).result = .aborted k := by
  simp [Run.finished, h, takeAbort]

@[simp] theorem takeAbort_trace (p : Nat) (c : BitVec 4) (k : ErrKind) (s : State) :
    (takeAbort p c k s).trace = s.trace ++ [.report p c (.err k)] := rfl

theorem ownBus_report (p : Nat) (c : BitVec 4) (k : ReportKind) : OwnBus p false [.report p c k] := ⟨rfl, trivial⟩

/-- Whatever an operation of pack `p` ends in, its events are the pack's own: an abort adds a report of the pack. -/
theorem Ended.ownBus {p : Nat} {idle : Prop} {s t : State} (h : Ended p idle s t) (hp : p < 2 ^ s.par.nsel) :
    ∃ es, t.trace = s.trace ++ es ∧ OwnBus p false es := by
  cases h with
  | done u r hu _ =>
    obtain ⟨es, htrace, _, hown⟩ := hu.events
    exact ⟨es, by simpa using htrace, hown hp⟩
  | same _ => exact ⟨[], by simp, trivial⟩
  | abort u k hu =>
    obtain ⟨es, htrace, _, hown⟩ := hu.toServes.events
    exact ⟨es ++ [.report p (s.tel p).state (.err k)], by simp [htrace], (hown hp).append (ownBus_report p _ _)⟩

/-! ## The operations as their runs -/

theorem exec_afeWrite (p a : Nat) (v : Word) (s : State) :
    exec (.afeWrite p a v) s = .next ((afeWrite p a v s).returned fun _ => .done) := rfl

theorem exec_afeRead (p a n : Nat) (s : State) :
    exec (.afeRead p a n) s = .next ((afeRead p a n s).returned .words) := rfl

theorem exec_readStatus (p : Nat) (s : State) :
    exec (.readStatus p) s = onPack p s ((readStatus p s).finished p (s.tel p).state .code) := rfl

theorem exec_readCells (p : Nat) (s : State) :
    exec (.readCells p) s = onPack p s ((readCells p s).finished p (s.tel p).state .samples) := rfl

theorem exec_readTelemetry (p : Nat) (s : State) :
    exec (.readTelemetry p) s = onPack p s ((readTelemetry p s).finished p (s.tel p).state fun _ => .done) := rfl

/-! ## Register accesses that fail (41_register_facade.md R150, R151) -/

theorem afeRead_rejected_count {n : Nat} (p a : Nat) (s : State) (hn : countOk n = false) :
    afeRead p a n s = ⟨.err .badArgument, s⟩ := by
  simp [afeRead, hn]

/-- With a legal count, a read is the select and then the request. -/
theorem afeRead_of_countOk {n : Nat} (p a : Nat) (s : State) (hn : countOk n = true) :
    afeRead p a n s = (select p s).andThen fun _ t => rdreg a n t := by
  simp [afeRead, hn]

/-- A failed select ends either access with the select's error. -/
theorem exec_afe_of_select_err {p a n : Nat} {v : Word} {i : Instr} {s t : State} {k : ErrKind}
    (hi : i ∈ [Instr.afeWrite p a v, .afeRead p a n]) (hn : countOk n = true) (hsel : select p s = ⟨.err k, t⟩) :
    exec i s = .next (t.setResult (.err k)) := by
  simp only [List.mem_cons, List.not_mem_nil, or_false] at hi
  obtain rfl | rfl := hi
  · rw [exec_afeWrite, afeWrite, hsel, Run.andThen_err, Run.returned_err]
  · rw [exec_afeRead, afeRead_of_countOk p a s hn, hsel, Run.andThen_err, Run.returned_err]

/-- An address out of range is rejected behind the select, whose effect stays. -/
theorem exec_afe_rejected_address {p a n : Nat} {v : Word} {i : Instr} {s t : State}
    (hi : i ∈ [Instr.afeWrite p a v, .afeRead p a n]) (hn : countOk n = true) (ha : addressOk a = false)
    (hsel : select p s = ⟨.ok (), t⟩) : exec i s = .next (t.setResult (.err .badArgument)) := by
  simp only [List.mem_cons, List.not_mem_nil, or_false] at hi
  obtain rfl | rfl := hi
  · rw [exec_afeWrite, afeWrite, hsel, Run.andThen_ok, wrreg_rejected v t ha, Run.returned_err]
  · rw [exec_afeRead, afeRead_of_countOk p a s hn, hsel, Run.andThen_ok, rdreg_rejected t (.inr ha), Run.returned_err]

/-- The state after a transfer that failed is known from the answer the environment had ready. -/
theorem afterFailure_eq_of_answer {p : Nat} {tx : List Byte} {s t : State} {ds : List Bool} {x : BusAnswer}
    {as : List BusAnswer} (h : AfterFailure p tx s t) (hd : s.env.drives = true :: ds) (hx : s.env.answers = x :: as) :
    t = { s with
          sel := selLines s.par.nsel p, trace := s.trace ++ [.sel p true, .xfer p tx x], env := envAfter s ds as } :=
  h.2 ds x as hd hx

theorem exec_afeWrite_busError {p a : Nat} {v : Word} {s : State} {ds : List Bool} {as : List BusAnswer}
    (hp : p < 2 ^ s.par.nsel) (ha : addressOk a = true) (hd : s.env.drives = true :: ds)
    (hx : s.env.answers = .busError :: as) :
    exec (.afeWrite p a v) s = .next { s with
      sel := selLines s.par.nsel p,
      trace := s.trace ++ [.sel p true, .xfer p (wrFrame s.par.crcPoly a v) .busError],
      env := envAfter s ds as, result := .err .transport } := by
  obtain ⟨t, ht, hrun⟩ := afeWrite_fails (v := v) hp ha (.inr (.inl ⟨ds, as, hd, hx, rfl⟩))
  rw [exec_afeWrite, hrun, Run.returned_err, afterFailure_eq_of_answer ht hd hx, State.setResult]

/-- A read that fails in its transfer: the bus's error, or a CRC that is wrong. -/
theorem exec_afeRead_fails {p a n : Nat} {s : State} {ds : List Bool} {x : BusAnswer} {as : List BusAnswer} {k : ErrKind}
    (hp : p < 2 ^ s.par.nsel) (ha : addressOk a = true) (hn : countOk n = true) (hd : s.env.drives = true :: ds)
    (hx : s.env.answers = x :: as) (hfail : NextFails true (2 * n + 3) s k) :
    exec (.afeRead p a n) s = .next { s with
      sel := selLines s.par.nsel p, trace := s.trace ++ [.sel p true, .xfer p (rdFrame a n) x],
      env := envAfter s ds as, result := .err k } := by
  obtain ⟨t, ht, hrun⟩ := afeRead_fails hp ha hn hfail
  rw [exec_afeRead, hrun, Run.returned_err, afterFailure_eq_of_answer ht hd hx, State.setResult]

/-- A script of one transaction. -/
theorem script_singleton {rx : List Byte} {ds : List Bool} {as : List BusAnswer} {s : State} :
    Script [rx] ds as s ↔ s.env.drives = true :: ds ∧ s.env.answers = .ok rx :: as := Iff.rfl

/-! ## The statements of 41_register_facade.md -/

/-- Settles O13: the rejected operands, then the failed select, the rejected address behind a select, and one clause for each
answer to the frame. -/
theorem facadeAccess : Obligations.FacadeAccess := by
  intro p a n v s ds
  refine ⟨fun hp => ?writeRejected, fun h => ?readRejected, fun hp h1 hn => ?selected⟩
  case writeRejected => rw [exec_afeWrite, afeWrite, select_rejected hp, Run.andThen_err, Run.returned_err]
  case readRejected =>
    cases hcount : countOk n with
    | false => rw [exec_afeRead, afeRead_rejected_count p a s hcount, Run.returned_err]
    | true =>
      have hp : 2 ^ s.par.nsel ≤ p := by
        simp only [countOk, Bool.and_eq_true, decide_eq_true_eq] at hcount
        omega
      exact exec_afe_of_select_err (a := a) (v := v) (by simp) hcount (select_rejected hp)
  case selected =>
    have hcount : countOk n = true := by simp [countOk, h1, hn]
    refine ⟨fun hd i hi => ?_, fun ha hd i hi => ?_, fun ha as => ?sent⟩
    · exact ⟨_, _, exec_afe_of_select_err hi hcount (select_scripted_fail hp hd)⟩
    · exact exec_afe_rejected_address hi hcount (by simpa [addressOk] using ha) (select_scripted hp hd)
    case sent =>
      have haddr : addressOk a = true := by simpa [addressOk] using ha
      refine ⟨fun ack hack hs => ?_, fun r hr hs => ?_, fun hd hx => ⟨?_, ?_⟩, fun rx hl hcrc hs => ?_⟩
      · obtain ⟨hd, hx⟩ := script_singleton.1 hs
        rw [exec_afeWrite, afeWrite_scripted hp haddr hack hd hx, Run.returned_ok, State.setResult]
      · obtain ⟨hd, hx⟩ := script_singleton.1 hs
        rw [exec_afeRead, afeRead_scripted hp haddr hcount hr hd hx, Run.returned_ok, State.setResult]
      · exact exec_afeWrite_busError hp haddr hd hx
      · exact exec_afeRead_fails hp haddr hcount hd hx (.inr (.inl ⟨ds, as, hd, hx, rfl⟩))
      · obtain ⟨hd, hx⟩ := script_singleton.1 hs
        exact exec_afeRead_fails hp haddr hcount hd hx (.inr (.inr ⟨rfl, ds, rx, as, hd, hx, hl, hcrc, rfl⟩))

/-- Settles O14: a pack that may run has a legal status address and legal cell blocks, so the answered reads complete. -/
theorem statusAndCellsComplete : Obligations.StatusAndCellsComplete := by
  intro p s ds as hready
  obtain ⟨_, hstatus, _, _, hcells, _⟩ := paramsValid_spec hready.params
  have hp := ready_device hready
  refine ⟨fun e0 e1 w hs => ?_, fun rs hf hs => ?_⟩
  · rw [exec_readStatus, onPack_ready hready, readStatus_scripted hp hstatus hs, Run.finished_ok, State.setResult]
  · rw [exec_readCells, onPack_ready hready, readCells_scripted hp hcells hf hs, Run.finished_ok, State.setResult]

/-- Settles O15: the telemetry blocks of a pack that may run are legal, so they are all read and the commit follows. -/
theorem readTelemetryCompletes : Obligations.ReadTelemetryCompletes := by
  intro p s ds as rs hready hf hs
  obtain ⟨_, _, _, _, _, hblocks, _⟩ := paramsValid_spec hready.params
  rw [exec_readTelemetry, onPack_ready hready, readTelemetry_scripted (ready_device hready) hblocks hf hs, Run.finished_ok,
    State.setResult, commitTelemetry]

/-- Settles O16, by the two ways a telemetry read can go. -/
theorem readTelemetryAllOrNothing : Obligations.ReadTelemetryAllOrNothing := by
  intro p s t h
  rw [exec_readTelemetry] at h
  obtain ⟨rfl, _⟩ := onPack_next h
  rw [Run.finished_packs]
  obtain ⟨hok, blocks, hlen, hpacks, _⟩ | ⟨⟨k, herr⟩, hpacks⟩ := readTel_cases p s
  · exact .inl ⟨Run.finished_result_of_ok hok _ _ _, blocks, hlen, hpacks⟩
  · exact .inr ⟨⟨k, Run.finished_result_of_err herr _ _ _⟩, hpacks⟩

/-- Settles O36: every ending of an operation of a pack leaves events of its own bus. -/
theorem packOpsSelectFirst : Obligations.PackOpsSelectFirst := fun _ _ _ _ _ hi hready h =>
  (ended_of_packOp hi h).ownBus (ready_device hready)

end Sys2Proof.Machine

/-! SUPPORT. A run of answered transactions as one update of the state, what the state operations do in such a run and where
they fail, how the runs of a register list partition it, and that a pass ends; with the statements of 42_pack_supervisor.md
they settle. -/

namespace Sys2Proof.Machine

open Sys2Proof.Safety

/-! ## A run of answered transactions -/

/-- `s` after `n` transactions with the device of pack `p`, all answered, which were the events `es`; `ds` and `as` are the
answers the environment has left. -/
def State.served (s : State) (p n : Nat) (es : List Event) (ds : List Bool) (as : List BusAnswer) : State :=
  { s with sel := linesAfter n p s, trace := s.trace ++ es, env := envAfter s ds as }

section
variable {p m n : Nat} {s v : State} {es fs : List Event} {ds ds' : List Bool} {as as' : List BusAnswer}

@[simp] theorem State.served_par : (s.served p n es ds as).par = s.par := rfl
@[simp] theorem State.served_pack (q : Nat) : (s.served p n es ds as).pack q = s.pack q := rfl
@[simp] theorem State.served_tel (q : Nat) : (s.served p n es ds as).tel q = s.tel q := rfl

/-- Two runs, one after the other, are one run. -/
@[simp] theorem State.served_served :
    (s.served p m es ds as).served p n fs ds' as' = s.served p (m + n) (es ++ fs) ds' as' := by
  cases n with
  | zero => simp [State.served, linesAfter, envAfter]
  | succ n => simp [State.served, linesAfter, envAfter]

/-! What a state operation writes besides, it may as well have written before the run. -/

@[simp] theorem State.served_setCode (c : BitVec 4) :
    (s.served p n es ds as).setCode p c = (s.setCode p c).served p n es ds as := rfl
@[simp] theorem State.served_setDrive (d : BitVec 3) :
    (s.served p n es ds as).setDrive p d = (s.setDrive p d).served p n es ds as := rfl
@[simp] theorem State.served_storeSamples (k : Nat) (l : List Q) :
    storeSamples k l (s.served p n es ds as) = (storeSamples k l s).served p n es ds as := rfl

/-- A report after the run. -/
@[simp] theorem State.served_emit (e : Event) :
    (s.served p n es ds as).emit e = s.served p n (es ++ [e]) ds as := by
  simp [State.served, State.emit, envAfter]

/-- A script in two parts: when the first part is answered the second one is next, whatever else was written. -/
theorem script_split {xs ys : List (List Byte)} (h : Script (xs ++ ys) ds as s) :
    ∃ ds1 as1, Script xs ds1 as1 s ∧
      ∀ (v : State) (p n : Nat) (es : List Event), Script ys ds as (v.served p n es ds1 as1) :=
  ⟨_, _, script_append h, fun _ _ _ _ => ⟨rfl, rfl⟩⟩

/-- A script in three parts. -/
theorem script_split_three {xs ys zs : List (List Byte)} (h : Script (xs ++ ys ++ zs) ds as s) :
    ∃ ds1 as1 ds2 as2, Script xs ds1 as1 s ∧
      (∀ (v : State) (p n : Nat) (es : List Event), Script ys ds2 as2 (v.served p n es ds1 as1)) ∧
      ∀ (v : State) (p n : Nat) (es : List Event), Script zs ds as (v.served p n es ds2 as2) := by
  obtain ⟨_, _, hxy, hz⟩ := script_split h
  obtain ⟨_, _, hx, hy⟩ := script_split hxy
  exact ⟨_, _, _, _, hx, hy, hz⟩

/-! ## The transactions of a state operation, answered -/

theorem afeWrite_served {a : Nat} {x : Word} {ack : List Byte} (hs : Script [ack] ds as s) (hp : p < 2 ^ s.par.nsel)
    (ha : addressOk a = true) (hack : ack.length = 4) :
    afeWrite p a x s = ⟨.ok (), s.served p 1 (transaction p (wrFrame s.par.crcPoly a x) ack) ds as⟩ :=
  afeWrite_scripted hp ha hack hs.1 hs.2

theorem afeWriteReg_served {w : RegWrite} {ack : List Byte} (hs : Script [ack] ds as s) (hp : p < 2 ^ s.par.nsel)
    (ha : addressOk w.addr = true) (hack : ack.length = 4) :
    afeWriteReg p w s = ⟨.ok (), s.served p 1 (transaction p (wrFrame s.par.crcPoly w.addr w.value) ack) ds as⟩ :=
  afeWrite_served hs hp ha hack

theorem writeAll_served {ws : List RegWrite} {acks : List (List Byte)} (hs : Script acks ds as s)
    (hp : p < 2 ^ s.par.nsel) (ha : ws.all (fun w => addressOk w.addr) = true) (hk : Acks ws acks) :
    writeAll p ws s = ⟨.ok (), s.served p ws.length (writeEvents s.par.crcPoly p ws acks) ds as⟩ :=
  writeAll_scripted hp ha hk hs

theorem afeRead_served {a n : Nat} {r : Resp} (hs : Script (respBytes s.par.crcPoly [r]) ds as s)
    (hp : p < 2 ^ s.par.nsel) (hb : burstValid ⟨a, n⟩ = true) (hw : r.ws.length = n) :
    afeRead p a n s =
      ⟨.ok r.ws, s.served p 1 (transaction p (rdFrame a n) (rsFrame s.par.crcPoly r.e0 r.e1 r.ws)) ds as⟩ := by
  simp only [burstValid, Bool.and_eq_true] at hb
  exact afeRead_scripted hp hb.1 hb.2 hw hs.1 hs.2

theorem readStatus_served {e0 e1 : Byte} {w : Word} (hs : Script [rsFrame s.par.crcPoly e0 e1 [w]] ds as s)
    (hp : p < 2 ^ s.par.nsel) (ha : addressOk s.par.profile.statusAddr = true) :
    readStatus p s = ⟨.ok (pwrCodeOf s.par.profile w),
      s.served p 1 (transaction p (rdFrame s.par.profile.statusAddr 1) (rsFrame s.par.crcPoly e0 e1 [w])) ds as⟩ :=
  readStatus_scripted hp ha hs

theorem readCells_served {rs : List Resp} (hs : Script (respBytes s.par.crcPoly rs) ds as s) (hp : p < 2 ^ s.par.nsel)
    (hb : s.par.profile.cellBlocks.all burstValid = true) (hf : Fits s.par.profile.cellBlocks rs) :
    readCells p s = ⟨.ok (cellSamples s p (rs.map Resp.ws).flatten), s.served p s.par.profile.cellBlocks.length
      (readEvents s.par.crcPoly p s.par.profile.cellBlocks rs) ds as⟩ :=
  readCells_scripted hp hb hf hs

theorem readTelemetry_served {rs : List Resp} (hs : Script (respBytes s.par.crcPoly rs) ds as s)
    (hp : p < 2 ^ s.par.nsel) (hb : s.par.profile.telemBlocks.all burstValid = true)
    (hf : Fits s.par.profile.telemBlocks rs) :
    readTelemetry p s = ⟨.ok (), (s.setTel p (commitTelemetry s.par (s.cfg p) (rs.map Resp.ws) (s.tel p))).served p
      s.par.profile.telemBlocks.length (readEvents s.par.crcPoly p s.par.profile.telemBlocks rs) ds as⟩ :=
  readTelemetry_scripted hp hb hf hs

theorem readBack_served {u : List RegWrite} {good rest : List (Nat × Nat)} {gs : List Resp}
    (hs : Script (respBytes s.par.crcPoly gs) ds as s) (hp : p < 2 ^ s.par.nsel)
    (hb : (runBursts u good).all burstValid = true) (hf : Fits (runBursts u good) gs)
    (hw : gs.map Resp.ws = runWords u good) :
    readBack p u (good ++ rest) s = readBack p u rest
      (s.served p good.length (readEvents s.par.crcPoly p (runBursts u good) gs) ds as) :=
  readBack_scripted hp hb hf hw hs

end

/-! ## What a pack that may run gives -/

/-- The end of an operation that was answered: `v` is `s` with what it wrote besides, after a run of transactions. -/
theorem onPack_of_answered {p n : Nat} {s v : State} {r : Run Unit} {es : List Event} {ds : List Bool}
    {as : List BusAnswer} (hready : Ready p s) (h : r = ⟨.ok (), v.served p (n + 1) es ds as⟩) (hpar : v.par = s.par)
    (htrace : v.trace = s.trace) :
    onPack p s (r.finished p (s.tel p).state fun _ => .done) = .next { v with
      sel := selLines s.par.nsel p, trace := s.trace ++ es, env := envAfter v ds as, result := .done } := by
  rw [onPack_ready hready, h, Run.finished_ok]
  simp [State.served, State.setResult, linesAfter, hpar, htrace]

/-- The same where no free value was drawn. -/
theorem onPack_of_served {p n : Nat} {s v : State} {r : Run Unit} {es : List Event} {ds : List Bool}
    {as : List BusAnswer} (hready : Ready p s) (h : r = ⟨.ok (), v.served p (n + 1) es ds as⟩) (hpar : v.par = s.par)
    (htrace : v.trace = s.trace) (henv : v.env = s.env) :
    onPack p s (r.finished p (s.tel p).state fun _ => .done) = .next { v with
      sel := selLines s.par.nsel p, trace := s.trace ++ es, env := envAfter s ds as, result := .done } := by
  rw [onPack_of_answered hready h hpar htrace, envAfter, henv, ← envAfter]

/-- The command writes of a pack that may run have legal addresses. -/
theorem commandWrite_addressOk {p : Nat} {s : State} {w : RegWrite} (hready : Ready p s)
    (hw : w ∈ commandWrites s.par.profile) : addressOk w.addr = true := by
  obtain ⟨_, _, _, hcommands, _⟩ := paramsValid_spec hready.params
  exact List.all_eq_true.1 hcommands w hw

/-- The user register list of a pack that may run has legal addresses. -/
theorem userList_addressOk {p : Nat} {s : State} (hready : Ready p s) :
    (userList (s.cfg p).userRegs).all (fun w => addressOk w.addr) = true := by
  have h := hready.config
  simp only [configValid, Bool.and_eq_true] at h
  obtain ⟨⟨⟨⟨⟨_, huser⟩, _⟩, _⟩, _⟩, _⟩ := h
  exact huser

/-! ## `ST_WAITINIT` (42_pack_supervisor.md R173) -/

theorem exec_stWaitinit (p : Nat) (s : State) :
    exec (.stWaitinit p) s = onPack p s ((stWaitinit p s).finished p (s.tel p).state fun _ => .done) := rfl

/-- The drive and the state code written one after the other. -/
theorem setCode_setDrive {p : Nat} {s : State} (hp : p < s.packs.length) (d : BitVec 3) (c : BitVec 4) :
    (s.setDrive p d).setCode p c = s.setTel p { s.tel p with state := c, mosfetDrive := d } := by
  rw [State.setCode, State.tel_setDrive_self s p d hp, State.setDrive, State.setTel_setTel]

/-- `ST_WAITINIT` answered with another power code. -/
theorem stWaitinit_of_other {p : Nat} {s : State} {ds : List Bool} {as : List BusAnswer} {e0 e1 : Byte} {w : Word}
    (hready : Ready p s) (hw : pwrCodeOf s.par.profile w ≠ s.par.profile.powerupCode)
    (hs : Script [rsFrame s.par.crcPoly e0 e1 [w]] ds as s) :
    stWaitinit p s = ⟨.ok (), s.served p 1
      (transaction p (rdFrame s.par.profile.statusAddr 1) (rsFrame s.par.crcPoly e0 e1 [w])) ds as⟩ := by
  obtain ⟨_, hstatus, _⟩ := paramsValid_spec hready.params
  simp only [stWaitinit, readStatus_served hs (ready_device hready) hstatus, Run.andThen_ok, State.served_par, hw,
    ↓reduceIte, Run.pure]

/-- `ST_WAITINIT` answered with a matching power code. -/
theorem stWaitinit_of_match {p : Nat} {s : State} {ds : List Bool} {as : List BusAnswer} {e0 e1 : Byte} {w : Word}
    {ack1 ack2 : List Byte} (hready : Ready p s) (hw : pwrCodeOf s.par.profile w = s.par.profile.powerupCode)
    (h1 : ack1.length = 4) (h2 : ack2.length = 4) (hs : Script [rsFrame s.par.crcPoly e0 e1 [w], ack1, ack2] ds as s) :
    stWaitinit p s = ⟨.ok (), ((s.setDrive p 0).setCode p codeInit).served p 3
      (transaction p (rdFrame s.par.profile.statusAddr 1) (rsFrame s.par.crcPoly e0 e1 [w]) ++
        transaction p (wrFrame s.par.crcPoly s.par.profile.mosfetCtrlAddr 0) ack1 ++
        transaction p (wrFrame s.par.crcPoly s.par.profile.balOff.addr s.par.profile.balOff.value) ack2) ds as⟩ := by
  obtain ⟨_, hstatus, hmosfet, _⟩ := paramsValid_spec hready.params
  have hp := ready_device hready
  have hoff : addressOk s.par.profile.balOff.addr = true := commandWrite_addressOk hready (by simp [commandWrites])
  obtain ⟨_, _, _, _, hs1, hs2, hs3⟩ := script_split_three (xs := [_]) (ys := [ack1]) (zs := [ack2]) hs
  simp only [stWaitinit, readStatus_served hs1 hp hstatus, Run.andThen_ok, State.served_par, hw, ↓reduceIte,
    afeWrite_served (hs2 s p _ _) hp hmosfet h1, State.served_served, State.served_setDrive,
    afeWriteReg_served (hs3 (s.setDrive p 0) p _ _) hp hoff h2, State.setDrive_par, State.served_setCode, Run.pure]

/-- Settles O20: the poll, and on a match the two writes that switch off. -/
theorem stWaitinitCompletes : Obligations.StWaitinitCompletes := by
  intro p s ds as e0 e1 w hready
  refine ⟨fun hne hs => ?_, fun hmatch ack1 ack2 h1 h2 hs => ?_⟩
  · rw [exec_stWaitinit, onPack_of_served hready (stWaitinit_of_other hready hne hs) rfl rfl rfl]
  · rw [exec_stWaitinit, onPack_of_served hready (stWaitinit_of_match hready hmatch h1 h2 hs) rfl rfl rfl,
      setCode_setDrive hready.pack]
    simp only [List.append_assoc]

/-! ## `RUNS` (42_pack_supervisor.md R175) -/

/-- The entries `k .. k+n-1` of the list stand at consecutive addresses. -/
def Consecutive (u : List RegWrite) (k n : Nat) : Prop :=
  ∀ i, i + 1 < n → runAddr u (k + i + 1) = runAddr u (k + i) + 1

/-- `RunsAt u k rs`: the runs `rs` cover the list `u` from entry `k` to its end, in order, each of 1 to 32 entries at
consecutive addresses, and each that another follows as long as it could be. -/
inductive RunsAt (u : List RegWrite) : Nat → List (Nat × Nat) → Prop where
  | done : RunsAt u u.length []
  | run {k n : Nat} {rs : List (Nat × Nat)} (hpos : 1 ≤ n) (hle : n ≤ 32) (hconsec : Consecutive u k n)
      (hmax : rs ≠ [] → n = 32 ∨ runAddr u (k + n) ≠ runAddr u (k + n - 1) + 1) (hrest : RunsAt u (k + n) rs) :
      RunsAt u k ((k, n) :: rs)

theorem consecutive_one (u : List RegWrite) (k : Nat) : Consecutive u k 1 := fun i hi => by omega

/-- An entry at the next address extends a run. -/
theorem Consecutive.extend {u : List RegWrite} {k n : Nat} (h : Consecutive u k n) (hpos : 1 ≤ n)
    (hnext : runAddr u (k + n) = runAddr u (k + n - 1) + 1) : Consecutive u k (n + 1) := by
  intro i hi
  obtain hlt | rfl : i + 1 < n ∨ n = i + 1 := by omega
  · exact h i hlt
  · exact hnext

theorem runAddr_of_drop {u rest : List RegWrite} {w : RegWrite} {k : Nat} (h : u.drop k = w :: rest) :
    runAddr u k = w.addr := by
  have hk : u[k]? = some w := by simpa [h] using (List.getElem?_drop (xs := u) (i := k) (j := 0)).symm
  simp [runAddr, List.getD_eq_getElem?_getD, hk]

/-- The runs that follow a run under way: it is closed at the end of the list, at 32 entries, or at a gap. -/
theorem runsFrom_runsAt {u rest : List RegWrite} {k n prev : Nat} (hdrop : u.drop (k + n) = rest)
    (hk : k + n ≤ u.length) (hpos : 1 ≤ n) (hle : n ≤ 32) (hconsec : Consecutive u k n)
    (hprev : runAddr u (k + n - 1) = prev) : RunsAt u k (runsFrom k n prev rest) := by
  induction rest generalizing k n prev with
  | nil =>
    have hend : k + n = u.length := by simp only [List.drop_eq_nil_iff] at hdrop; omega
    exact .run hpos hle hconsec (fun h => absurd rfl h) (hend ▸ .done)
  | cons w rest ih =>
    have haddr : runAddr u (k + n) = w.addr := runAddr_of_drop hdrop
    have hlt : k + n < u.length := by
      have := congrArg List.length hdrop
      simp only [List.length_drop, List.length_cons] at this
      omega
    have hdrop' : u.drop (k + n + 1) = rest := by rw [← List.drop_drop, hdrop]; rfl
    unfold runsFrom
    split
    · next hext =>
      simp only [Bool.and_eq_true, decide_eq_true_eq, beq_iff_eq] at hext
      exact ih hdrop' hlt (by omega) (by omega) (hconsec.extend hpos (by rw [haddr, hprev, hext.2])) haddr
    · next hclosed =>
      simp only [Bool.and_eq_true, decide_eq_true_eq, beq_iff_eq, not_and] at hclosed
      refine .run hpos hle hconsec (fun _ => ?_) (ih hdrop' hlt (by omega) (by omega) (consecutive_one u _) haddr)
      rw [haddr, hprev]
      by_cases hfull : n < 32
      · exact .inr (hclosed hfull)
      · exact .inl (by omega)

theorem runs_runsAt (u : List RegWrite) : RunsAt u 0 (runs u) := by
  cases u with
  | nil => exact .done
  | cons w rest => exact runsFrom_runsAt rfl (by simp) (by omega) (by omega) (consecutive_one _ _) rfl

/-! What such a sequence of runs says, part by part. -/

theorem RunsAt.sum_lengths {u : List RegWrite} {k : Nat} {rs : List (Nat × Nat)} (h : RunsAt u k rs) :
    k + (rs.map Prod.snd).sum = u.length := by
  induction h with
  | done => rfl
  | run _ _ _ _ _ ih => simp only [List.map_cons, List.sum_cons]; omega

theorem RunsAt.start {u : List RegWrite} {k : Nat} {rs : List (Nat × Nat)} (h : RunsAt u k rs) (j : Nat)
    (hj : j < rs.length) : (rs.getD j default).1 = k + ((rs.take j).map Prod.snd).sum := by
  induction h generalizing j with
  | done => simp at hj
  | run _ _ _ _ _ ih =>
    cases j with
    | zero => rfl
    | succ j =>
      rw [List.getD_cons_succ, ih j (by simpa using hj), List.take_succ_cons, List.map_cons, List.sum_cons, Nat.add_assoc]

theorem RunsAt.each {u : List RegWrite} {k : Nat} {rs : List (Nat × Nat)} (h : RunsAt u k rs) :
    ∀ r ∈ rs, 1 ≤ r.2 ∧ r.2 ≤ 32 ∧ Consecutive u r.1 r.2 := by
  induction h with
  | done => simp
  | run hpos hle hconsec _ _ ih => exact List.forall_mem_cons.2 ⟨⟨hpos, hle, hconsec⟩, ih⟩

theorem RunsAt.maximal {u : List RegWrite} {k : Nat} {rs : List (Nat × Nat)} (h : RunsAt u k rs) (j : Nat)
    (hj : j + 1 < rs.length) : ∀ r, rs.getD j default = r →
      r.2 = 32 ∨ runAddr u (r.1 + r.2) ≠ runAddr u (r.1 + r.2 - 1) + 1 := by
  induction h generalizing j with
  | done => simp at hj
  | run _ _ _ hmax _ ih =>
    rintro r rfl
    cases j with
    | zero => exact hmax fun hnil => by simp [hnil] at hj
    | succ j => exact ih j (by simpa using hj) _ rfl

/-- Settles O21: the scan builds such a sequence of runs from entry 0. -/
theorem runsPartition : Obligations.RunsPartition := by
  intro u s
  have h := runs_runsAt u
  refine ⟨rfl, ?_, fun j hj => ?_, h.each, h.maximal⟩
  · simpa using h.sum_lengths
  · simpa using h.start j hj

/-! ## `ST_INIT` (42_pack_supervisor.md R174) -/

theorem exec_stInit (p : Nat) (s : State) :
    exec (.stInit p) s = onPack p s ((stInit p s).finished p (s.tel p).state fun _ => .done) := rfl

/-- The stored list is the user list, then its sentinel and what follows, if it has one (30_encoding.md R107). -/
theorem stored_eq_userList_append (stored : List RegWrite) :
    ∃ rest, stored = userList stored ++ rest ∧ (rest = [] ∨ ∃ more, rest = ⟨0, 0⟩ :: more) := by
  induction stored with
  | nil => exact ⟨[], rfl, .inl rfl⟩
  | cons w stored ih =>
    obtain ⟨a, x⟩ := w
    by_cases hw : a = 0 ∧ x = 0
    · obtain ⟨rfl, rfl⟩ := hw
      exact ⟨⟨0, 0⟩ :: stored, by simp [userList], .inr ⟨stored, rfl⟩⟩
    · obtain ⟨rest, hrest, hend⟩ := ih
      refine ⟨rest, ?_, hend⟩
      have hcons : userList (⟨a, x⟩ :: stored) = ⟨a, x⟩ :: userList stored := by
        simpa [userList, List.takeWhile_cons] using hw
      rw [hcons, List.cons_append, ← hrest]

theorem not_sentinel_of_mem_userList {stored : List RegWrite} {w : RegWrite} (h : w ∈ userList stored) :
    ¬(w.addr = 0 ∧ w.value = 0) := by
  rintro ⟨ha, hx⟩
  simpa [ha, hx] using List.mem_takeWhile_imp h

theorem runBursts_append (u : List RegWrite) (rs rs' : List (Nat × Nat)) :
    runBursts u (rs ++ rs') = runBursts u rs ++ runBursts u rs' := List.map_append

theorem readEvents_append {poly : Byte} {p : Nat} {bs bs' : List Burst} {rs rs' : List Resp} (h : Fits bs rs) :
    readEvents poly p (bs ++ bs') (rs ++ rs') = readEvents poly p bs rs ++ readEvents poly p bs' rs' := by
  induction bs generalizing rs with
  | nil =>
    cases rs with
    | nil => rfl
    | cons r rs => exact h.elim
  | cons b bs ih =>
    cases rs with
    | nil => exact h.elim
    | cons r rs => simp only [List.cons_append, readEvents, ih h.2, List.append_assoc]

/-- Readback in which every run matches. -/
theorem readBack_matched {p : Nat} {s : State} {ds : List Bool} {as : List BusAnswer} {u : List RegWrite}
    {rs : List Resp} (hs : Script (respBytes s.par.crcPoly rs) ds as s) (hp : p < 2 ^ s.par.nsel)
    (hu : u.all (fun w => addressOk w.addr) = true) (hf : Fits (runBursts u (runs u)) rs)
    (hw : rs.map Resp.ws = runWords u (runs u)) :
    readBack p u (runs u) s = ⟨.ok true,
      s.served p (runs u).length (readEvents s.par.crcPoly p (runBursts u (runs u)) rs) ds as⟩ := by
  have h := readBack_served (rest := []) hs hp (runBursts_valid hu fun _ hr => hr) hf hw
  rwa [List.append_nil] at h

/-- Readback that ends at the first run that does not match. -/
theorem readBack_mismatched {p k n : Nat} {s : State} {ds : List Bool} {as : List BusAnswer} {u : List RegWrite}
    {good rest : List (Nat × Nat)} {gs : List Resp} {bad : Resp}
    (hs : Script (respBytes s.par.crcPoly (gs ++ [bad])) ds as s) (hp : p < 2 ^ s.par.nsel)
    (hu : u.all (fun w => addressOk w.addr) = true) (hruns : runs u = good ++ (k, n) :: rest)
    (hf : Fits (runBursts u good) gs) (hw : gs.map Resp.ws = runWords u good) (hlen : bad.ws.length = n)
    (hbad : bad.ws ≠ runValues u k n) :
    readBack p u (runs u) s = ⟨.ok false, s.served p (good.length + 1)
      (readEvents s.par.crcPoly p (runBursts u (good ++ [(k, n)])) (gs ++ [bad])) ds as⟩ := by
  have hvalid : (runBursts u good).all burstValid = true := runBursts_valid hu fun r hr => by simp [hruns, hr]
  have hburst : burstValid ⟨runAddr u k, n⟩ = true := by
    simpa [runBursts] using runBursts_valid (rs := [(k, n)]) hu fun r hr => by simp_all
  rw [respBytes, List.map_append] at hs
  obtain ⟨_, _, hs1, hs2⟩ := script_split hs
  have hevents : readEvents s.par.crcPoly p (runBursts u (good ++ [(k, n)])) (gs ++ [bad]) =
      readEvents s.par.crcPoly p (runBursts u good) gs ++
        transaction p (rdFrame (runAddr u k) n) (rsFrame s.par.crcPoly bad.e0 bad.e1 bad.ws) := by
    rw [runBursts_append, readEvents_append hf]
    simp [runBursts, readEvents]
  rw [hruns, hevents, readBack_served hs1 hp hvalid hf hw]
  simp only [readBack, afeRead_served (hs2 s p _ _) hp hburst hlen, Run.andThen_ok, hbad, ↓reduceIte, Run.pure,
    State.served_served, State.served_par]

/-- `ST_INIT` answered, with every run read back as written. -/
theorem stInit_of_verified {p : Nat} {s : State} {ds : List Bool} {as : List BusAnswer} {acks acks2 : List (List Byte)}
    {rs : List Resp} {u : List RegWrite} (hready : Ready p s) (hu : u = userList (s.cfg p).userRegs) (hk : Acks u acks)
    (hf : Fits (runBursts u (runs u)) rs) (hw : rs.map Resp.ws = runWords u (runs u))
    (hk2 : Acks [s.par.profile.clrReset, s.par.profile.balWindow] acks2)
    (hs : Script (acks ++ respBytes s.par.crcPoly rs ++ acks2) ds as s) :
    stInit p s = ⟨.ok (), (s.setCode p codeWaitDiag0).served p (u.length + (runs u).length + 2)
      (writeEvents s.par.crcPoly p u acks ++ readEvents s.par.crcPoly p (runBursts u (runs u)) rs ++
        writeEvents s.par.crcPoly p [s.par.profile.clrReset, s.par.profile.balWindow] acks2) ds as⟩ := by
  have hp := ready_device hready
  have huser : u.all (fun w => addressOk w.addr) = true := hu ▸ userList_addressOk hready
  have hlast : [s.par.profile.clrReset, s.par.profile.balWindow].all (fun w => addressOk w.addr) = true := by
    simp only [List.all_cons, List.all_nil, Bool.and_true, Bool.and_eq_true]
    constructor <;> exact commandWrite_addressOk hready (by simp [commandWrites])
  obtain ⟨_, _, _, _, hs1, hs2, hs3⟩ := script_split_three hs
  simp only [stInit, ← hu, writeAll_served hs1 hp huser hk, Run.andThen_ok,
    readBack_matched (hs2 s p _ _) hp huser hf hw, State.served_served, State.served_par, ↓reduceIte,
    writeAll_served (hs3 s p _ _) hp hlast hk2, State.served_setCode, Run.pure, List.length_cons, List.length_nil]

/-- `ST_INIT` at the first run that does not read back as written. -/
theorem stInit_of_mismatch {p k n : Nat} {s : State} {ds : List Bool} {as : List BusAnswer} {acks : List (List Byte)}
    {gs : List Resp} {bad : Resp} {u : List RegWrite} {good rest : List (Nat × Nat)} (hready : Ready p s)
    (hu : u = userList (s.cfg p).userRegs) (hk : Acks u acks) (hruns : runs u = good ++ (k, n) :: rest)
    (hf : Fits (runBursts u good) gs) (hw : gs.map Resp.ws = runWords u good) (hlen : bad.ws.length = n)
    (hbad : bad.ws ≠ runValues u k n) (hs : Script (acks ++ respBytes s.par.crcPoly (gs ++ [bad])) ds as s) :
    stInit p s = ⟨.ok (), (s.setCode p codeError).served p (u.length + good.length + 1)
      (writeEvents s.par.crcPoly p u acks ++
        readEvents s.par.crcPoly p (runBursts u (good ++ [(k, n)])) (gs ++ [bad]) ++
        [.report p (s.tel p).state .configFault]) ds as⟩ := by
  have hp := ready_device hready
  have huser : u.all (fun w => addressOk w.addr) = true := hu ▸ userList_addressOk hready
  obtain ⟨_, _, hs1, hs2⟩ := script_split hs
  simp only [stInit, ← hu, writeAll_served hs1 hp huser hk, Run.andThen_ok,
    readBack_mismatched (hs2 s p _ _) hp huser hruns hf hw hlen hbad, State.served_served, State.served_par,
    Bool.false_eq_true, ↓reduceIte, packFault, State.served_setCode, Run.pure, State.served_emit,
    Nat.add_assoc]

/-- Settles O22: the stored list as it is read, and then its writes, its readback and the two writes after it. -/
theorem stInitVerified : Obligations.StInitVerified := by
  refine ⟨fun stored => ?_, fun p s ds as acks acks2 rs u hready hu hk hf hw hk2 hs => ?_⟩
  · obtain ⟨rest, hrest, hend⟩ := stored_eq_userList_append stored
    exact ⟨rest, hrest, fun _ => not_sentinel_of_mem_userList, hend⟩
  · rw [exec_stInit, onPack_of_served hready (stInit_of_verified hready hu hk hf hw hk2 hs) rfl rfl rfl]
    simp only [List.append_assoc]

/-- Settles O23: the runs before the mismatch are read and match, and the fault is all that follows it. -/
theorem stInitMismatch : Obligations.StInitMismatch := by
  intro p s ds as acks gs bad u good rest k n hready hu hk hruns hf hw hlen hbad hs
  rw [exec_stInit, onPack_of_served hready (stInit_of_mismatch hready hu hk hruns hf hw hlen hbad hs) rfl rfl rfl]
  simp only [List.append_assoc]

/-! ## `ST_CONFIG` (42_pack_supervisor.md R183) -/

theorem exec_stConfig (p : Nat) (s : State) :
    exec (.stConfig p) s = onPack p s ((stConfig p s).finished p (s.tel p).state fun _ => .done) := rfl

/-- `ST_CONFIG` answered. -/
theorem stConfig_of_acks {p : Nat} {s : State} {ds : List Bool} {as : List BusAnswer} {acks : List (List Byte)}
    (hready : Ready p s) (hk : Acks (s.par.profile.clrErrors ++ [s.par.profile.wdtArm]) acks) (hs : Script acks ds as s) :
    stConfig p s = ⟨.ok (), (s.setCode p codeRun).served p (s.par.profile.clrErrors.length + 1)
      (writeEvents s.par.crcPoly p (s.par.profile.clrErrors ++ [s.par.profile.wdtArm]) acks) ds as⟩ := by
  have hlegal : (s.par.profile.clrErrors ++ [s.par.profile.wdtArm]).all (fun w => addressOk w.addr) = true := by
    rw [List.all_eq_true]
    intro w hw
    refine commandWrite_addressOk hready ?_
    obtain hw | rfl : w ∈ s.par.profile.clrErrors ∨ w = s.par.profile.wdtArm := by simpa using hw
    · exact List.mem_append_right _ hw
    · simp [commandWrites]
  simp only [stConfig, writeAll_served hs (ready_device hready) hlegal hk, Run.andThen_ok, State.served_setCode, Run.pure,
    List.length_append, List.length_singleton]

/-- Settles O28: the clearing writes and the watchdog's are one list of writes. -/
theorem stConfigCompletes : Obligations.StConfigCompletes := by
  rintro p s ds as acks ws hready rfl hk hs
  rw [exec_stConfig, onPack_of_served hready (stConfig_of_acks hready hk hs) rfl rfl rfl]

/-! ## The diagnostic buffer (10_state.md R41) -/

theorem writeSamples_getD {ncell k j : Nat} {v old : List Q} (hj : j < 3 * ncell) :
    (writeSamples ncell k v old).getD j 0 =
      if k * ncell ≤ j ∧ j < (k + 1) * ncell then v.getD (j - k * ncell) 0 else old.getD j 0 := by
  simp [writeSamples, List.getD_eq_getElem?_getD, hj]

/-- Storing a snapshot stores it, and nothing else. -/
theorem writeSamples_stored {ncell k : Nat} (hk : k < 3) (v old : List Q) :
    SnapshotStored ncell k v old (writeSamples ncell k v old) := by
  have hend : (k + 1) * ncell ≤ 3 * ncell := Nat.mul_le_mul_right ncell hk
  rw [Nat.add_one_mul] at hend
  refine ⟨by simp [writeSamples], fun i hi => ?_, fun j hj hout => ?_⟩
  · rw [writeSamples_getD (by omega), Nat.add_one_mul, if_pos (by omega), Nat.add_sub_cancel_left]
  · rw [writeSamples_getD hj, if_neg (by omega)]

/-! ## `ST_DIAG0` and `ST_DIAG1` (42_pack_supervisor.md R177, R179) -/

theorem exec_stDiag0 (p : Nat) (s : State) :
    exec (.stDiag0 p) s = onPack p s ((stDiag0 p s).finished p (s.tel p).state fun _ => .done) := rfl

theorem exec_stDiag1 (p : Nat) (s : State) :
    exec (.stDiag1 p) s = onPack p s ((stDiag1 p s).finished p (s.tel p).state fun _ => .done) := rfl

section
variable {p : Nat} {s : State} {ds : List Bool} {as : List BusAnswer} {rs : List Resp}

/-- The samples do not depend on the transactions before them. -/
@[simp] theorem cellSamples_served (n : Nat) (es : List Event) (ws : List Word) :
    cellSamples (s.served p n es ds as) p ws = cellSamples s p ws := rfl

/-- `ST_DIAG0` answered. -/
theorem stDiag0_of_answers {ack1 ack2 : List Byte} (hready : Ready p s) (hf : Fits s.par.profile.cellBlocks rs)
    (h1 : ack1.length = 4) (h2 : ack2.length = 4) (hs : Script ([ack1] ++ respBytes s.par.crcPoly rs ++ [ack2]) ds as s) :
    stDiag0 p s = ⟨.ok (),
      ((storeSamples 0 (cellSamples s p (rs.map Resp.ws).flatten) s).setCode p codeWaitDiag1).served p
        (1 + s.par.profile.cellBlocks.length + 1)
        (transaction p (wrFrame s.par.crcPoly s.par.profile.diagUnlock.addr s.par.profile.diagUnlock.value) ack1 ++
          readEvents s.par.crcPoly p s.par.profile.cellBlocks rs ++
          transaction p (wrFrame s.par.crcPoly s.par.profile.diagPullUp.addr s.par.profile.diagPullUp.value) ack2)
        ds as⟩ := by
  obtain ⟨_, _, _, _, hcells, _⟩ := paramsValid_spec hready.params
  have hp := ready_device hready
  have hunlock : addressOk s.par.profile.diagUnlock.addr = true :=
    commandWrite_addressOk hready (by simp [commandWrites])
  have hpull : addressOk s.par.profile.diagPullUp.addr = true :=
    commandWrite_addressOk hready (by simp [commandWrites])
  obtain ⟨_, _, _, _, hs1, hs2, hs3⟩ := script_split_three hs
  simp only [stDiag0, afeWriteReg_served hs1 hp hunlock h1, Run.andThen_ok, readCells_served (hs2 s p _ _) hp hcells hf,
    cellSamples_served, State.served_served, State.served_par, State.served_storeSamples,
    afeWriteReg_served (hs3 (storeSamples 0 _ s) p _ _) hp hpull h2, State.storeSamples_par, State.served_setCode,
    Run.pure]

/-- `ST_DIAG1` answered. -/
theorem stDiag1_of_answers {ack : List Byte} (hready : Ready p s) (hf : Fits s.par.profile.cellBlocks rs)
    (hack : ack.length = 4) (hs : Script (respBytes s.par.crcPoly rs ++ [ack]) ds as s) :
    stDiag1 p s = ⟨.ok (),
      ((storeSamples 1 (cellSamples s p (rs.map Resp.ws).flatten) s).setCode p codeWaitDiag2).served p
        (s.par.profile.cellBlocks.length + 1)
        (readEvents s.par.crcPoly p s.par.profile.cellBlocks rs ++
          transaction p (wrFrame s.par.crcPoly s.par.profile.diagPullDown.addr s.par.profile.diagPullDown.value) ack)
        ds as⟩ := by
  obtain ⟨_, _, _, _, hcells, _⟩ := paramsValid_spec hready.params
  have hp := ready_device hready
  have hpull : addressOk s.par.profile.diagPullDown.addr = true :=
    commandWrite_addressOk hready (by simp [commandWrites])
  obtain ⟨_, _, hs1, hs2⟩ := script_split hs
  simp only [stDiag1, readCells_served hs1 hp hcells hf, Run.andThen_ok, State.served_par, State.served_storeSamples,
    afeWriteReg_served (hs2 (storeSamples 1 _ s) p _ _) hp hpull hack, State.served_served, State.storeSamples_par,
    State.served_setCode, Run.pure]

end

/-- Settles O26: the buffer after each is the old one with its snapshot stored. -/
theorem diagSamplesStored : Obligations.DiagSamplesStored := by
  intro p s ds as rs hready hf
  refine ⟨fun ack1 ack2 h1 h2 hs => ?_, fun ack hack hs => ?_⟩
  · refine ⟨_, writeSamples_stored (by decide) _ _, ?_⟩
    rw [exec_stDiag0, onPack_of_served hready (stDiag0_of_answers hready hf h1 h2 hs) rfl rfl rfl]
    simp only [List.append_assoc]
    rfl
  · refine ⟨_, writeSamples_stored (by decide) _ _, ?_⟩
    rw [exec_stDiag1, onPack_of_served hready (stDiag1_of_answers hready hf hack hs) rfl rfl rfl]
    simp only [List.append_assoc]
    rfl

/-! ## `ST_DIAG2` (42_pack_supervisor.md R181) -/

theorem exec_stDiag2 (p : Nat) (s : State) :
    exec (.stDiag2 p) s = onPack p s ((stDiag2 p s).finished p (s.tel p).state fun _ => .done) := rfl

/-- The evaluation passes exactly when every delta is below the threshold (46_diag_balancer.md R281). -/
theorem diagEval_iff {num : NumSel} {ncell : Nat} {buf : List Q} {thr : Q} : diagEval num ncell buf thr = true ↔
    ∀ j, j < ncell → qAbs (numSub num (buf.getD j 0) (buf.getD (2 * ncell + j) 0)) < thr := by
  simp only [diagEval, cellBroken, Bool.not_eq_true', List.any_eq_false, List.mem_range, decide_eq_true_eq, not_le]

/-- Once the third snapshot is stored it is the one compared with the first. -/
theorem diagEval_writeSamples {num : NumSel} {ncell : Nat} {v buf : List Q} {thr : Q} :
    diagEval num ncell (writeSamples ncell 2 v buf) thr = true ↔
      ∀ j, j < ncell → qAbs (numSub num (buf.getD j 0) (v.getD j 0)) < thr := by
  obtain ⟨_, hnew, hold⟩ := writeSamples_stored (ncell := ncell) (k := 2) (by decide) v buf
  rw [diagEval_iff]
  refine forall₂_congr fun j hj => ?_
  rw [hnew j hj, hold j (by omega) (.inl (by omega))]

/-- The alerts and the state code written one after the other. -/
theorem setCode_setAlerts {p : Nat} {s : State} (hp : p < s.packs.length) (a : BitVec 32) (c : BitVec 4) :
    (s.setAlerts p a).setCode p c = s.setTel p { s.tel p with state := c, swAlerts := a } := by
  rw [State.setCode, State.tel_setAlerts_self s p a hp, State.setAlerts, State.setTel_setTel]

/-- The verdict `Pass`. -/
theorem diagVerdict_of_pass {p : Nat} {s : State} (code : BitVec 4)
    (h : diagEval s.par.num s.par.ncell s.diagBuf (s.cfg p).diagThreshold = true) :
    diagVerdict p code s = freeDiagBuf { s.setCode p codeConfig with diagLock := none } := by
  replace h : diagEval s.par.num s.par.ncell s.diagBuf (({ s with diagLock := none }).cfg p).diagThreshold = true := h
  simp only [diagVerdict, h, ↓reduceIte]
  rfl

/-- The verdict `Fail`. -/
theorem diagVerdict_of_fail {p : Nat} {s : State} (hp : p < s.packs.length) (code : BitVec 4)
    (h : diagEval s.par.num s.par.ncell s.diagBuf (s.cfg p).diagThreshold ≠ true) :
    diagVerdict p code s = (freeDiagBuf { s.setTel p { s.tel p with
      state := codeError, swAlerts := (s.tel p).swAlerts ||| 0x00004000 } with diagLock := none }).emit
        (.report p code .diagFault) := by
  replace h : ¬diagEval s.par.num s.par.ncell s.diagBuf (({ s with diagLock := none }).cfg p).diagThreshold = true := h
  simp only [diagVerdict, h, Bool.false_eq_true, ↓reduceIte, packFault]
  rw [setCode_setAlerts (s := { s with diagLock := none }) hp]
  rfl

section
variable {p n : Nat} {s : State} {es : List Event} {ds : List Bool} {as : List BusAnswer}

/-- The verdict does not touch what transactions before it left. -/
theorem diagVerdict_served_of_pass (code : BitVec 4)
    (h : diagEval s.par.num s.par.ncell s.diagBuf (s.cfg p).diagThreshold = true) :
    diagVerdict p code (s.served p n es ds as) =
      (freeDiagBuf { s.setCode p codeConfig with diagLock := none }).served p n es ds as :=
  diagVerdict_of_pass (s := s.served p n es ds as) code h

theorem diagVerdict_served_of_fail (hp : p < s.packs.length) (code : BitVec 4)
    (h : diagEval s.par.num s.par.ncell s.diagBuf (s.cfg p).diagThreshold ≠ true) :
    diagVerdict p code (s.served p n es ds as) = (freeDiagBuf { s.setTel p { s.tel p with
      state := codeError, swAlerts := (s.tel p).swAlerts ||| 0x00004000 } with diagLock := none }).served p n
        (es ++ [.report p code .diagFault]) ds as := by
  rw [diagVerdict_of_fail (s := s.served p n es ds as) hp code h, ← State.served_emit]
  rfl

end

section
variable {p : Nat} {s : State} {ds : List Bool} {as : List BusAnswer} {rs : List Resp} {ack : List Byte}

/-- `ST_DIAG2` answered: the verdict is left. -/
theorem stDiag2_of_answers (hready : Ready p s) (hf : Fits s.par.profile.cellBlocks rs) (hack : ack.length = 4)
    (hs : Script (respBytes s.par.crcPoly rs ++ [ack]) ds as s) :
    stDiag2 p s = ⟨.ok (), diagVerdict p (s.tel p).state
      ((storeSamples 2 (cellSamples s p (rs.map Resp.ws).flatten) s).served p (s.par.profile.cellBlocks.length + 1)
        (readEvents s.par.crcPoly p s.par.profile.cellBlocks rs ++
          transaction p (wrFrame s.par.crcPoly s.par.profile.diagClear.addr s.par.profile.diagClear.value) ack)
        ds as)⟩ := by
  obtain ⟨_, _, _, _, hcells, _⟩ := paramsValid_spec hready.params
  have hp := ready_device hready
  have hclear : addressOk s.par.profile.diagClear.addr = true :=
    commandWrite_addressOk hready (by simp [commandWrites])
  obtain ⟨_, _, hs1, hs2⟩ := script_split hs
  simp only [stDiag2, readCells_served hs1 hp hcells hf, Run.andThen_ok, State.served_par, State.served_storeSamples,
    afeWriteReg_served (hs2 (storeSamples 2 _ s) p _ _) hp hclear hack, State.served_served, State.storeSamples_par,
    Run.pure]

end

/-- Settles O27: what the two transactions leave is judged by the deltas to the snapshot just stored. -/
theorem stDiag2Verdict : Obligations.StDiag2Verdict := by
  rintro p s ds as rs ack v tr hready hf hack hs hv rfl
  have hrun := stDiag2_of_answers hready hf hack hs
  rw [← hv] at hrun
  refine ⟨fun hpass => ?_, fun ⟨j, hj, hle⟩ => ?_⟩ <;>
    refine ⟨(List.range (3 * s.par.ncell)).map (Config.freeSample s.env.draws), s.env.draws + 1, by simp, ?_⟩
  · rw [diagVerdict_served_of_pass (s := storeSamples 2 v s) _ (diagEval_writeSamples.2 hpass)] at hrun
    rw [exec_stDiag2, onPack_of_answered hready hrun rfl rfl]
    simp only [List.append_assoc]
    rfl
  · have hfail := mt diagEval_writeSamples.1 fun hall => absurd (hall j hj) (not_lt.2 hle)
    rw [diagVerdict_served_of_fail (s := storeSamples 2 v s) hready.pack _ hfail] at hrun
    rw [exec_stDiag2, onPack_of_answered hready hrun rfl rfl]
    simp only [List.append_assoc]
    rfl

/-! ## The stages of the run body (42_pack_supervisor.md R190) -/

/-- `t` is `s` but for the record of pack `p`, in which the flags and the cell voltages stand as they did. -/
def MeasurementsKept (p : Nat) (s t : State) : Prop :=
  ∃ tel, t = s.setTel p tel ∧ tel.hw = (s.tel p).hw ∧ tel.cellV = (s.tel p).cellV

theorem MeasurementsKept.refl (p : Nat) (s : State) : MeasurementsKept p s s :=
  have hself : s.setTel p (s.tel p) = { s with packs := s.packs.set p (s.pack p) } := rfl
  ⟨s.tel p, by rw [hself, set_pack_self], rfl, rfl⟩

theorem MeasurementsKept.hw {p : Nat} {s t : State} (h : MeasurementsKept p s t) : (t.tel p).hw = (s.tel p).hw := by
  obtain ⟨tel, rfl, hhw, _⟩ := h
  obtain h | h := tel_setTel_cases s p tel <;> rw [h]
  exact hhw

theorem MeasurementsKept.cellV {p : Nat} {s t : State} (h : MeasurementsKept p s t) :
    (t.tel p).cellV = (s.tel p).cellV := by
  obtain ⟨tel, rfl, _, hcell⟩ := h
  obtain h | h := tel_setTel_cases s p tel <;> rw [h]
  exact hcell

theorem MeasurementsKept.trans {p : Nat} {s t u : State} (h1 : MeasurementsKept p s t) (h2 : MeasurementsKept p t u) :
    MeasurementsKept p s u := by
  have hhw := h1.hw
  have hcell := h1.cellV
  obtain ⟨tel1, rfl, _, _⟩ := h1
  obtain ⟨tel2, rfl, hhw2, hcell2⟩ := h2
  exact ⟨tel2, State.setTel_setTel s p tel1 tel2, hhw2.trans hhw, hcell2.trans hcell⟩

theorem setDrive_measurementsKept (p : Nat) (s : State) (d : BitVec 3) : MeasurementsKept p s (s.setDrive p d) :=
  ⟨_, rfl, rfl, rfl⟩

theorem runStages_measurementsKept (p : Nat) (c : Cmd) (s : State) : MeasurementsKept p s (runStages p c s) := by
  have hclear : MeasurementsKept p s (alertClear p c s) := by
    unfold alertClear
    split
    · exact ⟨_, rfl, rfl, rfl⟩
    · exact .refl p s
  have hlimits : MeasurementsKept p _ (limits p (alertClear p c s)) := ⟨_, rfl, rfl, rfl⟩
  have hi2t : MeasurementsKept p _ (i2t p (limits p (alertClear p c s))) := ⟨_, rfl, rfl, rfl⟩
  have halerts : MeasurementsKept p _ (runStages p c s) := ⟨_, rfl, rfl, rfl⟩
  exact ((hclear.trans hlimits).trans hi2t).trans halerts

theorem nextRunState_measurementsKept (p : Nat) (s : State) : MeasurementsKept p s (nextRunState p s) := by
  unfold nextRunState
  split_ifs <;> exact ⟨_, rfl, rfl, rfl⟩

/-- The stages read and write records only: other lines, events and answers make no difference to them. -/
theorem runStages_bus (p : Nat) (c : Cmd) (s : State) (lines : List Bool) (es : List Event) (env : Env) :
    runStages p c { s with sel := lines, trace := s.trace ++ es, env := env } =
      { runStages p c s with sel := lines, trace := (runStages p c s).trace ++ es, env := env } := by
  unfold runStages alertClear
  split <;> rfl

section
variable {p n : Nat} {s : State} {es : List Event} {ds : List Bool} {as : List BusAnswer}

@[simp] theorem runStages_served (c : Cmd) :
    runStages p c (s.served p n es ds as) = (runStages p c s).served p n es ds as := by
  unfold runStages alertClear
  split <;> rfl

@[simp] theorem runDrive_served (c : Cmd) : runDrive p c (s.served p n es ds as) = runDrive p c s := rfl

@[simp] theorem balanceDue_served : balanceDue p (s.served p n es ds as) = balanceDue p s := rfl

@[simp] theorem nextRunState_served :
    nextRunState p (s.served p n es ds as) = (nextRunState p s).served p n es ds as := by
  by_cases hsanity : (s.pack p).sanityTrigger = true
  · simp [nextRunState, hsanity]
  · by_cases hwarn : (s.tel p).swAlerts &&& s.par.warnMask = 0#32 <;> simp [nextRunState, hsanity, hwarn]

end

/-! ## The balancer in the run body (46_diag_balancer.md R285, R286) -/

/-- The write the balancer makes. -/
def balanceWrite (p : Nat) (s : State) : RegWrite :=
  balPack s.par.profile (shuntMask s.par.num s.par.ncell (s.cfg p).balDiff (cellList s p)) s.par.profile.balDuration

@[simp] theorem balanceWrite_served {p n : Nat} {s : State} {es : List Event} {ds : List Bool} {as : List BusAnswer} :
    balanceWrite p (s.served p n es ds as) = balanceWrite p s := rfl

theorem balance_eq (p : Nat) (s : State) : balance p s = (afeWriteReg p (balanceWrite p s) s).andThen fun _ t =>
    Run.pure ((shuntMask s.par.num s.par.ncell (s.cfg p).balDiff (cellList s p)).any id) t := rfl

theorem cellList_eq {p : Nat} {s : State} (h : (s.tel p).cellV.length = s.par.ncell) : cellList s p = (s.tel p).cellV :=
  exactly_of_length 0 h

theorem balanceDue_iff {p : Nat} {s : State} (h : (s.tel p).cellV.length = s.par.ncell) : balanceDue p s = true ↔
    (s.tel p).hw.balElapsed = true ∧ ∃ v ∈ (s.tel p).cellV, (s.cfg p).balStartV ≤ v := by
  simp [balanceDue, cellList_eq h]

theorem balanceIfDue_of_not_due {p : Nat} {s : State} (h : balanceDue p s ≠ true) :
    balanceIfDue p s = ⟨.ok (), s⟩ := by
  simp [balanceIfDue, h, Run.pure]

theorem balanceIfDue_of_due {p : Nat} {s : State} (h : balanceDue p s = true) :
    balanceIfDue p s = (afeWriteReg p (balanceWrite p s) s).andThen fun _ t => Run.pure () t := by
  simp only [balanceIfDue, h, ↓reduceIte, balance_eq]
  rcases afeWriteReg p (balanceWrite p s) s with ⟨_ | _, _⟩ <;> rfl

/-! ## The run body under a script -/

theorem exec_of_run_state {p : Nat} {c : Cmd} {i : Instr} (s : State)
    (hi : i ∈ [Instr.runBody p c, .stRun p c, .stRunwarning p c, .stSanitycheck p c]) :
    exec i s = onPack p s ((runBody p c s).finished p (s.tel p).state fun _ => .done) := by
  simp only [List.mem_cons, List.not_mem_nil, or_false] at hi
  obtain rfl | rfl | rfl | rfl := hi <;> rfl

/-- An operation of a pack that may run, when its run fails. -/
theorem onPack_of_err {α : Type} {p : Nat} {s t : State} {r : Run α} {k : ErrKind} (hready : Ready p s) (c : BitVec 4)
    (f : α → OpResult) (h : r = ⟨.err k, t⟩) : onPack p s (r.finished p c f) = .next (aborted p c k t) := by
  rw [onPack_ready hready, h]
  rfl

/-- A failing telemetry burst ends the telemetry read. -/
theorem readTelemetry_fails {p : Nat} {s : State} {ds : List Bool} {as : List BusAnswer} {good rest : List Burst}
    {b : Burst} {gs : List Resp} {k : ErrKind} (hready : Ready p s) (hb : s.par.profile.telemBlocks = good ++ b :: rest)
    (hf : Fits good gs) (hs : Script (respBytes s.par.crcPoly gs) ds as s)
    (hfail : NextFails true (2 * b.count + 3)
      (s.served p good.length (readEvents s.par.crcPoly p good gs) ds as) k) :
    ∃ t, AfterFailure p (rdFrame b.addr b.count)
        (s.served p good.length (readEvents s.par.crcPoly p good gs) ds as) t ∧
      readTelemetry p s = ⟨.err k, t⟩ := by
  obtain ⟨_, _, _, _, _, hvalid, _⟩ := paramsValid_spec hready.params
  have hp := ready_device hready
  simp only [hb, List.all_append, List.all_cons, burstValid, Bool.and_eq_true] at hvalid
  obtain ⟨hgood, ⟨haddr, hcount⟩, _⟩ := hvalid
  obtain ⟨t, ht, hread⟩ := afeRead_fails (s := s.served p _ _ ds as) hp haddr hcount hfail
  refine ⟨t, ht, ?_⟩
  have hblocks : readBlocks p good s =
      ⟨.ok (gs.map Resp.ws), s.served p good.length (readEvents s.par.crcPoly p good gs) ds as⟩ :=
    readBlocks_scripted hp (by simpa [burstValid] using hgood) hf hs
  simp only [readTelemetry, hb, readBlocks_append, hblocks, Run.andThen_ok, readBlocks, hread, Run.andThen_err]

section
variable {p : Nat} {c : Cmd} {s s2 : State} {d : BitVec 3} {ds : List Bool} {as : List BusAnswer} {rs : List Resp}
  {ack : List Byte}

/-- The run body once the telemetry is read: the record is committed, the stages have run, the drive write is next. -/
theorem runBody_of_telemetry (hready : Ready p s) (hf : Fits s.par.profile.telemBlocks rs)
    (h2 : s2 = runStages p c (s.setTel p (commitTelemetry s.par (s.cfg p) (rs.map Resp.ws) (s.tel p))))
    (hd : d = runDrive p c s2) (hs : Script (respBytes s.par.crcPoly rs) ds as s) :
    runBody p c s = (afeWrite p s2.par.profile.mosfetCtrlAddr (driveWord d) (s2.served p
        s.par.profile.telemBlocks.length (readEvents s.par.crcPoly p s.par.profile.telemBlocks rs) ds as)).andThen
      fun _ s3 => (balanceIfDue p (s3.setDrive p d)).andThen fun _ s4 => Run.pure () (nextRunState p s4) := by
  obtain ⟨_, _, _, _, _, hblocks, _⟩ := paramsValid_spec hready.params
  subst h2 hd
  simp only [runBody, readTelemetry_served hs (ready_device hready) hblocks hf, Run.andThen_ok, runStages_served,
    runDrive_served, State.served_par]

/-- The stages write the record of pack `p`, and leave the measurements just committed. -/
theorem stages_spec (h2 : s2 = runStages p c (s.setTel p (commitTelemetry s.par (s.cfg p) (rs.map Resp.ws) (s.tel p))))
    (hp : p < s.packs.length) : (∃ tel, s2 = s.setTel p tel) ∧ (s2.tel p).cellV.length = s.par.ncell := by
  have hkept := runStages_measurementsKept p c
    (s.setTel p (commitTelemetry s.par (s.cfg p) (rs.map Resp.ws) (s.tel p)))
  rw [← h2] at hkept
  have hcell := hkept.cellV
  rw [State.tel_setTel_self s p _ hp] at hcell
  obtain ⟨tel, htel, _⟩ := hkept
  exact ⟨⟨tel, htel.trans (State.setTel_setTel ..)⟩, by simp [hcell, commitTelemetry]⟩

/-- The run body once the drive write is acknowledged: the new drive is recorded, the balancer is next. -/
theorem runBody_of_drive (hready : Ready p s) (hf : Fits s.par.profile.telemBlocks rs)
    (h2 : s2 = runStages p c (s.setTel p (commitTelemetry s.par (s.cfg p) (rs.map Resp.ws) (s.tel p))))
    (hd : d = runDrive p c s2) (hack : ack.length = 4) (hs : Script (respBytes s.par.crcPoly rs ++ [ack]) ds as s) :
    runBody p c s = (balanceIfDue p ((s2.setDrive p d).served p (s.par.profile.telemBlocks.length + 1)
        (readEvents s.par.crcPoly p s.par.profile.telemBlocks rs ++
          transaction p (wrFrame s.par.crcPoly s.par.profile.mosfetCtrlAddr (driveWord d)) ack) ds as)).andThen
      fun _ s4 => Run.pure () (nextRunState p s4) := by
  obtain ⟨_, _, hmosfet, _⟩ := paramsValid_spec hready.params
  obtain ⟨_, _, hs1, hs2⟩ := script_split hs
  obtain ⟨⟨tel, htel⟩, _⟩ := stages_spec h2 hready.pack
  have hpar : s2.par = s.par := by rw [htel, State.setTel_par]
  simp only [runBody_of_telemetry hready hf h2 hd hs1, hpar,
    afeWrite_served (hs2 s2 p _ _) (by simpa [hpar] using ready_device hready) hmosfet hack, Run.andThen_ok,
    State.served_served, State.served_setDrive, State.served_par]

/-- The run body once the drive write is acknowledged and the balancer is due: its write is next, and last. -/
theorem runBody_of_due (hready : Ready p s) (hf : Fits s.par.profile.telemBlocks rs)
    (h2 : s2 = runStages p c (s.setTel p (commitTelemetry s.par (s.cfg p) (rs.map Resp.ws) (s.tel p))))
    (hd : d = runDrive p c s2) (hdue : balanceDue p (s2.setDrive p d) = true) (hack : ack.length = 4)
    (hs : Script (respBytes s.par.crcPoly rs ++ [ack]) ds as s) :
    runBody p c s = (afeWriteReg p (balanceWrite p (s2.setDrive p d)) ((s2.setDrive p d).served p
        (s.par.profile.telemBlocks.length + 1) (readEvents s.par.crcPoly p s.par.profile.telemBlocks rs ++
          transaction p (wrFrame s.par.crcPoly s.par.profile.mosfetCtrlAddr (driveWord d)) ack) ds as)).andThen
      fun _ s4 => Run.pure () (nextRunState p s4) := by
  rw [runBody_of_drive hready hf h2 hd hack hs,
    balanceIfDue_of_due (s := (s2.setDrive p d).served p _ _ ds as) hdue, balanceWrite_served]
  rcases afeWriteReg p (balanceWrite p (s2.setDrive p d)) _ with ⟨_ | _, _⟩ <;> rfl

end

/-- The arbiter's operands are the records as the stages left them, and inputs no stage writes. -/
theorem runDrive_of_setTel {p : Nat} {c : Cmd} {s s2 : State} {tel : Telemetry} (h : s2 = s.setTel p tel) :
    runDrive p c s2 = arbiter s.par.num (s2.tel p).swAlerts (s2.tel p).hw c (s2.tel p).voltage s.vbus
      (s.cfg p).prechgTol := by
  rw [h, runDrive, State.cfg_setTel]
  rfl

/-- The balancer's write, in the terms of the record as it stands. -/
theorem balanceWrite_of_setTel {p : Nat} {s s3 : State} {tel : Telemetry} (h : s3 = s.setTel p tel)
    (hlen : (s3.tel p).cellV.length = s.par.ncell) : balanceWrite p s3 = balPack s.par.profile
      (shuntMask s.par.num s.par.ncell (s.cfg p).balDiff (s3.tel p).cellV) s.par.profile.balDuration := by
  have hpar : s3.par = s.par := by rw [h, State.setTel_par]
  have hcfg : s3.cfg p = s.cfg p := by rw [h, State.cfg_setTel]
  rw [balanceWrite, cellList_eq (hpar ▸ hlen), hpar, hcfg]

/-- When the balancer is due, in the terms of the record as it stands. -/
theorem balanceDue_of_setTel {p : Nat} {s s3 : State} {tel : Telemetry} (h : s3 = s.setTel p tel)
    (hlen : (s3.tel p).cellV.length = s.par.ncell) : balanceDue p s3 = true ↔
      (s3.tel p).hw.balElapsed = true ∧ ∃ v ∈ (s3.tel p).cellV, (s.cfg p).balStartV ≤ v := by
  have hpar : s3.par = s.par := by rw [h, State.setTel_par]
  have hcfg : s3.cfg p = s.cfg p := by rw [h, State.cfg_setTel]
  rw [balanceDue_iff (hpar ▸ hlen), hcfg]

/-- The drive recorded after the stages. -/
theorem driven_spec {p : Nat} {s s2 : State} {tel : Telemetry} (htel : s2 = s.setTel p tel)
    (hlen : (s2.tel p).cellV.length = s.par.ncell) (d : BitVec 3) :
    (∃ tel3, s2.setDrive p d = s.setTel p tel3) ∧ ((s2.setDrive p d).tel p).cellV.length = s.par.ncell := by
  refine ⟨⟨{ s2.tel p with mosfetDrive := d }, ?_⟩, ?_⟩
  · rw [State.setDrive, htel, State.setTel_setTel]
  · rw [(setDrive_measurementsKept p s2 d).cellV, hlen]

/-- Settles O29: telemetry and the drive write are answered, then the balancer is due or it is not. -/
theorem runBodyCompletes : Obligations.RunBodyCompletes := by
  rintro p c i s s1 s2 s3 ds as rs ack d hi hready hf hack rfl h2 hd h3
  obtain ⟨⟨tel2, htel2⟩, hlen2⟩ := stages_spec h2 hready.pack
  have hdrive : d = runDrive p c s2 := hd.trans (runDrive_of_setTel htel2).symm
  obtain ⟨⟨tel3, htel3⟩, hlen3⟩ := driven_spec htel2 hlen2 d
  rw [← h3] at htel3 hlen3
  have hdue := balanceDue_of_setTel htel3 hlen3
  obtain ⟨tel4, hnext, _⟩ := nextRunState_measurementsKept p s3
  replace hnext : nextRunState p s3 = s.setTel p tel4 := by rw [hnext, htel3, State.setTel_setTel]
  have hpar : (nextRunState p s3).par = s.par := by rw [hnext, State.setTel_par]
  have htrace : (nextRunState p s3).trace = s.trace := by rw [hnext, State.setTel_trace]
  have henv : (nextRunState p s3).env = s.env := by rw [hnext, State.setTel_env]
  rw [exec_of_run_state s hi]
  refine ⟨fun hnot hs => ?_, fun helapsed hcell ack2 w hack2 hs hw => ?_⟩
  · have hrun := runBody_of_drive hready hf h2 hdrive hack hs
    rw [← h3, balanceIfDue_of_not_due (by rw [balanceDue_served]; exact mt hdue.1 hnot), Run.andThen_ok,
      nextRunState_served, Run.pure] at hrun
    rw [onPack_of_served hready hrun hpar htrace henv, List.append_assoc]
    rfl
  · obtain ⟨_, _, hs1, hs2⟩ := script_split (xs := _ ++ [ack]) (ys := [ack2]) (by simpa using hs)
    obtain ⟨_, _, _, _, _, _, hbal⟩ := paramsValid_spec hready.params
    have hp := ready_device hready
    have hrun := runBody_of_due hready hf h2 hdrive (h3 ▸ hdue.2 ⟨helapsed, hcell⟩) hack hs1
    rw [← h3, balanceWrite_of_setTel htel3 hlen3, ← hw, afeWriteReg_served (hs2 s3 p _ _)
      (by rw [htel3]; exact hp) (hw ▸ hbal _ _) hack2, Run.andThen_ok, State.served_served,
      nextRunState_served, Run.pure] at hrun
    rw [onPack_of_served hready hrun hpar htrace henv]
    simp only [State.served_par, htel3, State.setTel_par, List.append_assoc]
    rfl

/-! ## The run body that aborts (42_pack_supervisor.md R190; 60_exceptions.md R310) -/

/-! Transactions before the writes of the run body make no difference to them. -/

theorem setTel_busOnly {s t : State} (h : BusOnly s t) (p : Nat) (tel : Telemetry) :
    BusOnly (s.setTel p tel) (t.setTel p tel) := by
  obtain ⟨lines, es, env, rfl⟩ := h
  exact ⟨lines, es, env, rfl⟩

theorem setDrive_busOnly {s t : State} (h : BusOnly s t) (p : Nat) (d : BitVec 3) :
    BusOnly (s.setDrive p d) (t.setDrive p d) := by
  obtain ⟨lines, es, env, rfl⟩ := h
  exact ⟨lines, es, env, rfl⟩

theorem runStages_busOnly {s t : State} (h : BusOnly s t) (p : Nat) (c : Cmd) :
    BusOnly (runStages p c s) (runStages p c t) := by
  obtain ⟨lines, es, env, rfl⟩ := h
  exact ⟨lines, es, env, runStages_bus p c s lines es env⟩

theorem runDrive_of_busOnly {s t : State} (h : BusOnly s t) (p : Nat) (c : Cmd) : runDrive p c t = runDrive p c s := by
  obtain ⟨lines, es, env, rfl⟩ := h
  rfl

/-- The two writes of the run body: a failed drive write leaves the records, a failed balancer's write the new drive. -/
theorem runWrites_err_packs {p a : Nat} {x : Word} {d : BitVec 3} {s : State} {r : Run Unit} {k : ErrKind}
    (hr : r = (afeWrite p a x s).andThen fun _ s3 =>
      (balanceIfDue p (s3.setDrive p d)).andThen fun _ s4 => Run.pure () (nextRunState p s4))
    (h : r.reply = .err k) : r.state.packs = s.packs ∨ r.state.packs = (s.setDrive p d).packs := by
  have hdrive := (afeWrite_busOf p a x s).only
  subst hr
  rcases hwrite : afeWrite p a x s with ⟨_ | j, s3⟩ <;> rw [hwrite] at h hdrive
  · have hbal := (setDrive_busOnly hdrive p d).trans (balanceIfDue_busOf p (s3.setDrive p d)).only
    rw [Run.andThen_ok] at h ⊢
    rcases hdue : balanceIfDue p (s3.setDrive p d) with ⟨_ | j, s4⟩ <;> rw [hdue] at h hbal
    · cases h
    · exact .inr hbal.packs
  · exact .inl hdrive.packs

/-- A failed run body leaves the records as they were, or it failed in one of its writes, after the stages. -/
theorem runBody_err_packs {p : Nat} {c : Cmd} {s : State} {k : ErrKind} (h : (runBody p c s).reply = .err k) :
    (runBody p c s).state.packs = s.packs ∨
    ∃ blocks s2, blocks.map List.length = s.par.profile.telemBlocks.map Burst.count ∧
      s2 = runStages p c (s.setTel p (commitTelemetry s.par (s.cfg p) blocks (s.tel p))) ∧
      ((runBody p c s).state.packs = s2.packs ∨
        (runBody p c s).state.packs = (s2.setDrive p (runDrive p c s2)).packs) := by
  have htelem := readTel_cases p s
  rcases hread : readTelemetry p s with ⟨_ | j, s1⟩ <;> rw [hread] at htelem
  · obtain ⟨_, blocks, hlen, _, u, hu, hs1⟩ | ⟨⟨j, herr⟩, _⟩ := htelem
    · refine .inr ⟨blocks, _, hlen, rfl, ?_⟩
      have hstages := runStages_busOnly (setTel_busOnly hu p (commitTelemetry s.par (s.cfg p) blocks (s.tel p))) p c
      have hpacks := runWrites_err_packs (r := runBody p c s) (by rw [runBody, hread]; rfl) h
      rw [show s1 = _ from hs1] at hpacks
      rwa [hstages.packs, (setDrive_busOnly hstages p _).packs, runDrive_of_busOnly hstages] at hpacks
    · cases herr
  · obtain ⟨hok, _⟩ | ⟨_, hpacks⟩ := htelem
    · cases hok
    · exact .inl (by rw [runBody, hread]; exact hpacks)

/-- Settles O30: each place where a transaction of the run body can fail, and then all of them at once. -/
theorem runBodyAborts : Obligations.RunBodyAborts := by
  intro p c i s k hi
  rw [exec_of_run_state s hi]
  refine ⟨?burst, ?writes, ?records⟩
  case burst =>
    rintro good b rest gs ds as u hready hb hf hs rfl hfail
    obtain ⟨t, ht, hread⟩ := readTelemetry_fails hready hb hf hs hfail
    exact ⟨t, ht, onPack_of_err hready _ _ (by rw [runBody, hread, Run.andThen_err])⟩
  case writes =>
    rintro rs s1 s2 d tr hready hf rfl h2 hd rfl
    obtain ⟨_, _, hmosfet, _, _, _, hbal⟩ := paramsValid_spec hready.params
    have hp := ready_device hready
    obtain ⟨⟨tel2, htel2⟩, hlen2⟩ := stages_spec h2 hready.pack
    have hdrive : d = runDrive p c s2 := hd.trans (runDrive_of_setTel htel2).symm
    have hpar2 : s2.par = s.par := by rw [htel2, State.setTel_par]
    refine ⟨fun ds as u hs hu hfail => ?_, fun ack ds as u w hack hs helapsed hcell hw hu hfail => ?_⟩
    · obtain rfl : u = s2.served p s.par.profile.telemBlocks.length
          (readEvents s.par.crcPoly p s.par.profile.telemBlocks rs) ds as := by rw [hu, htel2]; rfl
      obtain ⟨t, ht, hwrite⟩ := afeWrite_fails (p := p) (a := s.par.profile.mosfetCtrlAddr) (v := driveWord d)
        (by rwa [State.served_par, hpar2]) hmosfet hfail
      refine ⟨t, by rwa [State.served_par, hpar2] at ht, onPack_of_err hready _ _ ?_⟩
      rw [runBody_of_telemetry hready hf h2 hdrive hs, hpar2, hwrite, Run.andThen_err]
    · obtain ⟨⟨tel3, htel3⟩, hlen3⟩ := driven_spec htel2 hlen2 d
      have hkept := setDrive_measurementsKept p s2 d
      have hdue := (balanceDue_of_setTel htel3 hlen3).2 (by rw [hkept.hw, hkept.cellV]; exact ⟨helapsed, hcell⟩)
      have hlegal : addressOk w.addr = true := hw ▸ hbal _ _
      rw [← hkept.cellV, ← balanceWrite_of_setTel htel3 hlen3] at hw
      obtain rfl : u = (s2.setDrive p d).served p (s.par.profile.telemBlocks.length + 1)
          (readEvents s.par.crcPoly p s.par.profile.telemBlocks rs ++
            transaction p (wrFrame s.par.crcPoly s.par.profile.mosfetCtrlAddr (driveWord d)) ack) ds as := by
        rw [hu, htel2, List.append_assoc]; rfl
      obtain ⟨t, ht, hwrite⟩ := afeWrite_fails (p := p) (a := w.addr) (v := w.value)
        (by rwa [State.served_par, State.setDrive_par, hpar2]) hlegal hfail
      refine ⟨t, by rwa [State.served_par, State.setDrive_par, hpar2] at ht, onPack_of_err hready _ _ ?_⟩
      rw [runBody_of_due hready hf h2 hdrive hdue hack hs, ← hw, afeWriteReg, hwrite, Run.andThen_err]
  case records =>
    intro t ht hres
    obtain ⟨rfl, _⟩ := onPack_next ht
    rw [Run.finished_packs]
    refine runBody_err_packs (k := k) ?_
    rcases hrun : runBody p c s with ⟨_ | j, u⟩
    · simp [hrun, State.setResult] at hres
    · simpa [hrun, Run.finished, takeAbort] using hres

/-! ## The states without bus activity (42_pack_supervisor.md R172, R176, R178, R180, R185, R191) -/

theorem exec_stDisabled {p : Nat} {s : State} (hp : p < s.packs.length) : exec (.stDisabled p) s = .next s := by
  simp [exec, execStDisabled, onSlot, hp]

theorem exec_stWaitdiag0 (p : Nat) (s : State) :
    exec (.stWaitdiag0 p) s = onPack p s ((stWaitdiag0 p s).setResult .done) := rfl

theorem exec_stWaitdiag1 {p : Nat} {s : State} (hready : Ready p s) :
    exec (.stWaitdiag1 p) s = .next { s.setCode p codeDiag1 with result := .done } :=
  onPack_ready hready _

theorem exec_stWaitdiag2 {p : Nat} {s : State} (hready : Ready p s) :
    exec (.stWaitdiag2 p) s = .next { s.setCode p codeDiag2 with result := .done } :=
  onPack_ready hready _

theorem exec_stError (p : Nat) (c : Cmd) (s : State) :
    exec (.stError p c) s = onPack p s ((stError p c s).setResult .done) := rfl

theorem exec_nextRunState (p : Nat) (s : State) :
    exec (.nextRunState p) s = onPack p s ((nextRunState p s).setResult .done) := rfl

/-- At a disabled pack the sequencer goes on. -/
theorem passAt_disabled {p : Nat} {s : State} (hp : p < s.packs.length) (hn : p < s.par.npack)
    (hgo : ¬(0 < p ∧ s.shutdown = true)) (hcode : (s.tel p).state = codeDisabled) :
    passAt p s = .next { s with cur := some (p + 1) } := by
  rw [passAt, if_neg (Nat.not_le.2 hn), if_neg hgo, if_neg (Nat.not_le.2 hp), if_pos hcode]

/-- At any other pack it runs the pack step and goes on. -/
theorem passAt_enabled {p : Nat} {s : State} (hp : p < s.packs.length) (hn : p < s.par.npack)
    (hgo : ¬(0 < p ∧ s.shutdown = true)) (hcode : (s.tel p).state ≠ codeDisabled) :
    passAt p s = advance p (exec (.packStep p) s) := by
  rw [passAt, if_neg (Nat.not_le.2 hn), if_neg hgo, if_neg (Nat.not_le.2 hp), if_neg hcode]
  rfl

/-- Settles O19: neither the operation nor the sequencer looks at more than the index and the code. -/
theorem stDisabledDoesNothing : Obligations.StDisabledDoesNothing := fun _ _ hp =>
  ⟨exec_stDisabled hp, passAt_disabled hp⟩

/-- Settles O24, by the lock and by the reset request. -/
theorem silentStates : Obligations.SilentStates := by
  intro p c s hready
  refine ⟨fun hfree => ?_, fun owner hheld => ?_, exec_stWaitdiag2 hready, fun hreset => ?_, fun hstay => ?_⟩
  · obtain ⟨_, h⟩ | ⟨hheld, _⟩ := stWaitdiag0_cases p s
    · rw [exec_stWaitdiag0, onPack_ready hready, h]
      rfl
    · exact absurd hfree hheld
  · obtain ⟨hfree, _⟩ | ⟨_, h⟩ := stWaitdiag0_cases p s
    · rw [hheld] at hfree
      cases hfree
    · rw [exec_stWaitdiag0, onPack_ready hready, h]
      rfl
  · rw [exec_stError, onPack_ready hready, stError, if_pos hreset, setCode_setAlerts hready.pack]
    rfl
  · rw [exec_stError, onPack_ready hready, stError, if_neg (by simp [hstay])]
    rfl

/-- Settles O25: the state operation is the one write. -/
theorem stWaitdiag1Settles : Obligations.StWaitdiag1Settles := fun _ _ => exec_stWaitdiag1

/-- Settles O31: one meaning under three names. -/
theorem runStatesShareTheBody : Obligations.RunStatesShareTheBody := fun p c s =>
  have hbody := exec_of_run_state (p := p) (c := c) (i := .runBody p c) s (by simp)
  ⟨(exec_of_run_state (p := p) (c := c) s (by simp)).trans hbody.symm,
    (exec_of_run_state (p := p) (c := c) s (by simp)).trans hbody.symm⟩

/-- Settles O32, by the trigger and then by the alerts under the mask. -/
theorem nextRunStateRule : Obligations.NextRunStateRule := by
  intro p s hready
  rw [exec_nextRunState, onPack_ready hready]
  refine ⟨fun hsanity => ?_, fun hno hwarn => ?_, fun hno hclear => ?_⟩
  · rw [nextRunState, if_pos hsanity]
    rfl
  · rw [nextRunState, if_neg (by simp [hno]), if_pos hwarn]
    rfl
  · rw [nextRunState, if_neg (by simp [hno]), if_neg (not_not.2 hclear)]
    rfl

/-! ## The pack step (42_pack_supervisor.md R171) -/

/-- `PACK_STEP` is the operation its state code selects. -/
theorem packStep_of_decodeState {p : Nat} {s : State} {i : Instr} (hp : p < s.packs.length)
    (h : decodeState p (s.cmd p) (s.tel p).state = .ok i) : exec (.packStep p) s = exec i s := by
  unfold decodeState at h
  simp only [exec, execPackStep, Nat.not_le.2 hp, ↓reduceIte]
  split at h <;> cases h <;> simp only [*]

/-- `PACK_STEP` refuses a reserved code (30_encoding.md R104). -/
theorem packStep_of_reserved {p : Nat} {s : State} (hp : p < s.packs.length) (h : 14 ≤ (s.tel p).state.toNat) :
    exec (.packStep p) s = .refused (.reservedState (s.tel p).state) := by
  simp only [exec, execPackStep, Nat.not_le.2 hp, ↓reduceIte]
  split
  case h_15 => rfl
  all_goals omega

/-- Every code up to 13 selects an operation. -/
theorem decodeState_of_le {code : BitVec 4} (p : Nat) (c : Cmd) (h : code.toNat ≤ 13) :
    ∃ i, decodeState p c code = .ok i := by
  unfold decodeState
  generalize code.toNat = n at h
  interval_cases n <;> exact ⟨_, rfl⟩

/-- On a pack that may run, a pack step from a legal state code ends in a next state. -/
theorem packStep_ends {p : Nat} {s : State} (hp : p < s.packs.length) (hcode : (s.tel p).state.toNat ≤ 13)
    (hready : (s.tel p).state ≠ codeDisabled → Ready p s) : ∃ t, exec (.packStep p) s = .next t := by
  obtain ⟨i, hi⟩ := decodeState_of_le p (s.cmd p) hcode
  have hop := decodeState_mem hi
  rw [packStep_of_decodeState hp hi]
  by_cases hdisabled : i = .stDisabled p
  · exact ⟨s, by rw [hdisabled, exec_stDisabled hp]⟩
  · have hr := hready fun hzero => hdisabled (by rw [hzero] at hi; cases hi; rfl)
    obtain ⟨t, ht⟩ := exec_eq_onPack (List.mem_of_mem_tail hop) (by rintro rfl; simp [packOps] at hop) hdisabled s
    exact ⟨t, ht.trans (onPack_ready hr t)⟩

/-- Settles O33: `PACK_STEP` and the decoder match on the same code. -/
theorem packStepDispatch : Obligations.PackStepDispatch := fun p s hp =>
  ⟨fun _ => packStep_of_decodeState hp, packStep_of_reserved hp,
    fun hready hcode =>
      (packStep_of_decodeState hp (by rw [hcode]; rfl)).trans (exec_stWaitdiag1 hready),
    fun hready hcode => packStep_ends hp hcode fun _ => hready⟩

/-! ## One step -/

/-- Settles O43: a pending request first, else the environment's move and the pack step. -/
theorem stepRunsDecoded : Obligations.StepRunsDecoded := by
  intro s hv
  refine ⟨fun r i hr hi => ?_, fun r e hr he => ?_, fun p i u hr hu hcur hn hp hgo hcode hi => ?_⟩
  · simp [step, hv, hr, runRequest, hi]
  · simp [step, hv, hr, runRequest, he]
  · have hstep : step s = advance p (exec i u) := by
      rw [step_of_no_request hv hr, ← hu, passStep_within hcur, passAt_enabled hp hn hgo hcode,
        packStep_of_decodeState hp hi]
    exact ⟨hstep, fun t ht => by rw [hstep, ht, advance]⟩

/-! ## The pass (42_pack_supervisor.md R170) -/

/-- The environment writes no configuration (60_exceptions.md R320). -/
theorem applyWrite_cfg (s : State) (w : EnvWrite) (q : Nat) : (applyWrite s w).cfg q = s.cfg q := by
  have hmodify (p : Nat) {f : Pack → Pack} (hf : ∀ k, (f k).cfg = k.cfg) :
      ((s.packs.modify p f).getD q default).cfg = (s.packs.getD q default).cfg := by
    simp only [List.getD_eq_getElem?_getD, List.getElem?_modify]
    cases s.packs[q]? with
    | none => rfl
    | some k => by_cases h : p = q <;> simp [h, hf]
  cases w with
  | cmd p c => exact hmodify p fun _ => rfl
  | shutdown b => rfl
  | vbus v => rfl
  | sanity p b => exact hmodify p fun _ => rfl

theorem applyMove_cfg (s : State) (m : List EnvWrite) (q : Nat) : (applyMove s m).cfg q = s.cfg q := by
  induction m generalizing s with
  | nil => rfl
  | cons w m ih => exact (ih (applyWrite s w)).trans (applyWrite_cfg s w q)

theorem envMove_cfg (s : State) (q : Nat) : (envMove s).cfg q = s.cfg q := by
  unfold envMove
  split
  · exact applyMove_cfg _ _ q
  · exact applyMove_cfg s.draw _ q

theorem envMove_configsValid {s : State} (h : ConfigsValid s) : ConfigsValid (envMove s) := by
  have hmove := envMove_inputsOnly s
  intro q hq hcode
  rw [hmove.tel] at hcode
  rw [envMove_cfg, hmove.par]
  exact h q (hmove.length ▸ hq) hcode

theorem Run.finished_cfg {α : Type} (r : Run α) (p q : Nat) (c : BitVec 4) (f : α → OpResult) :
    (r.finished p c f).cfg q = r.state.cfg q := by
  rcases r with ⟨a | k, s⟩ <;> rfl

/-- A pack step of an enabled pack leaves configurations valid where they are looked at. -/
theorem packStep_configsValid {p : Nat} {s t : State} (hcode : (s.tel p).state ≠ codeDisabled)
    (h : exec (.packStep p) s = .next t) (hs : ConfigsValid s) : ConfigsValid t := by
  have hpar := (packStep_sameSetting h).par
  obtain rfl | ⟨r, hr, rfl⟩ := packStep_stateOp h
  · exact hs
  intro q hq hlooked
  rw [Run.finished_packs, hr.serves.length] at hq
  rw [Run.finished_cfg, hr.serves.cfg, hpar]
  refine hs q hq ?_
  by_cases hqp : q = p
  · rwa [hqp]
  · rwa [Run.finished_tel, State.tel, hr.serves.other q hqp] at hlooked

theorem passBegin_configsValid {s : State} (hs : ConfigsValid s) : ConfigsValid (passBegin s) := by
  unfold passBegin
  split_ifs <;> exact hs

theorem passAt_configsValid {p : Nat} {s t : State} (h : passAt p s = .next t) (hs : ConfigsValid s) :
    ConfigsValid t := by
  obtain ⟨_, rfl⟩ | ⟨_, _, rfl⟩ | ⟨_, rfl⟩ | ⟨hcode, u, hu, rfl⟩ := passAt_next h
  · exact hs
  · exact hs
  · exact hs
  · have hvalid : ConfigsValid u := packStep_configsValid hcode hu hs
    exact hvalid

/-- A pack whose configuration is looked at may run. -/
theorem ready_of_enabled {p : Nat} {s : State} (hs : StateWf s) (hc : ConfigsValid s) (hp : p < s.packs.length)
    (hcode : (s.tel p).state ≠ codeDisabled) : Ready p s :=
  ⟨hs.params, hs.count, hp, hc p hp hcode⟩

/-- A sequencer step of a pass never stops: the pass ends, or goes on to the next pack. -/
theorem passAt_ends {p : Nat} {s : State} (hs : StateWf s) (hc : ConfigsValid s) :
    ∃ t, passAt p s = .next t ∧ (t.cur = none ∨ t.cur = some (p + 1)) := by
  by_cases hn : s.par.npack ≤ p
  · exact ⟨_, passAt_end hn, .inl rfl⟩
  replace hn : p < s.par.npack := Nat.not_le.1 hn
  by_cases hstop : 0 < p ∧ s.shutdown = true
  · exact ⟨_, passAt_shutdown hn hstop.1 hstop.2, .inl rfl⟩
  have hp : p < s.packs.length := hs.count ▸ hn
  by_cases hcode : (s.tel p).state = codeDisabled
  · exact ⟨_, passAt_disabled hp hn hstop hcode, .inr rfl⟩
  · obtain ⟨u, hu⟩ := packStep_ends hp (hs.tel p hp).code (ready_of_enabled hs hc hp)
    exact ⟨{ u with cur := some (p + 1) }, by rw [passAt_enabled hp hn hstop hcode, hu, advance], .inr rfl⟩

/-- The rest of a pass under way at pack `p` takes at most the steps of the packs left and its end. -/
theorem passLoop_ends {n p : Nat} {s : State} (hs : StateWf s) (hc : ConfigsValid s) (hcur : s.cur = some p)
    (hn : s.par.npack + 1 ≤ p + n) : ∃ t, passLoop n s = .next t ∧ StateWf t ∧ t.cur = none := by
  induction n generalizing s p with
  | zero =>
    have := hs.cur p hcur
    omega
  | succ n ih =>
    have hmove := envMove_inputsOnly s
    have hs' := envMove_stateWf hs
    have hc' := envMove_configsValid hc
    have hcur' : (envMove s).cur = some p := hmove.cur.trans hcur
    obtain ⟨t, ht, hend⟩ := passAt_ends (p := p) hs' hc'
    have hts := passAt_stateWf hs' hcur' ht
    have hloop : passLoop (n + 1) s = if t.cur.isNone then .next t else passLoop n t := by
      simp only [passLoop, passStep_within hcur', ht]
    obtain hnone | hnext := hend
    · exact ⟨t, by simp [hloop, hnone], hts, hnone⟩
    · have hpar : t.par = s.par := (passAt_sameSetting ht).par.trans hmove.par
      obtain ⟨w, hw, hws, hwcur⟩ := ih hts (passAt_configsValid ht hc') hnext (by rw [hpar]; omega)
      exact ⟨w, by simp [hloop, hnext, hw], hws, hwcur⟩

/-- `PASS` between passes: nothing begun, or the loop of the pass. -/
theorem pass_of_idle {s : State} (hv : paramsValid s.par = true) (hcur : s.cur = none) : exec .pass s =
    if (passBegin s).cur.isNone then .next (passBegin s) else passLoop (s.par.npack + 1) (passBegin s) := by
  simp [exec, execPass, hcur, hv]

/-- Settles O41: a pass that begins is at pack 0, and its loop ends within its bound. -/
theorem passCompletes : Obligations.PassCompletes := by
  intro s hs hc
  have hpass := pass_of_idle hs.params
  refine ⟨fun hbusy => ?_, fun hcur hh => ?_, fun hcur hh hd => ?_, fun hcur => ?_⟩
  · simp [exec, execPass, Option.isSome_iff_ne_none.2 hbusy]
  · simp [hpass hcur, passBegin_of_halted hh, hcur]
  · simp [hpass hcur, passBegin_of_shutdown hh hd, hcur]
  · have hbegin := passBegin_stateWf hs hcur
    rcases hat : (passBegin s).cur with _ | p
    · refine ⟨passBegin s, by simp [hpass hcur, hat], hat, ?_⟩
      rw [hbegin.sync, hat]
      rfl
    · obtain ⟨t, ht, hts, htcur⟩ := passLoop_ends hbegin (passBegin_configsValid hc) hat (n := s.par.npack + 1)
        (by rw [(passBegin_sameSetting s).par]; omega)
      refine ⟨t, by simp [hpass hcur, hat, ht], htcur, ?_⟩
      rw [hts.sync, htcur]
      rfl

end Sys2Proof.Machine

/-! SUPPORT. The extremes and the table index as order facts, what a valid configuration says of its ceilings and its table,
and the two units of the thermal model; with the statements of 43_limits_thermal.md they settle. -/

namespace Sys2Proof.Machine

open Sys2Proof.Safety

/-! ## The extremes (43_limits_thermal.md R222) -/

theorem qMin_eq_min (a b : Q) : qMin a b = min a b := (min_def a b).symm

theorem qMax_eq_max (a b : Q) : qMax a b = max a b := (max_def a b).symm

theorem fourMin_eq (f : Four Q) : fourMin f = min (min f.t0 f.t1) (min f.t2 f.t3) := by
  simp only [fourMin, qMin_eq_min]

theorem fourMax_eq (f : Four Q) : fourMax f = max (max f.t0 f.t1) (max f.t2 f.t3) := by
  simp only [fourMax, qMax_eq_max]

theorem fourMin_mem (f : Four Q) : fourMin f ∈ [f.t0, f.t1, f.t2, f.t3] := by
  rw [fourMin_eq]
  obtain h | h := min_choice (min f.t0 f.t1) (min f.t2 f.t3) <;> rw [h]
  · obtain h | h := min_choice f.t0 f.t1 <;> simp [h]
  · obtain h | h := min_choice f.t2 f.t3 <;> simp [h]

theorem fourMax_mem (f : Four Q) : fourMax f ∈ [f.t0, f.t1, f.t2, f.t3] := by
  rw [fourMax_eq]
  obtain h | h := max_choice (max f.t0 f.t1) (max f.t2 f.t3) <;> rw [h]
  · obtain h | h := max_choice f.t0 f.t1 <;> simp [h]
  · obtain h | h := max_choice f.t2 f.t3 <;> simp [h]

theorem fourMin_le {f : Four Q} {x : Q} (hx : x ∈ [f.t0, f.t1, f.t2, f.t3]) : fourMin f ≤ x := by
  rw [fourMin_eq]
  simp only [List.mem_cons, List.not_mem_nil, or_false] at hx
  rcases hx with rfl | rfl | rfl | rfl <;> simp

theorem le_fourMax {f : Four Q} {x : Q} (hx : x ∈ [f.t0, f.t1, f.t2, f.t3]) : x ≤ fourMax f := by
  rw [fourMax_eq]
  simp only [List.mem_cons, List.not_mem_nil, or_false] at hx
  rcases hx with rfl | rfl | rfl | rfl <;> simp

theorem fourMin_le_fourMax (f : Four Q) : fourMin f ≤ fourMax f := le_fourMax (fourMin_mem f)

/-! ## The table index (43_limits_thermal.md R222) -/

/-- Where the scan from `n` stops: at 0 or at a threshold at or below `t`, with every threshold it passed above `t`. -/
theorem scanIndex_spec (table : List TableEntry) (t : Q) (n : Nat) :
    (scanIndex table t n = 0 ∨
      scanIndex table t n ≤ n ∧ (table.getD (scanIndex table t n) default).temp ≤ t) ∧
    ∀ j, scanIndex table t n < j → j ≤ n → t < (table.getD j default).temp := by
  induction n with
  | zero => exact ⟨.inl rfl, fun j hj hn => absurd hn (Nat.not_le.2 hj)⟩
  | succ n ih =>
    obtain ⟨hstop, hpassed⟩ := ih
    rw [scanIndex]
    split
    · next hle => exact ⟨.inr ⟨le_rfl, hle⟩, fun j hj hn => absurd hn (Nat.not_le.2 hj)⟩
    · next hgt =>
      refine ⟨hstop.imp_right fun ⟨hn, hle⟩ => ⟨Nat.le_succ_of_le hn, hle⟩, fun j hj hn => ?_⟩
      obtain hlast | hn := Nat.le_succ_iff_eq_or_le.1 hn
      · exact hlast ▸ not_le.1 hgt
      · exact hpassed j hj hn

theorem tableIndex_eq_zero_or (table : List TableEntry) (t : Q) :
    tableIndex table t = 0 ∨
      tableIndex table t < table.length ∧ (table.getD (tableIndex table t) default).temp ≤ t := by
  obtain h0 | ⟨hn, hle⟩ := (scanIndex_spec table t (table.length - 1)).1
  · exact .inl h0
  · by_cases h0 : tableIndex table t = 0
    · exact .inl h0
    · exact .inr ⟨by rw [tableIndex] at h0 ⊢; omega, hle⟩

theorem lt_temp_of_tableIndex_lt {table : List TableEntry} {t : Q} {j : Nat} (hj : tableIndex table t < j)
    (hlen : j < table.length) : t < (table.getD j default).temp :=
  (scanIndex_spec table t (table.length - 1)).2 j hj (Nat.le_sub_one_of_lt hlen)

theorem tableIndex_lt {table : List TableEntry} (h : 0 < table.length) (t : Q) :
    tableIndex table t < table.length := by
  obtain h0 | ⟨hlt, _⟩ := tableIndex_eq_zero_or table t
  · rwa [h0]
  · exact hlt

/-- A higher temperature never has a lower index: its scan would have stopped at the threshold the other one stopped at. -/
theorem tableIndex_mono (table : List TableEntry) {t u : Q} (htu : t ≤ u) : tableIndex table t ≤ tableIndex table u := by
  obtain h0 | ⟨hlt, hle⟩ := tableIndex_eq_zero_or table t
  · exact h0 ▸ Nat.zero_le _
  · by_contra hgt
    exact absurd (hle.trans htu) (not_le.2 (lt_temp_of_tableIndex_lt (not_le.1 hgt) hlt))

/-- Settles O51: where the scan stops and what it passed, and the extremes as values of the four that bound them. -/
theorem tableIndexRule : Obligations.TableIndexRule := by
  refine ⟨fun table t i hi => ?_, fun f => ⟨⟨fourMin_mem f, fun _ => fourMin_le⟩, fourMax_mem f, fun _ => le_fourMax⟩⟩
  subst hi
  exact ⟨tableIndex_eq_zero_or table t, fun _ => lt_temp_of_tableIndex_lt⟩

/-! ## What a valid configuration says (00_scope.md R19, 70_reset_and_hazards.md R343 (a)) -/

theorem chained_iff_isChain {α : Type} {r : α → α → Bool} (l : List α) :
    chained r l = true ↔ l.IsChain fun a b => r a b = true := by
  induction l with
  | nil => simp [chained]
  | cons a l ih =>
    cases l with
    | nil => simp [chained]
    | cons b l => simp [chained, ih]

theorem entryAscends_iff {a b : TableEntry} :
    entryAscends a b = true ↔ a.temp ≤ b.temp ∧ a.chg ≤ b.chg ∧ b.dsg ≤ a.dsg := by
  simp [entryAscends, and_assoc]

/-- A table that ascends never allows a larger discharge at a higher index. -/
theorem dsg_antitone_of_chained {table : List TableEntry} (h : chained entryAscends table = true) {i j : Nat}
    (hij : i ≤ j) (hj : j < table.length) : (table.getD j default).dsg ≤ (table.getD i default).dsg := by
  have hchain : table.IsChain fun a b => a.dsg ≥ b.dsg :=
    ((chained_iff_isChain table).1 h).imp fun _ _ hab => (entryAscends_iff.1 hab).2.2
  have hsorted : (table.map TableEntry.dsg).SortedGE := ((List.isChain_map TableEntry.dsg).2 hchain).sortedGE
  have hi : i < table.length := hij.trans_lt hj
  have hle := hsorted.antitone_get (a := ⟨i, by rwa [List.length_map]⟩) (b := ⟨j, by rwa [List.length_map]⟩) hij
  simpa only [List.get_eq_getElem, List.getElem_map, List.getD_eq_getElem _ _ hi, List.getD_eq_getElem _ _ hj] using hle

theorem configValid_table {par : Params} {g : PackConfig} (h : configValid par g = true) :
    g.table.length = par.k ∧ chained entryAscends g.table = true ∧ ceilingSigns g = true := by
  simp only [configValid, Bool.and_eq_true, beq_iff_eq] at h
  obtain ⟨⟨⟨⟨⟨⟨⟨hlen, hchain⟩, hsigns⟩, _⟩, _⟩, _⟩, _⟩, _⟩ := h
  exact ⟨hlen, hchain, hsigns⟩

theorem ceilingSigns_iff {g : PackConfig} :
    ceilingSigns g = true ↔ (0 ≤ g.chgCeilFull ∧ 0 ≤ g.chgCeilReduced) ∧ (g.dsgCeilFull ≤ 0 ∧ g.dsgCeilReduced ≤ 0) ∧
      ∀ e ∈ g.table, 0 ≤ e.chg ∧ e.dsg ≤ 0 := by
  simp [ceilingSigns, and_assoc]

theorem table_length_pos {p : Nat} {s : State} (h : Ready p s) : 0 < (s.cfg p).table.length := by
  obtain ⟨_, _, _, _, hk, _⟩ := (paramsValid_spec h.params).1
  rw [(configValid_table h.config).1]
  exact hk

/-- The entry at the index is an entry of the table. -/
theorem getD_tableIndex_mem {table : List TableEntry} (h : 0 < table.length) (t : Q) :
    table.getD (tableIndex table t) default ∈ table := by
  rw [List.getD_eq_getElem _ _ (tableIndex_lt h t)]
  exact List.getElem_mem _

/-! ## `LIMITS` (43_limits_thermal.md R221, R223, R224) -/

theorem bothOn_iff (h : HwFlags) : bothOn h = true ↔ h.chgOn = true ∧ h.dsgOn = true := by
  simp [bothOn]

theorem chgCeil_eq (g : PackConfig) (h : HwFlags) :
    chgCeil g h = if h.chgOn = true ∧ h.dsgOn = true then g.chgCeilFull else g.chgCeilReduced := by
  simp only [chgCeil, bothOn_iff]

theorem dsgCeil_eq (g : PackConfig) (h : HwFlags) :
    dsgCeil g h = if h.chgOn = true ∧ h.dsgOn = true then g.dsgCeilFull else g.dsgCeilReduced := by
  simp only [dsgCeil, bothOn_iff]

theorem chgCeil_nonneg {g : PackConfig} (hg : ceilingSigns g = true) (h : HwFlags) : 0 ≤ chgCeil g h := by
  obtain ⟨⟨hfull, hreduced⟩, _⟩ := ceilingSigns_iff.1 hg
  unfold chgCeil
  split <;> assumption

theorem dsgCeil_nonpos {g : PackConfig} (hg : ceilingSigns g = true) (h : HwFlags) : dsgCeil g h ≤ 0 := by
  obtain ⟨_, ⟨hfull, hreduced⟩, _⟩ := ceilingSigns_iff.1 hg
  unfold dsgCeil
  split <;> assumption

/-- The index of the discharge clamp by the reading of `DSG_INDEX_SRC`. -/
theorem tableIndex_dsgTemp (table : List TableEntry) (src : IndexSrc) (ntc : Four Q) :
    tableIndex table (dsgTemp src ntc) =
      if src = .tmin then tableIndex table (fourMin ntc) else tableIndex table (fourMax ntc) := by
  cases src <;> rfl

theorem exec_limits {p : Nat} {s : State} (hready : Ready p s) :
    exec (.limits p) s = .next { s.setTel p { s.tel p with
      availChg := availChgOf (s.cfg p) (s.tel p)
      availDsg := availDsgOf s.par.dsgIndexSrc (s.cfg p) (s.tel p) } with result := .done } :=
  onPack_ready hready _

/-- Settles O50: the available currents are the smaller and the larger of a ceiling and an entry of the table, which have the
signs of a valid configuration; the table ascends, so the index of the largest temperature does not allow more. -/
theorem limitsClamp : Obligations.LimitsClamp := by
  intro p s g h ic idt chg dsg hready hg hh hic hidt hchg hdsg
  subst hg hh
  rw [← chgCeil_eq] at hchg
  rw [← dsgCeil_eq] at hdsg
  obtain ⟨_, hchain, hsigns⟩ := configValid_table hready.config
  obtain ⟨_, _, hentries⟩ := ceilingSigns_iff.1 hsigns
  have hpos := table_length_pos hready
  have hmem := getD_tableIndex_mem hpos
  rw [hic, ← tableIndex_dsgTemp] at hidt
  subst hic hidt hchg hdsg
  refine ⟨_, _, exec_limits hready, ?_⟩
  rw [availChgOf, availDsgOf, qMin_eq_min, qMax_eq_max]
  exact ⟨min_choice _ _, min_le_left _ _, min_le_right _ _, max_choice _ _, le_max_left _ _, le_max_right _ _,
    le_min (chgCeil_nonneg hsigns _) (hentries _ (hmem _)).1, max_le (dsgCeil_nonpos hsigns _) (hentries _ (hmem _)).2,
    dsg_antitone_of_chained hchain (tableIndex_mono _ (fourMin_le_fourMax _)) (tableIndex_lt hpos _)⟩

/-! ## `I2T` (43_limits_thermal.md R225, R226) -/

theorem heating_iff (h : HwFlags) : heating h = true ↔ h.pchgOn = true ∧ ¬(h.chgOn = true ∧ h.dsgOn = true) := by
  rw [heating, Bool.and_eq_true, Bool.not_eq_true', ← Bool.not_eq_true, bothOn_iff]

theorem i2tOf_of_heating {par : Params} (g : PackConfig) {t : Telemetry} (h : heating t.hw = true) :
    i2tOf par g t =
      numAdd par.num t.i2t (numMul par.num (numMul par.num t.current t.current) par.cycleS) :=
  if_pos h

theorem i2tOf_of_decay {par : Params} (g : PackConfig) {t : Telemetry} (h : ¬heating t.hw = true) :
    i2tOf par g t = max 0 (numSub par.num t.i2t g.i2tDecay) :=
  (if_neg h).trans (qMax_eq_max _ _)

theorem exec_i2t {p : Nat} {s : State} (hready : Ready p s) :
    exec (.i2t p) s =
      .next { s.setTel p { s.tel p with i2t := i2tOf s.par (s.cfg p) (s.tel p) } with result := .done } :=
  onPack_ready hready _

/-- Settles O52: the two cases of the accumulator, by whether the resistor is heated. -/
theorem i2tRule : Obligations.I2tRule := by
  intro p s h x i hready hh hx hi
  subst hh hx hi
  refine ⟨fun hpchg hpart => ?_, fun hcold => ?_, fun hn a b => ?_⟩
  · rw [exec_i2t hready, i2tOf_of_heating _ ((heating_iff _).2 ⟨hpchg, hpart⟩)]
  · rw [← heating_iff] at hcold
    refine ⟨_, exec_i2t hready, ?_⟩
    rw [i2tOf_of_decay _ hcold]
    exact ⟨le_max_left _ _, max_choice _ _, le_max_right _ _⟩
  · rw [hn]
    exact ⟨rfl, rfl, rfl⟩

end Sys2Proof.Machine

/-! SUPPORT. The software alert field bit by bit: which bits are copied, which latch and with which condition, and which are
kept; with the statements of 44_alert_aggregator.md they settle. -/

namespace Sys2Proof.Machine

open Sys2Proof.Safety

/-! ## The copied bits and the latched bits (44_alert_aggregator.md R241 to R246) -/

theorem getLsbD_alertBit {n : Nat} (hn : n < 32) (b : Bool) (k : Nat) :
    (alertBit n b).getLsbD k = true ↔ k = n ∧ b = true := by
  cases b
  · simp [alertBit]
  · simp only [alertBit, ↓reduceIte, BitVec.getLsbD_ofNat, Nat.testBit_two_pow]
    simp; omega

theorem getLsbD_foldl_alertBit {conds : List (Nat × Bool)} (h : ∀ c ∈ conds, c.1 < 32) (a : BitVec 32) (k : Nat) :
    (conds.foldl (fun a c => a ||| alertBit c.1 c.2) a).getLsbD k = true ↔ a.getLsbD k = true ∨ (k, true) ∈ conds := by
  induction conds generalizing a with
  | nil => simp
  | cons c cs ih =>
    obtain ⟨hc, hcs⟩ := List.forall_mem_cons.1 h
    rw [List.foldl_cons, ih hcs, BitVec.getLsbD_or, Bool.or_eq_true, getLsbD_alertBit hc, List.mem_cons, Prod.ext_iff,
      or_assoc, eq_comm (a := true)]

/-- The bits that latch are 2 to 21, each with one condition. -/
theorem latchConditions_bits (par : Params) (t : Telemetry) (g : PackConfig) :
    (latchConditions par t g).map Prod.fst = List.range' 2 20 := rfl

theorem mem_latchConditions_bounds {par : Params} {t : Telemetry} {g : PackConfig} {c : Nat × Bool}
    (h : c ∈ latchConditions par t g) : 2 ≤ c.1 ∧ c.1 < 22 := by
  have hbit := List.mem_map_of_mem (f := Prod.fst) h
  rwa [latchConditions_bits, List.mem_range'_1] at hbit

theorem latchCondition_unique {par : Params} {t : Telemetry} {g : PackConfig} {n : Nat} {b b' : Bool}
    (h : (n, b) ∈ latchConditions par t g) (h' : (n, b') ∈ latchConditions par t g) : b = b' := by
  have hnodup : ((latchConditions par t g).map Prod.fst).Nodup :=
    latchConditions_bits par t g ▸ List.nodup_range'
  exact (Prod.ext_iff.1 (List.inj_on_of_nodup_map hnodup h h' rfl)).2

theorem getLsbD_latchedAlerts (par : Params) (t : Telemetry) (g : PackConfig) (n : Nat) :
    (latchedAlerts (latchConditions par t g)).getLsbD n = true ↔ (n, true) ∈ latchConditions par t g := by
  rw [latchedAlerts, getLsbD_foldl_alertBit fun c hc => (mem_latchConditions_bounds hc).2.trans (by decide)]
  simp

theorem latchedAlerts_latch {par : Params} {t : Telemetry} {g : PackConfig} {n : Nat} {b : Bool}
    (h : (n, b) ∈ latchConditions par t g) : (latchedAlerts (latchConditions par t g)).getLsbD n = b := by
  rw [Bool.eq_iff_iff, getLsbD_latchedAlerts]
  exact ⟨latchCondition_unique h, fun hb => hb ▸ h⟩

theorem latchedAlerts_eq_false {par : Params} {t : Telemetry} {g : PackConfig} {n : Nat} (h : n < 2 ∨ 22 ≤ n) :
    (latchedAlerts (latchConditions par t g)).getLsbD n = false := by
  rw [← Bool.not_eq_true, getLsbD_latchedAlerts]
  intro hmem
  have hbounds := mem_latchConditions_bounds hmem
  omega

theorem getLsbD_copiedAlerts (h : HwFlags) (n : Nat) :
    (copiedAlerts h).getLsbD n = true ↔ n = 0 ∧ h.occ = true ∨ n = 1 ∧ h.ocd = true := by
  rw [copiedAlerts, BitVec.getLsbD_or, Bool.or_eq_true, getLsbD_alertBit (by decide), getLsbD_alertBit (by decide)]

theorem copiedAlerts_eq_false (h : HwFlags) {n : Nat} (hn : 2 ≤ n) : (copiedAlerts h).getLsbD n = false := by
  rw [← Bool.not_eq_true, getLsbD_copiedAlerts]
  omega

/-! ## The grouped and the table conditions (44_alert_aggregator.md R243, R245) -/

theorem chipFault_eq_any (h : HwFlags) :
    chipFault h = [h.wdtOvf, h.extProt, h.reset, h.sleep, h.refAbn, h.muxAbn, h.railAbn, h.eepromAbn, h.clkAbn].any id := by
  simp [chipFault, Bool.or_assoc]

/-- The last entry of a valid configuration's table is entry `K - 1`. -/
theorem topTemp_of_configValid {par : Params} {g : PackConfig} (h : configValid par g = true) :
    topTemp g = (g.table.getD (par.k - 1) default).temp := by
  obtain ⟨hlen, _, _⟩ := configValid_table h
  rw [topTemp, hlen]

/-! ## The new field (44_alert_aggregator.md R240) -/

/-- The mask of the old field clears the two copied bits only. -/
theorem getLsbD_and_not_three (a : BitVec 32) (n : Nat) :
    (a &&& ~~~(3 : BitVec 32)).getLsbD n = (decide (2 ≤ n) && a.getLsbD n) := by
  have hthree : (3 : BitVec 32).getLsbD n = (decide (n < 32) && decide (n < 2)) :=
    (BitVec.getLsbD_ofNat 32 3 n).trans (congrArg _ (Nat.testBit_two_pow_sub_one 2 n))
  rw [BitVec.getLsbD_and, BitVec.getLsbD_not, hthree, Bool.eq_iff_iff]
  simp only [Bool.and_eq_true, Bool.not_eq_true', Bool.and_eq_false_iff, decide_eq_true_eq, decide_eq_false_iff_not]
  exact ⟨fun ⟨hbit, hn, hmask⟩ => ⟨by omega, hbit⟩, fun ⟨hn, hbit⟩ => ⟨hbit, BitVec.lt_of_getLsbD hbit, by omega⟩⟩

/-- Below bit 2 nothing of the old field is left: what was copied is the bit. -/
theorem newAlerts_copied (par : Params) (t : Telemetry) (g : PackConfig) {n : Nat} (hn : n < 2) :
    (newAlerts par t g).getLsbD n = (copiedAlerts t.hw).getLsbD n := by
  rw [newAlerts, BitVec.getLsbD_or, BitVec.getLsbD_or, getLsbD_and_not_three, latchedAlerts_eq_false (.inl hn),
    decide_eq_false (not_le.2 hn), Bool.false_and, Bool.false_or, Bool.or_false]

/-- From bit 2 on the old field is kept, and only a latch can add to it. -/
theorem newAlerts_kept (par : Params) (t : Telemetry) (g : PackConfig) {n : Nat} (hn : 2 ≤ n) :
    (newAlerts par t g).getLsbD n =
      (t.swAlerts.getLsbD n || (latchedAlerts (latchConditions par t g)).getLsbD n) := by
  rw [newAlerts, BitVec.getLsbD_or, BitVec.getLsbD_or, getLsbD_and_not_three, copiedAlerts_eq_false _ hn,
    decide_eq_true hn, Bool.true_and, Bool.or_false]

theorem newAlerts_latch {par : Params} {t : Telemetry} {g : PackConfig} {n : Nat} {b : Bool}
    (h : (n, b) ∈ latchConditions par t g) : (newAlerts par t g).getLsbD n = (t.swAlerts.getLsbD n || b) := by
  rw [newAlerts_kept par t g (mem_latchConditions_bounds h).1, latchedAlerts_latch h]

theorem newAlerts_reserved (par : Params) (t : Telemetry) (g : PackConfig) {n : Nat} (hn : 22 ≤ n) :
    (newAlerts par t g).getLsbD n = t.swAlerts.getLsbD n := by
  rw [newAlerts_kept par t g (by omega), latchedAlerts_eq_false (.inr hn), Bool.or_false]

theorem newAlerts_occ (par : Params) (t : Telemetry) (g : PackConfig) : (newAlerts par t g).getLsbD 0 = t.hw.occ := by
  rw [newAlerts_copied par t g (by decide), Bool.eq_iff_iff, getLsbD_copiedAlerts]
  simp

theorem newAlerts_ocd (par : Params) (t : Telemetry) (g : PackConfig) : (newAlerts par t g).getLsbD 1 = t.hw.ocd := by
  rw [newAlerts_copied par t g (by decide), Bool.eq_iff_iff, getLsbD_copiedAlerts]
  simp

/-! ## `ALERTS` -/

theorem exec_alerts {p : Nat} {s : State} (hready : Ready p s) :
    exec (.alerts p) s =
      .next { s.setTel p { s.tel p with swAlerts := newAlerts s.par (s.tel p) (s.cfg p) } with result := .done } :=
  onPack_ready hready _

/-- Settles O53: bits 0 and 1 are copies, and each of the eleven flags is the condition that latches its bit. -/
theorem alertCopiesAndLatches : Obligations.AlertCopiesAndLatches := by
  intro p s old h hready hold hh
  subst hold hh
  refine ⟨_, exec_alerts hready, newAlerts_occ _ _ _, newAlerts_ocd _ _ _, ?_⟩
  refine ⟨newAlerts_latch ?_, newAlerts_latch ?_, newAlerts_latch ?_, newAlerts_latch ?_, newAlerts_latch ?_,
    newAlerts_latch ?_, newAlerts_latch ?_, newAlerts_latch ?_, newAlerts_latch ?_, newAlerts_latch ?_,
    newAlerts_latch ?_⟩ <;> simp [latchConditions]

/-- Settles O54: each grouped or derived condition latches its bit, and no condition latches a reserved one. -/
theorem alertDerivedLatches : Obligations.AlertDerivedLatches := by
  intro p s old t g hready ht hg hold
  subst ht hg hold
  refine ⟨_, exec_alerts hready, ?_⟩
  rw [← chipFault_eq_any, ← topTemp_of_configValid hready.config, Bool.or_assoc]
  refine ⟨newAlerts_latch ?_, newAlerts_latch ?_, newAlerts_latch ?_, newAlerts_latch ?_, newAlerts_latch ?_,
    newAlerts_latch ?_, newAlerts_latch ?_, newAlerts_latch ?_, newAlerts_latch ?_,
    fun _ => newAlerts_reserved _ _ _⟩ <;> simp [latchConditions, bottomTemp]

end Sys2Proof.Machine

/-! SUPPORT. The arbiter: the error terms as masks, the permissions, and the drive pattern bit by bit and row by row; with the
statements of 45_mosfet_arbiter.md they settle. -/

namespace Sys2Proof.Machine

open Sys2Proof.Safety

/-! ## Alert bits as a mask (45_mosfet_arbiter.md R261) -/

/-- The mask of a list of alert bits. -/
def alertMask (bits : List Nat) : BitVec 32 := latchedAlerts (bits.map (·, true))

theorem getLsbD_alertMask {bits : List Nat} (h : ∀ n ∈ bits, n < 32) (k : Nat) :
    (alertMask bits).getLsbD k = true ↔ k ∈ bits := by
  rw [alertMask, latchedAlerts, getLsbD_foldl_alertBit (by simpa using h)]
  simp

/-- A field meets a mask exactly when one of the mask's bits is set in it. -/
theorem and_alertMask_ne_zero {bits : List Nat} (h : ∀ n ∈ bits, n < 32) (a : BitVec 32) :
    (a &&& alertMask bits != 0) = bits.any a.getLsbD := by
  have hzero : a &&& alertMask bits = 0 ↔ ∀ n ∈ bits, a.getLsbD n = false := by
    refine ⟨fun hz n hn => ?_, fun hclear => BitVec.eq_of_getLsbD_eq fun k _ => ?_⟩
    · have hbit := congrArg (·.getLsbD n) hz
      simpa [(getLsbD_alertMask h n).2 hn] using hbit
    · by_cases hk : k ∈ bits
      · simp [hclear k hk]
      · simp [Bool.eq_false_iff.2 (mt (getLsbD_alertMask h k).1 hk)]
  rw [Bool.eq_iff_iff, bne_iff_ne, ne_eq, hzero]
  simp

theorem errorAll_eq_any (a : BitVec 32) :
    errorAll a = [4, 5, 6, 7, 8, 9, 10, 11, 12, 13, 14, 19, 20, 21].any a.getLsbD := by
  simp [errorAll, Bool.or_assoc]

theorem errorCharge_eq_any (a : BitVec 32) : errorCharge a = [0, 2, 15, 16].any a.getLsbD := by
  simp [errorCharge, Bool.or_assoc]

theorem errorDischarge_eq_any (a : BitVec 32) : errorDischarge a = [1, 3, 17, 18].any a.getLsbD := by
  simp [errorDischarge, Bool.or_assoc]

theorem errorAll_eq_mask (a : BitVec 32) : errorAll a = (a &&& 0x00387FF0 != 0) := by
  have hmask : alertMask [4, 5, 6, 7, 8, 9, 10, 11, 12, 13, 14, 19, 20, 21] = 0x00387FF0 := by decide
  rw [errorAll_eq_any, ← hmask, and_alertMask_ne_zero (by decide)]

theorem errorCharge_eq_mask (a : BitVec 32) : errorCharge a = (a &&& 0x00018005 != 0) := by
  have hmask : alertMask [0, 2, 15, 16] = 0x00018005 := by decide
  rw [errorCharge_eq_any, ← hmask, and_alertMask_ne_zero (by decide)]

theorem errorDischarge_eq_mask (a : BitVec 32) : errorDischarge a = (a &&& 0x0006000A != 0) := by
  have hmask : alertMask [1, 3, 17, 18] = 0x0006000A := by decide
  rw [errorDischarge_eq_any, ← hmask, and_alertMask_ne_zero (by decide)]

/-! ## The permissions (45_mosfet_arbiter.md R262) -/

theorem allowCharge_iff (a : BitVec 32) (c : Cmd) :
    allowCharge a c = true ↔ c.chargeEnable = true ∧ ¬(errorAll a = true ∨ errorCharge a = true) := by
  rw [allowCharge, Bool.and_eq_true, Bool.not_eq_true', ← Bool.not_eq_true, Bool.or_eq_true]

theorem allowDischarge_iff (a : BitVec 32) (c : Cmd) :
    allowDischarge a c = true ↔ c.dischargeEnable = true ∧ ¬(errorAll a = true ∨ errorDischarge a = true) := by
  rw [allowDischarge, Bool.and_eq_true, Bool.not_eq_true', ← Bool.not_eq_true, Bool.or_eq_true]

/-- `errorAll` withdraws both permissions, whatever is commanded. -/
theorem not_allowed_of_errorAll {a : BitVec 32} (c : Cmd) (h : errorAll a = true) :
    allowDischarge a c = false ∧ allowCharge a c = false := by
  simp [allowDischarge, allowCharge, h]

/-- Settles O55: each term is its bits, the bits are its mask, and the masks are four closed facts. -/
theorem errorTermsAndPermissions : Obligations.ErrorTermsAndPermissions :=
  ⟨fun a => ⟨errorAll_eq_any a, errorCharge_eq_any a, errorDischarge_eq_any a, errorAll_eq_mask a, errorCharge_eq_mask a,
    errorDischarge_eq_mask a⟩, by decide, fun a c => ⟨allowCharge_iff a c, allowDischarge_iff a c⟩⟩

/-! ## Drive bit assembly (45_mosfet_arbiter.md R264, R265)

The two permissions, the two contacts' own flags and the precharge precondition are five Booleans: a row of the table, or a
bit of the pattern, is one of 32 cases. -/

theorem assembleDrive_eq_driveTable : ∀ aD aC dsgOn chgOn pre : Bool,
    assembleDrive aD aC dsgOn chgOn pre = driveTable aD aC dsgOn chgOn pre := by decide

/-- The discharge contact. -/
theorem assembleDrive_bit_zero : ∀ aD aC dsgOn chgOn pre : Bool,
    (assembleDrive aD aC dsgOn chgOn pre).getLsbD 0 = (aD && (dsgOn || pre)) := by decide

/-- The charge contact. -/
theorem assembleDrive_bit_one : ∀ aD aC dsgOn chgOn pre : Bool,
    (assembleDrive aD aC dsgOn chgOn pre).getLsbD 1 = (aC && (chgOn || pre)) := by decide

/-- The precharge contact: some allowed direction is not yet engaged. -/
theorem assembleDrive_bit_two : ∀ aD aC dsgOn chgOn pre : Bool,
    (assembleDrive aD aC dsgOn chgOn pre).getLsbD 2 = ((aD && !dsgOn) || (aC && !chgOn)) := by decide

/-- With neither direction allowed no contact is driven. -/
theorem assembleDrive_not_allowed (dsgOn chgOn pre : Bool) : assembleDrive false false dsgOn chgOn pre = 0 :=
  assembleDrive_eq_driveTable ..

/-! ## `ARBITER` -/

theorem exec_arbiter (a : BitVec 32) (h : HwFlags) (c : Cmd) (vpack vb tol : Q) (s : State) :
    exec (.arbiter a h c vpack vb tol) s = .next (s.setResult (.drive (assembleDrive (allowDischarge a c)
      (allowCharge a c) h.dsgOn h.chgOn (preOk s.par.num h vpack vb tol)))) := rfl

/-- Settles O56: the pattern is the table's row, and its bits and the permissions give the consequences. -/
theorem arbiterTruthTable : Obligations.ArbiterTruthTable := by
  intro a h c vpack vb tol s pre hpre
  rw [← preOk] at hpre
  subst hpre
  refine ⟨_, exec_arbiter .., assembleDrive_eq_driveTable .., fun hdsg => ?_, fun hchg => ?_, fun hpchg => ?_,
    fun herr => ?_⟩
  · rw [assembleDrive_bit_zero, Bool.and_eq_true] at hdsg
    exact hdsg.1
  · rw [assembleDrive_bit_one, Bool.and_eq_true] at hchg
    exact hchg.1
  · simpa only [assembleDrive_bit_two, Bool.or_eq_true, Bool.and_eq_true, Bool.not_eq_true'] using hpchg
  · obtain ⟨hdsg, hchg⟩ := not_allowed_of_errorAll c herr
    rw [hdsg, hchg, assembleDrive_not_allowed]

end Sys2Proof.Machine

/-! SUPPORT. The wire-break comparator and the balancer: the evaluation's operands, the sum of the cells, and the one write;
with the statements of 46_diag_balancer.md they settle. -/

namespace Sys2Proof.Machine

open Sys2Proof.Safety

/-! ## `DIAG_EVAL` (46_diag_balancer.md R281) -/

theorem qAbs_eq_abs (a : Q) : qAbs a = |a| := by
  unfold qAbs
  split
  case isTrue h => exact (abs_of_nonneg h).symm
  case isFalse h => exact (abs_of_neg (not_le.1 h)).symm

theorem exec_diagEval (buf : List Q) (thr : Q) (s : State) :
    exec (.diagEval buf thr) s = .next (s.setResult (.verdict (diagEval s.par.num s.par.ncell buf thr))) := rfl

/-- The evaluation fails exactly when some delta reaches the threshold. -/
theorem diagEval_eq_false_iff {num : NumSel} {ncell : Nat} {buf : List Q} {thr : Q} :
    diagEval num ncell buf thr = false ↔
      ∃ i, i < ncell ∧ thr ≤ qAbs (numSub num (buf.getD i 0) (buf.getD (2 * ncell + i) 0)) := by
  simp only [← Bool.not_eq_true, diagEval_iff, not_forall, not_lt, exists_prop]

/-- Only the neutral and the pull-down snapshot are looked at. -/
theorem diagEval_congr {num : NumSel} {ncell : Nat} {buf buf' : List Q} (thr : Q)
    (h : ∀ j, j < ncell ∨ 2 * ncell ≤ j → buf'.getD j 0 = buf.getD j 0) :
    diagEval num ncell buf' thr = diagEval num ncell buf thr := by
  rw [Bool.eq_iff_iff, diagEval_iff, diagEval_iff]
  refine forall₂_congr fun j hj => ?_
  rw [h j (.inl hj), h (2 * ncell + j) (.inr (Nat.le_add_right ..))]

/-- Settles O57: the verdict is the comparison of each cell's two samples, and of nothing else. -/
theorem diagEvalRule : Obligations.DiagEvalRule :=
  ⟨qAbs_eq_abs, fun buf thr s => ⟨_, exec_diagEval buf thr s, diagEval_eq_false_iff, fun buf2 h => by
    rw [exec_diagEval, exec_diagEval, diagEval_congr thr h]⟩⟩

/-! ## The sum of the cells (46_diag_balancer.md R286, R287) -/

/-- The sum is left to right: the last value is added to the sum of those before it. -/
theorem numSum_append_singleton (num : NumSel) (v : Q) {vs : List Q} (h : vs ≠ []) :
    numSum num (vs ++ [v]) = numAdd num (numSum num vs) v := by
  cases vs with
  | nil => exact absurd rfl h
  | cons u us => exact List.foldl_append

/-- With exact numerics it is the rational sum. -/
theorem numSum_exact (vs : List Q) : numSum .exact vs = vs.sum := by
  induction vs using List.reverseRecOn with
  | nil => rfl
  | append_singleton us v ih =>
    rcases eq_or_ne us [] with rfl | hne
    · exact List.sum_singleton.symm
    · rw [numSum_append_singleton _ _ hne, ih, List.sum_append, List.sum_singleton, numAdd]

/-! ## `BALANCE` (46_diag_balancer.md R286) -/

theorem exec_balance (p : Nat) (s : State) :
    exec (.balance p) s = onPack p s ((balance p s).finished p (s.tel p).state .bool) := rfl

/-- The balancer's write acknowledged: whether any cell was selected. -/
theorem balance_of_ack {p : Nat} {s : State} {ds : List Bool} {as : List BusAnswer} {ack : List Byte}
    (hready : Ready p s) (hack : ack.length = 4) (hs : Script [ack] ds as s) :
    balance p s = ⟨.ok ((shuntMask s.par.num s.par.ncell (s.cfg p).balDiff (cellList s p)).any id), s.served p 1
      (transaction p (wrFrame s.par.crcPoly (balanceWrite p s).addr (balanceWrite p s).value) ack) ds as⟩ := by
  obtain ⟨_, _, _, _, _, _, hbal⟩ := paramsValid_spec hready.params
  have hlegal : addressOk (balanceWrite p s).addr = true := hbal _ _
  rw [balance_eq, afeWriteReg_served hs (ready_device hready) hlegal hack, Run.andThen_ok, Run.pure]

/-- Settles O58: the sum by its last value, and the acknowledged write with the mask over the cells as stored. -/
theorem balanceRule : Obligations.BalanceRule := by
  refine ⟨fun num v vs => ⟨rfl, numSum_append_singleton num v⟩,
    fun vs a b n => ⟨numSum_exact vs, rfl, rfl⟩, ?_⟩
  rintro p s ds as ack mean mask w hready hlen hack hs rfl hmask rfl
  have hshunt : shuntMask s.par.num s.par.ncell (s.cfg p).balDiff (cellList s p) = mask := by
    rw [cellList_eq hlen, hmask, shuntMask, numMean]
  rw [exec_balance, onPack_ready hready, balance_of_ack hready hack hs, Run.finished_ok, balanceWrite, hshunt]
  rfl

end Sys2Proof.Machine

/-! SUPPORT. The codes read back, what no operation of CORE writes, and the places where an operation of a pack fails; with
the statements of 60_exceptions.md they settle. -/

namespace Sys2Proof.Machine

open Sys2Proof.Safety

/-! ## The codes (60_exceptions.md R300, R301) -/

/-- The report a code of 1 to 5 names. -/
def ReportKind.ofCode : Nat → ReportKind
  | 1 => .err .badArgument
  | 2 => .err .transport
  | 3 => .err .crc
  | 4 => .configFault
  | _ => .diagFault

theorem ReportKind.ofCode_code : Function.LeftInverse ReportKind.ofCode ReportKind.code := by
  rintro ((_ | _ | _) | _ | _) <;> rfl

/-- Settles O60: each code is its definition's, and what a report names can be read back from its code. -/
theorem errorCodes : Obligations.ErrorCodes :=
  ⟨rfl, rfl, rfl, rfl, rfl, fun _ => rfl, fun _ _ h => ReportKind.ofCode_code.injective h,
    rfl, rfl, rfl, rfl, rfl, rfl, rfl, rfl, rfl, rfl, rfl, rfl, rfl, rfl⟩

/-! ## What no operation of CORE writes (60_exceptions.md R320; 10_state.md R37, R39, R45, R47) -/

/-- The parameters, the configurations and the inputs stand as they did; the trace has only grown, and a machine that was
halted is halted. -/
structure InputsKept (s t : State) : Prop where
  par : t.par = s.par
  length : t.packs.length = s.packs.length
  cfg : ∀ q, t.cfg q = s.cfg q
  trace : s.trace <+: t.trace
  halted : s.halted = true → t.halted = true
  shutdown : t.shutdown = s.shutdown
  vbus : t.vbus = s.vbus
  cmd : ∀ q, t.cmd q = s.cmd q
  sanity : ∀ q, (t.pack q).sanityTrigger = (s.pack q).sanityTrigger

theorem InputsKept.refl (s : State) : InputsKept s s :=
  ⟨rfl, rfl, fun _ => rfl, List.prefix_rfl, id, rfl, rfl, fun _ => rfl, fun _ => rfl⟩

theorem InputsKept.of_serves {p : Nat} {s t : State} (h : Serves p s t) : InputsKept s t := by
  obtain ⟨es, htrace, _⟩ := h.events
  exact ⟨h.par, h.length, h.cfg, htrace ▸ List.prefix_append s.trace es, fun hh => h.halted.trans hh, h.shutdown, h.vbus,
    h.cmd, h.sanity⟩

theorem Ended.inputsKept {p : Nat} {idle : Prop} {s t : State} (h : Ended p idle s t) : InputsKept s t := by
  cases h with
  | done u r hu _ => exact { InputsKept.of_serves hu with }
  | same _ => exact .refl s
  | abort u k hu =>
    have hkept := InputsKept.of_serves hu.toServes
    exact { hkept with trace := hkept.trace.trans (List.prefix_append _ _) }

theorem passBegin_inputsKept (s : State) : InputsKept s (passBegin s) := by
  unfold passBegin
  split_ifs
  · exact .refl s
  · exact { InputsKept.refl s with halted := fun _ => rfl }
  · exact { InputsKept.refl s with }

theorem passStep_inputsKept {s t : State} (h : passStep s = .next t) : InputsKept s t := by
  unfold passStep at h
  split at h
  · cases h
    exact passBegin_inputsKept s
  next p _ =>
    obtain ⟨_, rfl⟩ | ⟨_, _, rfl⟩ | ⟨_, rfl⟩ | ⟨_, u, hu, rfl⟩ := passAt_next h
    · exact { InputsKept.refl s with }
    · exact { InputsKept.refl s with halted := fun _ => rfl }
    · exact { InputsKept.refl s with }
    · exact { (ended_of_packOp (p := p) (c := s.cmd p) (by simp [packOps]) hu).inputsKept with }

/-- Settles O45: a pending request writes no record and no input, and else only the environment's move does. -/
theorem stepKeepsWhatItMay : Obligations.StepKeepsWhatItMay := by
  intro s t h
  obtain ⟨_, ⟨r, i, hr, hi, hx⟩ | ⟨hr, hx⟩⟩ := step_next h
  · obtain ⟨u, v, hu, _, rfl⟩ := request_next hi hx
    obtain ⟨es, htrace⟩ := hu.trace
    exact ⟨hu.par, congrArg List.length hu.packs, hu.cfg, ⟨es, htrace.symm⟩, fun hh => hu.halted.trans hh,
      fun hnone => by simp [hr] at hnone, fun _ _ => ⟨hu.packs, hu.shutdown, hu.vbus⟩⟩
  · have hmove := envMove_inputsOnly s
    have hkept := passStep_inputsKept hx
    exact ⟨hkept.par.trans hmove.par, hkept.length.trans hmove.length, fun q => (hkept.cfg q).trans (envMove_cfg s q),
      envMove_trace s ▸ hkept.trace, fun hh => hkept.halted (hmove.halted.trans hh),
      fun _ => ⟨hkept.shutdown, hkept.vbus, fun q => ⟨hkept.cmd q, hkept.sanity q⟩⟩,
      fun r hsome => by simp [hr] at hsome⟩

/-! ## Where a run fails -/

/-- The run `r` fails with the kind `k` at the transaction that sends `tx`, which it comes to in the state `u`. -/
def FailsAt {α : Type} (p : Nat) (tx : List Byte) (u : State) (k : ErrKind) (r : Run α) : Prop :=
  ∃ t, AfterFailure p tx u t ∧ r = ⟨.err k, t⟩

theorem FailsAt.andThen {α β : Type} {p : Nat} {tx : List Byte} {u : State} {k : ErrKind} {r : Run α}
    (h : FailsAt p tx u k r) (f : α → State → Run β) : FailsAt p tx u k (r.andThen f) := by
  obtain ⟨t, ht, rfl⟩ := h
  exact ⟨t, ht, Run.andThen_err k t f⟩

/-- An operation whose run fails takes the abort there. -/
theorem FailsAt.aborts {α : Type} {p : Nat} {tx : List Byte} {s u : State} {k : ErrKind} {r : Run α}
    (h : FailsAt p tx u k r) (hready : Ready p s) (c : BitVec 4) (f : α → OpResult) :
    ∃ t, AfterFailure p tx u t ∧ onPack p s (r.finished p c f) = .next (aborted p c k t) := by
  obtain ⟨t, ht, hr⟩ := h
  exact ⟨t, ht, onPack_of_err hready c f hr⟩

section
variable {p : Nat} {s : State} {k : ErrKind} {ds : List Bool} {as : List BusAnswer}

theorem afeWrite_failsAt {a : Nat} {v : Word} (hp : p < 2 ^ s.par.nsel) (ha : addressOk a = true)
    (h : NextFails false 4 s k) : FailsAt p (wrFrame s.par.crcPoly a v) s k (afeWrite p a v s) :=
  afeWrite_fails hp ha h

theorem afeRead_failsAt {a n : Nat} (hp : p < 2 ^ s.par.nsel) (hb : burstValid ⟨a, n⟩ = true)
    (h : NextFails true (2 * n + 3) s k) : FailsAt p (rdFrame a n) s k (afeRead p a n s) := by
  simp only [burstValid, Bool.and_eq_true] at hb
  exact afeRead_fails hp hb.1 hb.2 h

/-- Writes in order, of which one fails behind those that were acknowledged. -/
theorem writeAll_failsAt {written rest : List RegWrite} {w : RegWrite} {acks : List (List Byte)}
    (hp : p < 2 ^ s.par.nsel) (hlegal : (written ++ w :: rest).all (fun x => addressOk x.addr) = true)
    (hk : Acks written acks) (hs : Script acks ds as s)
    (h : NextFails false 4 (s.served p written.length (writeEvents s.par.crcPoly p written acks) ds as) k) :
    FailsAt p (wrFrame s.par.crcPoly w.addr w.value)
      (s.served p written.length (writeEvents s.par.crcPoly p written acks) ds as) k
      (writeAll p (written ++ w :: rest) s) := by
  simp only [List.all_append, List.all_cons, Bool.and_eq_true] at hlegal
  obtain ⟨hwritten, hw, _⟩ := hlegal
  rw [writeAll_append, writeAll_served hs hp hwritten hk, Run.andThen_ok]
  exact (afeWrite_failsAt (s := s.served p _ _ ds as) hp hw h).andThen _

/-- Bursts in order, of which one fails behind those that were answered. -/
theorem readBlocks_failsAt {good rest : List Burst} {b : Burst} {gs : List Resp} (hp : p < 2 ^ s.par.nsel)
    (hvalid : (good ++ b :: rest).all burstValid = true) (hf : Fits good gs)
    (hs : Script (respBytes s.par.crcPoly gs) ds as s)
    (h : NextFails true (2 * b.count + 3) (s.served p good.length (readEvents s.par.crcPoly p good gs) ds as) k) :
    FailsAt p (rdFrame b.addr b.count) (s.served p good.length (readEvents s.par.crcPoly p good gs) ds as) k
      (readBlocks p (good ++ b :: rest) s) := by
  simp only [List.all_append, List.all_cons, Bool.and_eq_true] at hvalid
  obtain ⟨hgood, hb, _⟩ := hvalid
  have hanswered : readBlocks p good s = ⟨.ok (gs.map Resp.ws), s.served p good.length _ ds as⟩ :=
    readBlocks_scripted hp hgood hf hs
  rw [readBlocks_append, hanswered, Run.andThen_ok]
  exact ((afeRead_failsAt (s := s.served p _ _ ds as) hp hb h).andThen _).andThen _

/-- Readback in order, in which a burst fails behind the runs that matched. -/
theorem readBack_failsAt {u : List RegWrite} {good rest : List (Nat × Nat)} {r : Nat × Nat} {gs : List Resp}
    (hp : p < 2 ^ s.par.nsel) (hu : u.all (fun w => addressOk w.addr) = true) (hruns : runs u = good ++ r :: rest)
    (hf : Fits (runBursts u good) gs) (hm : gs.map Resp.ws = runWords u good)
    (hs : Script (respBytes s.par.crcPoly gs) ds as s)
    (h : NextFails true (2 * r.2 + 3)
      (s.served p good.length (readEvents s.par.crcPoly p (runBursts u good) gs) ds as) k) :
    FailsAt p (rdFrame (runAddr u r.1) r.2)
      (s.served p good.length (readEvents s.par.crcPoly p (runBursts u good) gs) ds as) k (readBack p u (runs u) s) := by
  have hgood : (runBursts u good).all burstValid = true := runBursts_valid hu fun x hx => by simp [hruns, hx]
  have hb : burstValid ⟨runAddr u r.1, r.2⟩ = true := by
    simpa [runBursts] using runBursts_valid (rs := [r]) hu fun x hx => by simp_all
  rw [hruns, readBack_served hs hp hgood hf hm]
  exact (afeRead_failsAt (s := s.served p _ _ ds as) hp hb h).andThen _

end

/-! ## Where the operations of a pack fail (60_exceptions.md R305, R310) -/

/-- A snapshot is stored in one way only. -/
theorem eq_writeSamples_of_stored {ncell j : Nat} {v old new : List Q} (hj : j < 3)
    (h : SnapshotStored ncell j v old new) : new = writeSamples ncell j v old := by
  obtain ⟨hlen, hnew, hold⟩ := h
  obtain ⟨hlen', hnew', hold'⟩ := writeSamples_stored (ncell := ncell) hj v old
  refine List.ext_getElem (hlen.trans hlen'.symm) fun i hi hi' => ?_
  suffices new.getD i 0 = (writeSamples ncell j v old).getD i 0 by
    simpa [List.getD_eq_getElem?_getD, hi, hi'] using this
  by_cases hin : j * ncell ≤ i ∧ i < (j + 1) * ncell
  · rw [Nat.add_one_mul] at hin
    obtain ⟨m, rfl⟩ := Nat.exists_eq_add_of_le hin.1
    rw [hnew m (by omega), hnew' m (by omega)]
  · rw [hold i (by omega) (by omega), hold' i (by omega) (by omega)]

section
variable {p : Nat} {s : State} {k : ErrKind} {ds : List Bool} {as : List BusAnswer}

/-- The writes of a list whose members are command writes have legal addresses. -/
theorem commandWrites_addressOk {ws : List RegWrite} (hready : Ready p s)
    (hws : ∀ w ∈ ws, w ∈ commandWrites s.par.profile) : ws.all (fun w => addressOk w.addr) = true :=
  List.all_eq_true.2 fun w hw => commandWrite_addressOk hready (hws w hw)

theorem configWrites_addressOk (hready : Ready p s) :
    (s.par.profile.clrErrors ++ [s.par.profile.wdtArm]).all (fun w => addressOk w.addr) = true :=
  commandWrites_addressOk hready fun x hx => by
    obtain hx | rfl : x ∈ s.par.profile.clrErrors ∨ x = s.par.profile.wdtArm := by simpa using hx
    · exact List.mem_append_right _ hx
    · simp [commandWrites]

theorem stWaitinit_failsAt_mosfetsOff {e0 e1 : Byte} {w : Word} (hready : Ready p s)
    (hw : pwrCodeOf s.par.profile w = s.par.profile.powerupCode) (hs : Script [rsFrame s.par.crcPoly e0 e1 [w]] ds as s)
    {u : State} (hu : u = s.served p 1
      (transaction p (rdFrame s.par.profile.statusAddr 1) (rsFrame s.par.crcPoly e0 e1 [w])) ds as)
    (h : NextFails false 4 u k) :
    FailsAt p (wrFrame s.par.crcPoly s.par.profile.mosfetCtrlAddr 0) u k (stWaitinit p s) := by
  subst hu
  obtain ⟨_, hstatus, hmosfet, _⟩ := paramsValid_spec hready.params
  have hp := ready_device hready
  rw [stWaitinit, readStatus_served hs hp hstatus, Run.andThen_ok, State.served_par, if_pos hw]
  exact (afeWrite_failsAt (s := s.served p 1 _ ds as) hp hmosfet h).andThen _

theorem stWaitinit_failsAt_balancerOff {e0 e1 : Byte} {w : Word} {ack : List Byte} (hready : Ready p s)
    (hw : pwrCodeOf s.par.profile w = s.par.profile.powerupCode) (hack : ack.length = 4)
    (hs : Script [rsFrame s.par.crcPoly e0 e1 [w], ack] ds as s)
    {u : State} (hu : u = (s.setDrive p 0).served p 2
      (transaction p (rdFrame s.par.profile.statusAddr 1) (rsFrame s.par.crcPoly e0 e1 [w]) ++
        transaction p (wrFrame s.par.crcPoly s.par.profile.mosfetCtrlAddr 0) ack) ds as)
    (h : NextFails false 4 u k) :
    FailsAt p (wrFrame s.par.crcPoly s.par.profile.balOff.addr s.par.profile.balOff.value) u k (stWaitinit p s) := by
  subst hu
  obtain ⟨_, hstatus, hmosfet, _⟩ := paramsValid_spec hready.params
  have hp := ready_device hready
  have hoff : addressOk s.par.profile.balOff.addr = true := commandWrite_addressOk hready (by simp [commandWrites])
  obtain ⟨_, _, hs1, hs2⟩ := script_split (xs := [_]) (ys := [ack]) hs
  rw [stWaitinit, readStatus_served hs1 hp hstatus, Run.andThen_ok, State.served_par, if_pos hw,
    afeWrite_served (hs2 s p _ _) hp hmosfet hack, Run.andThen_ok, State.served_served]
  exact (afeWrite_failsAt (s := (s.setDrive p 0).served p 2 _ ds as) hp hoff h).andThen _

theorem stInit_failsAt_userWrite {w : RegWrite} {written rest : List RegWrite} {acks : List (List Byte)}
    (hready : Ready p s) (hlist : userList (s.cfg p).userRegs = written ++ w :: rest) (hk : Acks written acks)
    (hs : Script acks ds as s)
    (h : NextFails false 4 (s.served p written.length (writeEvents s.par.crcPoly p written acks) ds as) k) :
    FailsAt p (wrFrame s.par.crcPoly w.addr w.value)
      (s.served p written.length (writeEvents s.par.crcPoly p written acks) ds as) k (stInit p s) := by
  have hlegal := userList_addressOk hready
  rw [hlist] at hlegal
  rw [stInit, hlist]
  exact (writeAll_failsAt (ready_device hready) hlegal hk hs h).andThen _

theorem stInit_failsAt_readback {l : List RegWrite} {r : Nat × Nat} {good rest : List (Nat × Nat)}
    {acks : List (List Byte)} {gs : List Resp} (hready : Ready p s) (hl : l = userList (s.cfg p).userRegs)
    (hk : Acks l acks) (hruns : runs l = good ++ r :: rest) (hf : Fits (runBursts l good) gs)
    (hm : gs.map Resp.ws = runWords l good) (hs : Script (acks ++ respBytes s.par.crcPoly gs) ds as s)
    {u : State} (hu : u = s.served p (l.length + good.length)
      (writeEvents s.par.crcPoly p l acks ++ readEvents s.par.crcPoly p (runBursts l good) gs) ds as)
    (h : NextFails true (2 * r.2 + 3) u k) : FailsAt p (rdFrame (runAddr l r.1) r.2) u k (stInit p s) := by
  subst hu
  have hp := ready_device hready
  have hlegal : l.all (fun w => addressOk w.addr) = true := hl ▸ userList_addressOk hready
  obtain ⟨ds1, as1, hs1, hs2⟩ := script_split hs
  rw [stInit, ← hl, writeAll_served hs1 hp hlegal hk, Run.andThen_ok, ← State.served_served (ds := ds1) (as := as1)]
  rw [← State.served_served (ds := ds1) (as := as1)] at h
  exact (readBack_failsAt (s := s.served p _ _ ds1 as1) hp hlegal hruns hf hm (hs2 s p _ _) h).andThen _

theorem stInit_failsAt_afterReadback {l : List RegWrite} {w : RegWrite} {written rest : List RegWrite}
    {acks acks2 : List (List Byte)} {gs : List Resp} (hready : Ready p s) (hl : l = userList (s.cfg p).userRegs)
    (hk : Acks l acks) (hf : Fits (runBursts l (runs l)) gs) (hm : gs.map Resp.ws = runWords l (runs l))
    (hw : [s.par.profile.clrReset, s.par.profile.balWindow] = written ++ w :: rest) (hk2 : Acks written acks2)
    (hs : Script (acks ++ respBytes s.par.crcPoly gs ++ acks2) ds as s)
    {u : State} (hu : u = s.served p (l.length + (runs l).length + written.length)
      (writeEvents s.par.crcPoly p l acks ++ readEvents s.par.crcPoly p (runBursts l (runs l)) gs ++
        writeEvents s.par.crcPoly p written acks2) ds as)
    (h : NextFails false 4 u k) : FailsAt p (wrFrame s.par.crcPoly w.addr w.value) u k (stInit p s) := by
  subst hu
  have hp := ready_device hready
  have hlegal : l.all (fun w => addressOk w.addr) = true := hl ▸ userList_addressOk hready
  have hlast := commandWrites_addressOk hready (ws := [s.par.profile.clrReset, s.par.profile.balWindow])
    (by simp [commandWrites])
  rw [hw] at hlast
  obtain ⟨_, _, ds2, as2, hs1, hs2, hs3⟩ := script_split_three hs
  rw [stInit, ← hl, writeAll_served hs1 hp hlegal hk, Run.andThen_ok, readBack_matched (hs2 s p _ _) hp hlegal hf hm,
    Run.andThen_ok, if_pos rfl, State.served_served, State.served_par, hw,
    ← State.served_served (ds := ds2) (as := as2)]
  rw [← State.served_served (ds := ds2) (as := as2)] at h
  exact (writeAll_failsAt (s := s.served p _ _ ds2 as2) hp hlast hk2 (hs3 s p _ _) h).andThen _

theorem readCells_failsAt {good rest : List Burst} {b : Burst} {gs : List Resp} (hready : Ready p s)
    (hb : s.par.profile.cellBlocks = good ++ b :: rest) (hf : Fits good gs)
    (hs : Script (respBytes s.par.crcPoly gs) ds as s)
    (h : NextFails true (2 * b.count + 3) (s.served p good.length (readEvents s.par.crcPoly p good gs) ds as) k) :
    FailsAt p (rdFrame b.addr b.count) (s.served p good.length (readEvents s.par.crcPoly p good gs) ds as) k
      (readCells p s) := by
  obtain ⟨_, _, _, _, hcells, _⟩ := paramsValid_spec hready.params
  rw [readCells, hb]
  exact (readBlocks_failsAt (ready_device hready) (hb ▸ hcells) hf hs h).andThen _

theorem ready_served {n : Nat} {es : List Event} (h : Ready p s) : Ready p (s.served p n es ds as) :=
  ⟨h.params, h.count, h.pack, h.config⟩

/-- The end of a sampling state: the samples are stored, and the command write behind them fails. -/
theorem sampling_failsAt {j : Nat} {rs : List Resp} {u : State} (command : Profile → RegWrite)
    (rest : Unit → State → Run Unit) (hready : Ready p s)
    (hcommand : command s.par.profile ∈ commandWrites s.par.profile) (hf : Fits s.par.profile.cellBlocks rs)
    (hs : Script (respBytes s.par.crcPoly rs) ds as s)
    (hu : u = (storeSamples j (cellSamples s p (rs.map Resp.ws).flatten) s).served p s.par.profile.cellBlocks.length
      (readEvents s.par.crcPoly p s.par.profile.cellBlocks rs) ds as) (h : NextFails false 4 u k) :
    FailsAt p (wrFrame s.par.crcPoly (command s.par.profile).addr (command s.par.profile).value) u k
      ((readCells p s).andThen fun v t => (afeWriteReg p (command t.par.profile) (storeSamples j v t)).andThen rest) := by
  subst hu
  obtain ⟨_, _, _, _, hcells, _⟩ := paramsValid_spec hready.params
  have hp := ready_device hready
  rw [readCells_served hs hp hcells hf, Run.andThen_ok, State.served_par, State.served_storeSamples]
  exact (afeWrite_failsAt (s := (storeSamples j _ s).served p _ _ ds as) hp (commandWrite_addressOk hready hcommand)
    h).andThen _

theorem stDiag0_failsAt_neutralRead {good rest : List Burst} {b : Burst} {ack : List Byte} {gs : List Resp}
    (hready : Ready p s) (hb : s.par.profile.cellBlocks = good ++ b :: rest) (hack : ack.length = 4) (hf : Fits good gs)
    (hs : Script ([ack] ++ respBytes s.par.crcPoly gs) ds as s)
    {u : State} (hu : u = s.served p (1 + good.length)
      (transaction p (wrFrame s.par.crcPoly s.par.profile.diagUnlock.addr s.par.profile.diagUnlock.value) ack ++
        readEvents s.par.crcPoly p good gs) ds as)
    (h : NextFails true (2 * b.count + 3) u k) : FailsAt p (rdFrame b.addr b.count) u k (stDiag0 p s) := by
  subst hu
  have hunlock : addressOk s.par.profile.diagUnlock.addr = true :=
    commandWrite_addressOk hready (by simp [commandWrites])
  obtain ⟨ds1, as1, hs1, hs2⟩ := script_split hs
  rw [stDiag0, afeWriteReg_served hs1 (ready_device hready) hunlock hack, Run.andThen_ok,
    ← State.served_served (ds := ds1) (as := as1)]
  rw [← State.served_served (ds := ds1) (as := as1)] at h
  exact (readCells_failsAt (s := s.served p _ _ ds1 as1) (ready_served hready) hb hf (hs2 s p _ _) h).andThen _

theorem stDiag0_failsAt_pullUp {ack : List Byte} {rs : List Resp} (hready : Ready p s) (hack : ack.length = 4)
    (hf : Fits s.par.profile.cellBlocks rs) (hs : Script ([ack] ++ respBytes s.par.crcPoly rs) ds as s)
    {u : State} (hu : u = (storeSamples 0 (cellSamples s p (rs.map Resp.ws).flatten) s).served p
      (1 + s.par.profile.cellBlocks.length)
      (transaction p (wrFrame s.par.crcPoly s.par.profile.diagUnlock.addr s.par.profile.diagUnlock.value) ack ++
        readEvents s.par.crcPoly p s.par.profile.cellBlocks rs) ds as)
    (h : NextFails false 4 u k) :
    FailsAt p (wrFrame s.par.crcPoly s.par.profile.diagPullUp.addr s.par.profile.diagPullUp.value) u k
      (stDiag0 p s) := by
  have hunlock : addressOk s.par.profile.diagUnlock.addr = true :=
    commandWrite_addressOk hready (by simp [commandWrites])
  obtain ⟨ds1, as1, hs1, hs2⟩ := script_split hs
  rw [← State.served_served (ds := ds1) (as := as1)] at hu
  rw [stDiag0, afeWriteReg_served hs1 (ready_device hready) hunlock hack, Run.andThen_ok]
  exact sampling_failsAt (s := s.served p _ _ ds1 as1) Profile.diagPullUp _ (ready_served hready)
    (by simp [commandWrites]) hf (hs2 s p _ _) hu h

theorem stConfig_failsAt {w : RegWrite} {written rest : List RegWrite} {acks : List (List Byte)} (hready : Ready p s)
    (hw : s.par.profile.clrErrors ++ [s.par.profile.wdtArm] = written ++ w :: rest) (hk : Acks written acks)
    (hs : Script acks ds as s)
    (h : NextFails false 4 (s.served p written.length (writeEvents s.par.crcPoly p written acks) ds as) k) :
    FailsAt p (wrFrame s.par.crcPoly w.addr w.value)
      (s.served p written.length (writeEvents s.par.crcPoly p written acks) ds as) k (stConfig p s) := by
  have hlegal := configWrites_addressOk hready
  rw [hw] at hlegal
  rw [stConfig, hw]
  exact (writeAll_failsAt (ready_device hready) hlegal hk hs h).andThen _

/-- Each burst has its response. -/
theorem respBytes_length {poly : Byte} {bs : List Burst} {rs : List Resp} (h : Fits bs rs) :
    (respBytes poly rs).length = bs.length := by
  induction bs generalizing rs with
  | nil =>
    cases rs with
    | nil => rfl
    | cons r rs => exact h.elim
  | cons b bs ih =>
    cases rs with
    | nil => exact h.elim
    | cons r rs => exact congrArg Nat.succ (ih h.2)

/-- The three operations that begin with reading the cells, at a burst that fails. -/
theorem cellsRead_aborts {i : Instr} {good rest : List Burst} {b : Burst} {gs : List Resp} (hready : Ready p s)
    (hi : i ∈ [Instr.readCells p, .stDiag1 p, .stDiag2 p]) (hb : s.par.profile.cellBlocks = good ++ b :: rest)
    (hf : Fits good gs) (hs : Script (respBytes s.par.crcPoly gs) ds as s)
    (h : NextFails true (2 * b.count + 3) (s.served p good.length (readEvents s.par.crcPoly p good gs) ds as) k) :
    ∃ t, AfterFailure p (rdFrame b.addr b.count)
        (s.served p good.length (readEvents s.par.crcPoly p good gs) ds as) t ∧
      exec i s = .next (aborted p (s.tel p).state k t) := by
  have hcells := readCells_failsAt hready hb hf hs h
  simp only [List.mem_cons, List.not_mem_nil, or_false] at hi
  obtain rfl | rfl | rfl := hi
  · exact hcells.aborts hready _ _
  · exact (hcells.andThen _).aborts hready _ _
  · exact (hcells.andThen _).aborts hready _ _

/-- Each place of a transaction behind others, failed: the operation takes the abort there. -/
theorem midway_aborts {i : Instr} {a : Access} {rxs : List (List Byte)} {es : List Event} {v u : State}
    (hready : Ready p s) (hm : Midway p s i a rxs es v) (hs : Script rxs ds as s)
    (hu : u = { v with sel := linesAfter rxs.length p s, trace := s.trace ++ es, env := envAfter s ds as })
    (hfail : a.Fails u k) :
    ∃ t, AfterFailure p (a.frame s.par.crcPoly) u t ∧ exec i s = .next (aborted p (s.tel p).state k t) := by
  cases hm with
  | mosfetsOff e0 e1 w hw => exact (stWaitinit_failsAt_mosfetsOff hready hw hs hu hfail).aborts hready _ _
  | balancerOff e0 e1 w ack hw hack => exact (stWaitinit_failsAt_balancerOff hready hw hack hs hu hfail).aborts hready _ _
  | userWrite w written rest acks hlist hk =>
    rw [hk.1] at hu
    subst hu
    exact (stInit_failsAt_userWrite hready hlist hk hs hfail).aborts hready _ _
  | readback l r good rest acks gs hl hk hruns hf hm =>
    rw [List.length_append, hk.1, respBytes_length hf, runBursts, List.length_map] at hu
    exact (stInit_failsAt_readback hready hl hk hruns hf hm hs hu hfail).aborts hready _ _
  | afterReadback l w written rest acks acks2 gs hl hk hf hm hw hk2 =>
    rw [List.length_append, List.length_append, hk.1, hk2.1, respBytes_length hf, runBursts, List.length_map] at hu
    exact (stInit_failsAt_afterReadback hready hl hk hf hm hw hk2 hs hu hfail).aborts hready _ _
  | neutralRead b good rest ack gs hb hack hf =>
    rw [List.length_cons, respBytes_length hf, Nat.add_comm] at hu
    exact (stDiag0_failsAt_neutralRead hready hb hack hf hs hu hfail).aborts hready _ _
  | pullUp ack rs buf hack hf hbuf =>
    obtain rfl := eq_writeSamples_of_stored (by decide) hbuf
    rw [List.length_cons, respBytes_length hf, Nat.add_comm] at hu
    exact (stDiag0_failsAt_pullUp hready hack hf hs hu hfail).aborts hready _ _
  | cellsRead i b good rest gs hi hb hf =>
    rw [respBytes_length hf] at hu
    subst hu
    exact cellsRead_aborts hready hi hb hf hs hfail
  | pullDown rs buf hf hbuf =>
    obtain rfl := eq_writeSamples_of_stored (by decide) hbuf
    rw [respBytes_length hf] at hu
    exact (sampling_failsAt Profile.diagPullDown _ hready (by simp [commandWrites]) hf hs hu hfail).aborts hready _ _
  | diagClear rs buf hf hbuf =>
    obtain rfl := eq_writeSamples_of_stored (by decide) hbuf
    rw [respBytes_length hf] at hu
    exact (sampling_failsAt Profile.diagClear _ hready (by simp [commandWrites]) hf hs hu hfail).aborts hready _ _
  | configWrite w written rest acks hw hk =>
    rw [hk.1] at hu
    subst hu
    exact (stConfig_failsAt hready hw hk hs hfail).aborts hready _ _
  | telemetryRead b good rest gs hb hf =>
    rw [respBytes_length hf] at hu
    subst hu
    exact FailsAt.aborts (readTelemetry_fails hready hb hf hs hfail) hready _ _

/-- An operation that ends in an abort has been quiet, and its end is the abort. -/
theorem Ended.of_aborted {idle : Prop} {t : State} (h : Ended p idle s t) (hidle : ¬idle)
    (hres : t.result = .aborted k) : ∃ u, Quiet p s u ∧ t = takeAbort p (s.tel p).state k u := by
  cases h with
  | done u r _ hr => exact absurd hres (hr k)
  | same hi => exact absurd hi hidle
  | abort u j hu =>
    obtain rfl : j = k := OpResult.aborted.inj hres
    exact ⟨u, hu, rfl⟩

end

/-- Settles O17: an abort is taken after quiet work, and each place behind other transactions takes it. -/
theorem abortKeepsStateAndReports : Obligations.AbortKeepsStateAndReports := by
  refine ⟨fun p c i s t k hi hnot hcode h hres => ?_, fun p i a rxs es s v u ds as k => midway_aborts⟩
  have hidle : ¬(i = .stDisabled p ∨ i = .packStep p ∧ (s.tel p).state = codeDisabled) := by
    rintro (hd | ⟨hp, hz⟩)
    · exact hnot hd
    · exact hcode hp hz
  obtain ⟨u, hu, rfl⟩ := (ended_of_packOp hi h).of_aborted hidle hres
  obtain ⟨es, htrace, hes⟩ := hu.silent
  exact ⟨hu.code, hu.lock, es, by rw [takeAbort_trace, htrace], hes⟩

/-! ## The first transaction (60_exceptions.md R310; 95_test_vectors.md 5.7) -/

section
variable {p : Nat} {s : State} {k : ErrKind}

/-- A place of `Midway` that no transaction came before. -/
theorem midway_first_aborts {i : Instr} {a : Access} (hready : Ready p s) (hm : Midway p s i a [] [] s)
    (hfail : a.Fails s k) :
    ∃ t, AfterFailure p (a.frame s.par.crcPoly) s t ∧ exec i s = .next (aborted p (s.tel p).state k t) :=
  midway_aborts (ds := s.env.drives) (as := s.env.answers) hready hm ⟨rfl, rfl⟩ (by simp [linesAfter, envAfter]) hfail

theorem firstRead_aborts {c : Cmd} {i : Instr} {b : Burst} (hready : Ready p s) (hb : FirstRead p c s i b)
    (hfail : NextFails true (2 * b.count + 3) s k) :
    ∃ t, AfterFailure p (rdFrame b.addr b.count) s t ∧ exec i s = .next (aborted p (s.tel p).state k t) := by
  obtain ⟨hi, rfl⟩ | ⟨hi, hhead⟩ | ⟨hi, hhead⟩ := hb
  · obtain ⟨_, hstatus, _⟩ := paramsValid_spec hready.params
    have hread : FailsAt p _ s k (readStatus p s) :=
      (afeRead_failsAt (ready_device hready) (by simp [burstValid, hstatus, countOk]) hfail).andThen _
    simp only [List.mem_cons, List.not_mem_nil, or_false] at hi
    obtain rfl | rfl := hi
    · exact hread.aborts hready _ _
    · exact (hread.andThen _).aborts hready _ _
  · obtain ⟨rest, hrest⟩ := List.head?_eq_some_iff.1 hhead
    exact midway_first_aborts hready (.cellsRead i b [] rest [] hi hrest trivial) hfail
  · obtain ⟨rest, hrest⟩ := List.head?_eq_some_iff.1 hhead
    obtain rfl | hi := List.mem_cons.1 hi
    · exact midway_first_aborts hready (.telemetryRead b [] rest [] hrest trivial) hfail
    · exact (runBodyAborts p c i s k hi).1 [] b rest [] s.env.drives s.env.answers s hready hrest trivial ⟨rfl, rfl⟩
        (by simp [linesAfter, readEvents, envAfter]) hfail

theorem acks_nil : Acks [] [] := ⟨rfl, by simp⟩

/-- The first write of `ST_INIT`: of the user register list or, where that is empty, behind a readback of no run. -/
theorem stInit_first_midway {w : RegWrite}
    (hw : (userList (s.cfg p).userRegs ++ [s.par.profile.clrReset]).head? = some w) :
    Midway p s (.stInit p) (.write w) [] [] s := by
  cases hlist : userList (s.cfg p).userRegs with
  | nil =>
    obtain rfl : s.par.profile.clrReset = w := by simpa [hlist] using hw
    exact .afterReadback [] _ [] _ [] [] [] hlist.symm acks_nil trivial rfl rfl acks_nil
  | cons x rest =>
    obtain rfl : x = w := by simpa [hlist] using hw
    exact .userWrite x [] rest [] hlist acks_nil

theorem firstWrite_aborts {i : Instr} {w : RegWrite} (hready : Ready p s) (hw : FirstWrite p s i w)
    (hfail : NextFails false 4 s k) :
    ∃ t, AfterFailure p (wrFrame s.par.crcPoly w.addr w.value) s t ∧
      exec i s = .next (aborted p (s.tel p).state k t) := by
  obtain ⟨rfl, hhead⟩ | ⟨rfl, rfl⟩ | ⟨rfl, hhead⟩ | ⟨rfl, rfl⟩ := hw
  · exact midway_first_aborts hready (stInit_first_midway hhead) hfail
  · have hunlock : addressOk s.par.profile.diagUnlock.addr = true :=
      commandWrite_addressOk hready (by simp [commandWrites])
    exact ((afeWrite_failsAt (ready_device hready) hunlock hfail).andThen _).aborts hready _ _
  · obtain ⟨rest, hrest⟩ := List.head?_eq_some_iff.1 hhead
    exact midway_first_aborts hready (.configWrite w [] rest [] hrest acks_nil) hfail
  · obtain ⟨_, _, _, _, _, _, hbal⟩ := paramsValid_spec hready.params
    exact ((afeWrite_failsAt (ready_device hready) (hbal _ _) hfail).andThen _).aborts hready _ _

end

/-- Settles O18: by the operations that read first and those that write first. -/
theorem failedFirstTransactionAborts : Obligations.FailedFirstTransactionAborts := fun _ _ _ _ _ hready =>
  ⟨fun _ => firstRead_aborts hready, fun _ => firstWrite_aborts hready⟩

end Sys2Proof.Machine

/-! SUPPORT. What an operation of a pack leaves of the lock, the buffer, the lines and the trace, that it passes no argument
out of range, that it does not depend on another pack, and what it sends outside the steady states; with the statements of
60_exceptions.md and 70_reset_and_hazards.md they settle. -/

namespace Sys2Proof.Machine

open Sys2Proof.Safety

/-! ## The lock and the buffer (10_state.md R40, R41) -/

/-- The diagnostic lock and the diagnostic buffer stand as they did. -/
structure DiagKept (s t : State) : Prop where
  lock : t.diagLock = s.diagLock
  buf : t.diagBuf = s.diagBuf

theorem DiagKept.refl (s : State) : DiagKept s s := ⟨rfl, rfl⟩

theorem DiagKept.trans {s t u : State} (h1 : DiagKept s t) (h2 : DiagKept t u) : DiagKept s u :=
  ⟨h2.lock.trans h1.lock, h2.buf.trans h1.buf⟩

theorem DiagKept.of_busOf {p : Nat} {s t : State} (h : BusOf p s t) : DiagKept s t := ⟨h.only.diagLock, h.only.diagBuf⟩

theorem setTel_diagKept (s : State) (p : Nat) (tel : Telemetry) : DiagKept s (s.setTel p tel) := ⟨rfl, rfl⟩

theorem diagKept_andThen {α β : Type} {s : State} {r : Run α} {f : α → State → Run β} (h1 : DiagKept s r.state)
    (h2 : ∀ a t, DiagKept t (f a t).state) : DiagKept s (r.andThen f).state :=
  Run.andThen_keeps (P := DiagKept s) h1 fun a t ht => ht.trans (h2 a t)

theorem finished_diagKept {α : Type} {s : State} {r : Run α} (h : DiagKept s r.state) (p : Nat) (c : BitVec 4)
    (f : α → OpResult) : DiagKept s (r.finished p c f) := by
  rcases r with ⟨a | k, t⟩ <;> exact ⟨h.lock, h.buf⟩

theorem MeasurementsKept.diagKept {p : Nat} {s t : State} (h : MeasurementsKept p s t) : DiagKept s t := by
  obtain ⟨tel, rfl, _⟩ := h
  exact setTel_diagKept s p tel

theorem stWaitinit_diagKept (p : Nat) (s : State) : DiagKept s (stWaitinit p s).state := by
  refine diagKept_andThen (.of_busOf (readStatus_busOf p s)) fun code t => ?_
  split
  · refine diagKept_andThen (.of_busOf (afeWrite_busOf p _ _ t)) fun _ u => ?_
    exact diagKept_andThen ((setTel_diagKept u p _).trans (.of_busOf (afeWriteReg_busOf p _ _))) fun _ w =>
      setTel_diagKept w p _
  · exact .refl t

theorem stInit_diagKept (p : Nat) (s : State) : DiagKept s (stInit p s).state := by
  refine diagKept_andThen (.of_busOf (writeAll_busOf p _ s)) fun _ t => ?_
  refine diagKept_andThen (.of_busOf (readBack_busOf p _ _ t)) fun matched u => ?_
  split
  · exact diagKept_andThen (.of_busOf (writeAll_busOf p _ u)) fun _ w => setTel_diagKept w p _
  · exact ⟨rfl, rfl⟩

theorem stConfig_diagKept (p : Nat) (s : State) : DiagKept s (stConfig p s).state :=
  diagKept_andThen (.of_busOf (writeAll_busOf p _ s)) fun _ t => setTel_diagKept t p _

theorem stError_diagKept (p : Nat) (c : Cmd) (s : State) : DiagKept s (stError p c s) := by
  unfold stError
  split <;> exact ⟨rfl, rfl⟩

theorem readTelemetry_diagKept (p : Nat) (s : State) : DiagKept s (readTelemetry p s).state :=
  diagKept_andThen (.of_busOf (readBlocks_busOf p _ s)) fun _ t => setTel_diagKept t p _

theorem runBody_diagKept (p : Nat) (c : Cmd) (s : State) : DiagKept s (runBody p c s).state := by
  refine diagKept_andThen (readTelemetry_diagKept p s) fun _ t => ?_
  refine (runStages_measurementsKept p c t).diagKept.trans ?_
  refine diagKept_andThen (.of_busOf (afeWrite_busOf p _ _ _)) fun _ u => ?_
  refine (setDrive_measurementsKept p u (runDrive p c (runStages p c t))).diagKept.trans ?_
  exact diagKept_andThen (.of_busOf (balanceIfDue_busOf p _)) fun _ w => (nextRunState_measurementsKept p w).diagKept

/-- The end of an operation that keeps them. -/
theorem onPack_diagKept {α : Type} {p : Nat} {s t : State} {r : Run α} {c : BitVec 4} {f : α → OpResult}
    (hr : DiagKept s r.state) (h : onPack p s (r.finished p c f) = .next t) : DiagKept s t := by
  rw [(onPack_next h).1]
  exact finished_diagKept hr p c f

/-- The end of an operation without a transaction that keeps them. -/
theorem onPack_done_diagKept {p : Nat} {s t u : State} (hu : DiagKept s u)
    (h : onPack p s (u.setResult .done) = .next t) : DiagKept s t := by
  rw [(onPack_next h).1]
  exact ⟨hu.lock, hu.buf⟩

theorem exec_stDisabled_next {p : Nat} {s t : State} (h : exec (.stDisabled p) s = .next t) : t = s := by
  simp only [exec, execStDisabled, onSlot] at h
  split at h <;> cases h
  rfl

/-- The operations that write the lock or the buffer, `PACK_STEP` among them. -/
def diagWriters (p : Nat) : List Instr := [.packStep p, .stWaitdiag0 p, .stDiag0 p, .stDiag1 p, .stDiag2 p]

/-- Every other operation of a pack keeps both. -/
theorem exec_diagKept {p : Nat} {c : Cmd} {i : Instr} {s t : State} (hi : i ∈ packOps p c) (hnot : i ∉ diagWriters p)
    (h : exec i s = .next t) : DiagKept s t := by
  simp only [diagWriters, List.mem_cons, List.not_mem_nil, or_false, not_or] at hnot
  obtain ⟨h1, h2, h3, h4, h5⟩ := hnot
  simp only [packOps, List.mem_cons, List.not_mem_nil, or_false, h1, h2, h3, h4, h5, false_or] at hi
  rcases hi with rfl | rfl | rfl | rfl | rfl | rfl | rfl | rfl | rfl | rfl | rfl | rfl | rfl | rfl | rfl | rfl | rfl |
    rfl | rfl
  · rw [exec_stDisabled_next h]
    exact .refl s
  · exact onPack_diagKept (stWaitinit_diagKept p s) h
  · exact onPack_diagKept (stInit_diagKept p s) h
  · exact onPack_done_diagKept (setTel_diagKept s p _) h
  · exact onPack_done_diagKept (setTel_diagKept s p _) h
  · exact onPack_diagKept (stConfig_diagKept p s) h
  · exact onPack_diagKept (runBody_diagKept p c s) h
  · exact onPack_diagKept (runBody_diagKept p c s) h
  · exact onPack_diagKept (runBody_diagKept p c s) h
  · exact onPack_done_diagKept (stError_diagKept p c s) h
  · exact onPack_diagKept (.of_busOf (readStatus_busOf p s)) h
  · exact onPack_diagKept (.of_busOf (readCells_busOf p s)) h
  · exact onPack_diagKept (readTelemetry_diagKept p s) h
  · exact onPack_diagKept (runBody_diagKept p c s) h
  · exact onPack_done_diagKept (nextRunState_measurementsKept p s).diagKept h
  · exact onPack_done_diagKept (setTel_diagKept s p _) h
  · exact onPack_done_diagKept (setTel_diagKept s p _) h
  · exact onPack_done_diagKept (setTel_diagKept s p _) h
  · exact onPack_diagKept (.of_busOf (balance_busOf p s)) h

theorem stWaitdiag0_diagBuf (p : Nat) (s : State) : (stWaitdiag0 p s).diagBuf = s.diagBuf := by
  obtain ⟨_, h⟩ | ⟨_, h⟩ := stWaitdiag0_cases p s <;> rw [h]
  rfl

theorem exec_stWaitdiag0_diagBuf {p : Nat} {s t : State} (h : exec (.stWaitdiag0 p) s = .next t) :
    t.diagBuf = s.diagBuf := by
  rw [exec_stWaitdiag0] at h
  rw [(onPack_next h).1]
  exact stWaitdiag0_diagBuf p s

/-- `ST_DIAG0` and `ST_DIAG1` leave the lock with its owner. -/
theorem exec_sampling_diagLock {p : Nat} {i : Instr} {s t : State} (hi : i ∈ [Instr.stDiag0 p, .stDiag1 p])
    (h : exec i s = .next t) : t.diagLock = s.diagLock := by
  simp only [List.mem_cons, List.not_mem_nil, or_false] at hi
  obtain rfl | rfl := hi
  · rw [exec_stDiag0] at h
    rw [(onPack_next h).1, Run.finished_diagLock]
    exact (stDiag0_moves p s).lock
  · rw [exec_stDiag1] at h
    rw [(onPack_next h).1, Run.finished_diagLock]
    exact (stDiag1_moves p s).lock

theorem packStep_diagLock {p : Nat} {s t : State} (hcode : (s.tel p).state ∉ [codeWaitDiag0, codeDiag2])
    (h : exec (.packStep p) s = .next t) : t.diagLock = s.diagLock := by
  obtain rfl | ⟨r, hr, rfl⟩ := packStep_stateOp h
  · rfl
  rw [Run.finished_diagLock]
  cases hr.register with
  | stays hlock _ => exact hlock
  | moves hlock _ _ => exact hlock
  | acquires _ _ hfrom _ => simp [hfrom] at hcode
  | releases _ hfrom _ => simp [hfrom] at hcode

/-- The sampling states are what their codes select, and no other code. -/
theorem decodeState_not_sampling {p : Nat} {c : Cmd} {code : BitVec 4} {i : Instr} (h : decodeState p c code = .ok i)
    (hcode : code ∉ [codeDiag0, codeDiag1, codeDiag2]) : i ∉ [Instr.stDiag0 p, .stDiag1 p, .stDiag2 p] := by
  intro hi
  have hform := encode_of_decodeState refParams h
  simp only [List.mem_cons, List.not_mem_nil, or_false] at hi
  refine hcode ?_
  obtain rfl | rfl | rfl := hi <;>
    simp only [encode, Option.some.injEq, Coded.state.injEq] at hform <;>
    obtain ⟨_, _, rfl⟩ | ⟨_, _, rfl⟩ := hform <;> decide

theorem packStep_diagBuf {p : Nat} {s t : State} (hcode : (s.tel p).state ∉ [codeDiag0, codeDiag1, codeDiag2])
    (h : exec (.packStep p) s = .next t) : t.diagBuf = s.diagBuf := by
  obtain ⟨_, i, hi, hx⟩ := packStep_next h
  have hnot := decodeState_not_sampling hi hcode
  have hop := decodeState_mem hi
  have hstep : i ≠ .packStep p := by
    rintro rfl
    simp [packOps] at hop
  by_cases hlock : i = .stWaitdiag0 p
  · subst hlock
    exact exec_stWaitdiag0_diagBuf hx
  · exact (exec_diagKept (List.mem_of_mem_tail hop) (by simp_all [diagWriters]) hx).buf

/-! ## The operations without a transaction -/

/-- The lines and the trace stand as they did. -/
structure BusIdle (s t : State) : Prop where
  sel : t.sel = s.sel
  trace : t.trace = s.trace

theorem MeasurementsKept.busIdle {p : Nat} {s t : State} (h : MeasurementsKept p s t) : BusIdle s t := by
  obtain ⟨tel, rfl, _⟩ := h
  exact ⟨rfl, rfl⟩

theorem setTel_busIdle (s : State) (p : Nat) (tel : Telemetry) : BusIdle s (s.setTel p tel) := ⟨rfl, rfl⟩

theorem stWaitdiag0_busIdle (p : Nat) (s : State) : BusIdle s (stWaitdiag0 p s) := by
  obtain ⟨_, h⟩ | ⟨_, h⟩ := stWaitdiag0_cases p s <;> rw [h] <;> exact ⟨rfl, rfl⟩

theorem stError_busIdle (p : Nat) (c : Cmd) (s : State) : BusIdle s (stError p c s) := by
  unfold stError
  split <;> exact ⟨rfl, rfl⟩

theorem onPack_done_busIdle {p : Nat} {s t u : State} (hu : BusIdle s u)
    (h : onPack p s (u.setResult .done) = .next t) : BusIdle s t := by
  rw [(onPack_next h).1]
  exact ⟨hu.sel, hu.trace⟩

theorem exec_busIdle {p : Nat} {c : Cmd} {i : Instr} {s t : State}
    (hi : i ∈ [Instr.stDisabled p, .stWaitdiag0 p, .stWaitdiag1 p, .stWaitdiag2 p, .stError p c, .nextRunState p,
      .limits p, .i2t p, .alerts p]) (h : exec i s = .next t) : BusIdle s t := by
  simp only [List.mem_cons, List.not_mem_nil, or_false] at hi
  rcases hi with rfl | rfl | rfl | rfl | rfl | rfl | rfl | rfl | rfl
  · rw [exec_stDisabled_next h]
    exact ⟨rfl, rfl⟩
  · exact onPack_done_busIdle (stWaitdiag0_busIdle p s) h
  · exact onPack_done_busIdle (setTel_busIdle s p _) h
  · exact onPack_done_busIdle (setTel_busIdle s p _) h
  · exact onPack_done_busIdle (stError_busIdle p c s) h
  · exact onPack_done_busIdle (nextRunState_measurementsKept p s).busIdle h
  · exact onPack_done_busIdle (setTel_busIdle s p _) h
  · exact onPack_done_busIdle (setTel_busIdle s p _) h
  · exact onPack_done_busIdle (setTel_busIdle s p _) h

/-! ## An operation of a pack serves its pack (60_exceptions.md R303, R320, R323) -/

theorem Ended.packOnly {p : Nat} {idle : Prop} {s t : State} (h : Ended p idle s t) : PackOnly p s t := by
  cases h with
  | done u r hu _ => exact hu.packOnly r
  | same _ => exact (Serves.refl p s).packOnly s.result
  | abort u k hu => exact hu.toServes.packOnly_abort _ k

/-- With the lock and the buffer kept too, only the record is left to change. -/
theorem telOnly_of_packOnly {p : Nat} {s t : State} (h : PackOnly p s t) (hkept : DiagKept s t) : TelOnly p s t := by
  obtain ⟨tel, lock, buf, lines, es, env, r, rfl⟩ := h
  obtain ⟨rfl, rfl⟩ : lock = s.diagLock ∧ buf = s.diagBuf := ⟨hkept.lock, hkept.buf⟩
  exact ⟨tel, lines, es, env, r, rfl⟩

/-- Settles O35: what each operation ends in, and which of them write the lock, the buffer, the lines and the trace. -/
theorem packOpsServeTheirPack : Obligations.PackOpsServeTheirPack := by
  intro p c i s t hi h
  have honly := (ended_of_packOp hi h).packOnly
  refine ⟨honly, fun hnot => telOnly_of_packOnly honly (exec_diagKept hi hnot h), fun hs => exec_sampling_diagLock hs h,
    ?_, ?_, fun hidle => ⟨(exec_busIdle hidle h).sel, (exec_busIdle hidle h).trace⟩⟩
  · rintro rfl
    exact exec_stWaitdiag0_diagBuf h
  · rintro rfl
    exact ⟨fun hcode => packStep_diagLock hcode h, fun hcode => packStep_diagBuf hcode h⟩

/-! ## No argument out of range (60_exceptions.md R300) -/

/-- A run that does not fail with `BadArgument`. -/
def Legal {α : Type} (r : Run α) : Prop := r.reply ≠ .err .badArgument

theorem legal_pure {α : Type} (a : α) (s : State) : Legal (.pure a s) := by simp [Legal]

/-- What serves a pack that may run leaves it one. -/
theorem ready_of_serves {p : Nat} {s t : State} (hready : Ready p s) (h : Serves p s t) : Ready p t :=
  ⟨h.par ▸ hready.params, by rw [h.length, h.par, hready.count], h.length ▸ hready.pack,
    by rw [h.par, h.cfg, hready.config]⟩

theorem legal_andThen {α β : Type} {p : Nat} {s : State} {r : Run α} {f : α → State → Run β} (hready : Ready p s)
    (hr : Quiet p s r.state) (h1 : Legal r) (h2 : ∀ a t, Ready p t → Legal (f a t)) : Legal (r.andThen f) := by
  have hready' := ready_of_serves hready hr.toServes
  rcases r with ⟨a | k, t⟩
  · exact h2 a t hready'
  · simpa [Legal] using h1

section
variable {p : Nat} {s : State}

theorem afeWrite_legal {a : Nat} (v : Word) (hready : Ready p s) (ha : addressOk a = true) :
    Legal (afeWrite p a v s) := by
  have hp := ready_device hready
  unfold afeWrite
  obtain ⟨hout, _⟩ | ⟨_, n, hsel⟩ | ⟨_, n, k, hsel⟩ := select_cases p s
  · omega
  · rw [hsel, Run.andThen_ok]
    obtain ⟨hbad, _⟩ | ⟨_, ans, m, hwr⟩ := wrreg_cases a v
      { s with sel := selLines s.par.nsel p, trace := s.trace ++ [.sel p true], env := n }
    · simp [ha] at hbad
    · rw [hwr, Legal]
      split <;> simp
  · rw [hsel, Run.andThen_err]
    simp [Legal]

theorem afeRead_legal {a n : Nat} (hready : Ready p s) (hb : burstValid ⟨a, n⟩ = true) :
    Legal (afeRead p a n s) := by
  have hp := ready_device hready
  simp only [burstValid, Bool.and_eq_true] at hb
  obtain ⟨ha, hn⟩ := hb
  rw [afeRead_of_countOk p a s hn]
  obtain ⟨hout, _⟩ | ⟨_, m, hsel⟩ | ⟨_, m, k, hsel⟩ := select_cases p s
  · omega
  · rw [hsel, Run.andThen_ok]
    obtain ⟨hbad, _⟩ | ⟨_, ans, m', r, hrd, hr⟩ := rdreg_cases a n
      { s with sel := selLines s.par.nsel p, trace := s.trace ++ [.sel p true], env := m }
    · simp [ha, hn] at hbad
    · rw [hrd, Legal]
      obtain ⟨_, rfl⟩ | ⟨rx, _, _, rfl⟩ := hr
      · simp
      · split <;> simp
  · rw [hsel, Run.andThen_err]
    simp [Legal]

theorem command_legal {w : RegWrite} (hready : Ready p s) (hw : w ∈ commandWrites s.par.profile) :
    Legal (afeWriteReg p w s) :=
  afeWrite_legal w.value hready (commandWrite_addressOk hready hw)

theorem writeAll_legal {ws : List RegWrite} (hready : Ready p s) (hws : ws.all (fun w => addressOk w.addr) = true) :
    Legal (writeAll p ws s) := by
  induction ws generalizing s with
  | nil => exact legal_pure () s
  | cons w ws ih =>
    simp only [List.all_cons, Bool.and_eq_true] at hws
    exact legal_andThen hready (afeWriteReg_busOf p w s).quiet (afeWrite_legal w.value hready hws.1) fun _ _ ht =>
      ih ht hws.2

theorem readBlocks_legal {bs : List Burst} (hready : Ready p s) (hbs : bs.all burstValid = true) :
    Legal (readBlocks p bs s) := by
  induction bs generalizing s with
  | nil => exact legal_pure [] s
  | cons b bs ih =>
    simp only [List.all_cons, Bool.and_eq_true] at hbs
    exact legal_andThen hready (afeRead_busOf p _ _ s).quiet (afeRead_legal hready hbs.1) fun _ t ht =>
      legal_andThen ht (readBlocks_busOf p bs t).quiet (ih ht hbs.2) fun _ u _ => legal_pure _ u

/-- Readback of some of the runs of a list in range. -/
theorem readBack_legal {l : List RegWrite} {rs : List (Nat × Nat)} (hready : Ready p s)
    (hrs : (runBursts l rs).all burstValid = true) : Legal (readBack p l rs s) := by
  induction rs generalizing s with
  | nil => exact legal_pure true s
  | cons r rs ih =>
    simp only [runBursts, List.map_cons, List.all_cons, Bool.and_eq_true] at hrs
    refine legal_andThen hready (afeRead_busOf p _ _ s).quiet (afeRead_legal hready hrs.1) fun ws t ht => ?_
    split
    · exact ih ht hrs.2
    · exact legal_pure false t

theorem readStatus_legal (hready : Ready p s) : Legal (readStatus p s) := by
  obtain ⟨_, hstatus, _⟩ := paramsValid_spec hready.params
  have hburst : burstValid ⟨s.par.profile.statusAddr, 1⟩ = true := by simp [burstValid, hstatus, countOk]
  exact legal_andThen hready (afeRead_busOf p _ _ s).quiet (afeRead_legal hready hburst) fun _ t _ => legal_pure _ t

theorem readCells_legal (hready : Ready p s) : Legal (readCells p s) := by
  obtain ⟨_, _, _, _, hcells, _⟩ := paramsValid_spec hready.params
  exact legal_andThen hready (readBlocks_busOf p _ s).quiet (readBlocks_legal hready hcells) fun _ t _ => legal_pure _ t

theorem readTelemetry_legal (hready : Ready p s) : Legal (readTelemetry p s) := by
  obtain ⟨_, _, _, _, _, htelem, _⟩ := paramsValid_spec hready.params
  exact legal_andThen hready (readBlocks_busOf p _ s).quiet (readBlocks_legal hready htelem) fun _ t _ => legal_pure _ _

theorem balance_legal (hready : Ready p s) : Legal (balance p s) := by
  obtain ⟨_, _, _, _, _, _, hbal⟩ := paramsValid_spec hready.params
  exact legal_andThen hready (afeWriteReg_busOf p _ s).quiet (afeWrite_legal _ hready (hbal _ _)) fun _ t _ =>
    legal_pure _ t

theorem stWaitinit_legal (hready : Ready p s) : Legal (stWaitinit p s) := by
  refine legal_andThen hready (readStatus_busOf p s).quiet (readStatus_legal hready) fun code t ht => ?_
  obtain ⟨_, _, hmosfet, _⟩ := paramsValid_spec ht.params
  split
  · refine legal_andThen ht (afeWrite_busOf p _ _ t).quiet (afeWrite_legal 0 ht hmosfet) fun _ u hu => ?_
    have hoff := Quiet.setDrive p u 0
    have hready' := ready_of_serves hu hoff.toServes
    exact legal_andThen hready' (afeWriteReg_busOf p _ _).quiet (command_legal hready' (by simp [commandWrites]))
      fun _ w _ => legal_pure _ _
  · exact legal_pure () t

theorem stInit_legal (hready : Ready p s) : Legal (stInit p s) := by
  have huser := userList_addressOk hready
  refine legal_andThen hready (writeAll_busOf p _ s).quiet (writeAll_legal hready huser) fun _ t ht => ?_
  refine legal_andThen ht (readBack_busOf p _ _ t).quiet
    (readBack_legal ht (runBursts_valid huser fun _ hr => hr)) fun matched u hu => ?_
  split
  · have hlast := commandWrites_addressOk hu (ws := [u.par.profile.clrReset, u.par.profile.balWindow])
      (by simp [commandWrites])
    exact legal_andThen hu (writeAll_busOf p _ u).quiet (writeAll_legal hu hlast) fun _ w _ => legal_pure _ _
  · exact legal_pure _ _

/-- The end of a sampling state: the samples are stored, then comes a command write. -/
theorem sampling_legal {j : Nat} (command : Profile → RegWrite) (rest : Unit → State → Run Unit) (hready : Ready p s)
    (hcommand : ∀ f, command f ∈ commandWrites f) (hrest : ∀ t, Legal (rest () t)) :
    Legal ((readCells p s).andThen fun v t =>
      (afeWriteReg p (command t.par.profile) (storeSamples j v t)).andThen rest) := by
  refine legal_andThen hready (readCells_busOf p s).quiet (readCells_legal hready) fun v t ht => ?_
  have hready' := ready_of_serves ht (Quiet.storeSamples p j v t).toServes
  exact legal_andThen hready' (afeWriteReg_busOf p _ _).quiet (command_legal hready' (hcommand _)) fun _ u _ => hrest u

theorem stDiag0_legal (hready : Ready p s) : Legal (stDiag0 p s) :=
  legal_andThen hready (afeWriteReg_busOf p _ s).quiet (command_legal hready (by simp [commandWrites])) fun _ _ ht =>
    sampling_legal Profile.diagPullUp _ ht (by simp [commandWrites]) fun _ => legal_pure _ _

theorem stDiag1_legal (hready : Ready p s) : Legal (stDiag1 p s) :=
  sampling_legal Profile.diagPullDown _ hready (by simp [commandWrites]) fun _ => legal_pure _ _

theorem stDiag2_legal (hready : Ready p s) : Legal (stDiag2 p s) :=
  sampling_legal Profile.diagClear _ hready (by simp [commandWrites]) fun _ => legal_pure _ _

theorem stConfig_legal (hready : Ready p s) : Legal (stConfig p s) :=
  legal_andThen hready (writeAll_busOf p _ s).quiet (writeAll_legal hready (configWrites_addressOk hready))
    fun _ _ _ => legal_pure _ _

theorem balanceIfDue_legal (hready : Ready p s) : Legal (balanceIfDue p s) := by
  unfold balanceIfDue
  split
  · exact legal_andThen hready (balance_busOf p s).quiet (balance_legal hready) fun _ t _ => legal_pure () t
  · exact legal_pure () s

theorem runBody_legal (c : Cmd) (hready : Ready p s) : Legal (runBody p c s) := by
  refine legal_andThen hready (readTelemetry_quiet p s) (readTelemetry_legal hready) fun _ t ht => ?_
  have hstages := ready_of_serves ht (runStages_quiet p c t).toServes
  obtain ⟨_, _, hmosfet, _⟩ := paramsValid_spec hstages.params
  refine legal_andThen hstages (afeWrite_busOf p _ _ _).quiet (afeWrite_legal _ hstages hmosfet) fun _ u hu => ?_
  have hdriven := ready_of_serves hu (Quiet.setDrive p u (runDrive p c (runStages p c t))).toServes
  exact legal_andThen hdriven (balanceIfDue_busOf p _).quiet (balanceIfDue_legal hdriven) fun _ _ _ => legal_pure _ _

end

/-- The end of a legal run is no abort of the kind `BadArgument`. -/
theorem onPack_legal {α : Type} {p : Nat} {s t : State} {r : Run α} {c : BitVec 4} {f : α → OpResult} (hr : Legal r)
    (hf : ∀ a, f a ≠ .aborted .badArgument) (h : onPack p s (r.finished p c f) = .next t) :
    t.result ≠ .aborted .badArgument := by
  rw [(onPack_next h).1]
  rcases hrun : r with ⟨a | k, u⟩
  · exact hf a
  · rw [Run.finished_result_of_err rfl]
    simpa [Legal, hrun] using hr

theorem onPack_done_result {p : Nat} {s t u : State} (h : onPack p s (u.setResult .done) = .next t) :
    t.result ≠ .aborted .badArgument := by
  rw [(onPack_next h).1]
  simp

/-- No operation of a pack that may run ends in such an abort; only `ST_DISABLED` leaves the result of the operation before
it. -/
theorem exec_legal {p : Nat} {c : Cmd} {i : Instr} {s t : State} (hi : i ∈ (packOps p c).tail) (hready : Ready p s)
    (h : exec i s = .next t) : t = s ∨ t.result ≠ .aborted .badArgument := by
  by_cases hdisabled : i = .stDisabled p
  · subst hdisabled
    exact .inl (exec_stDisabled_next h)
  right
  simp only [packOps, List.tail_cons, List.mem_cons, List.not_mem_nil, or_false, hdisabled, false_or] at hi
  rcases hi with rfl | rfl | rfl | rfl | rfl | rfl | rfl | rfl | rfl | rfl | rfl | rfl | rfl | rfl | rfl | rfl | rfl |
    rfl | rfl | rfl | rfl | rfl
  · exact onPack_legal (stWaitinit_legal hready) (by simp) h
  · exact onPack_legal (stInit_legal hready) (by simp) h
  · exact onPack_done_result h
  · exact onPack_legal (stDiag0_legal hready) (by simp) h
  · exact onPack_done_result h
  · exact onPack_legal (stDiag1_legal hready) (by simp) h
  · exact onPack_done_result h
  · exact onPack_legal (stDiag2_legal hready) (by simp) h
  · exact onPack_legal (stConfig_legal hready) (by simp) h
  · exact onPack_legal (runBody_legal c hready) (by simp) h
  · exact onPack_legal (runBody_legal c hready) (by simp) h
  · exact onPack_legal (runBody_legal c hready) (by simp) h
  · exact onPack_done_result h
  · exact onPack_legal (readStatus_legal hready) (by simp) h
  · exact onPack_legal (readCells_legal hready) (by simp) h
  · exact onPack_legal (readTelemetry_legal hready) (by simp) h
  · exact onPack_legal (runBody_legal c hready) (by simp) h
  · exact onPack_done_result h
  · exact onPack_done_result h
  · exact onPack_done_result h
  · exact onPack_done_result h
  · exact onPack_legal (balance_legal hready) (by simp) h

theorem packOp_legal {p : Nat} {c : Cmd} {i : Instr} {s t : State} (hi : i ∈ packOps p c) (hready : Ready p s)
    (h : exec i s = .next t) : t = s ∨ t.result ≠ .aborted .badArgument := by
  obtain rfl | hi := List.mem_cons.1 hi
  · obtain ⟨_, j, hj, hx⟩ := packStep_next h
    exact exec_legal (decodeState_mem hj) hready hx
  · exact exec_legal (c := c) hi hready h

/-- Without such an abort in the result there is no report of one. -/
theorem Ended.no_badArgument {p : Nat} {idle : Prop} {s t : State} (h : Ended p idle s t)
    (hres : t.result ≠ .aborted .badArgument) :
    ∃ es, t.trace = s.trace ++ es ∧ ∀ q code, Event.report q code (.err .badArgument) ∉ es := by
  have hno {es : List Event} (hes : es.all noAbort = true) (q code) : Event.report q code (.err .badArgument) ∉ es :=
    fun hmem => by simpa [noAbort] using List.all_eq_true.1 hes _ hmem
  cases h with
  | done u r hu _ =>
    obtain ⟨es, htrace, hes, _⟩ := hu.events
    exact ⟨es, htrace, hno hes⟩
  | same _ => exact ⟨[], by simp, by simp⟩
  | abort u k hu =>
    obtain ⟨es, htrace, hes, _⟩ := hu.events
    have hk : k ≠ .badArgument := fun hk => hres (hk ▸ rfl)
    exact ⟨es ++ [.report p (s.tel p).state (.err k)], by simp [htrace], by simp [hno hes, hk.symm]⟩

/-- Settles O38: every transaction of a pack that may run is legal, so no abort and no report is of that kind. -/
theorem noBadArgumentFromPacks : Obligations.NoBadArgumentFromPacks := by
  intro p c i s t hi hready h
  obtain rfl | hres := packOp_legal hi hready h
  · exact ⟨id, [], by simp, by simp⟩
  · exact ⟨fun hbad => absurd hbad hres, (ended_of_packOp hi h).no_badArgument hres⟩

/-! ## Another pack makes no difference (60_exceptions.md R303, R323) -/

/-- Another pack put in place of pack `q`. -/
def State.putPack (q : Nat) (k : Pack) (s : State) : State := { s with packs := s.packs.set q k }

/-- The run with its state changed so. -/
def Run.putPack {α : Type} (q : Nat) (k : Pack) (r : Run α) : Run α := ⟨r.reply, r.state.putPack q k⟩

/-- The verdict of `ST_DIAG2` once the lock is released. -/
def judged (p : Nat) (c : BitVec 4) (s : State) : State :=
  freeDiagBuf
    (if diagEval s.par.num s.par.ncell s.diagBuf (s.cfg p).diagThreshold then s.setCode p codeConfig
     else packFault p c .diagFault (s.setAlerts p ((s.tel p).swAlerts ||| alertBit 14 true)))

theorem diagVerdict_eq_judged (p : Nat) (c : BitVec 4) (s : State) :
    diagVerdict p c s = judged p c { s with diagLock := none } := rfl

section
variable {p q : Nat} {k : Pack}

/-! What is not the record of a pack does not see the packs. -/

@[simp] theorem State.putPack_par (s : State) : (s.putPack q k).par = s.par := rfl
@[simp] theorem State.putPack_emit (s : State) (e : Event) : (s.putPack q k).emit e = (s.emit e).putPack q k := rfl
@[simp] theorem State.putPack_setResult (s : State) (r : OpResult) :
    (s.putPack q k).setResult r = (s.setResult r).putPack q k := rfl
@[simp] theorem State.putPack_length (s : State) : (s.putPack q k).packs.length = s.packs.length := List.length_set

@[simp] theorem Run.pure_putPack {α : Type} (a : α) (s : State) :
    Run.pure a (s.putPack q k) = (Run.pure a s).putPack q k := rfl

theorem andThen_putPack {α β : Type} {r r' : Run α} {f f' : α → State → Run β} (hr : r' = r.putPack q k)
    (hf : ∀ a t, f' a (t.putPack q k) = (f a t).putPack q k) : r'.andThen f' = (r.andThen f).putPack q k := by
  subst hr
  rcases r with ⟨a | j, t⟩
  · exact hf a t
  · rfl

theorem finished_putPack {α : Type} (r : Run α) (c : BitVec 4) (f : α → OpResult) :
    (r.putPack q k).finished p c f = (r.finished p c f).putPack q k := by
  rcases r with ⟨a | j, t⟩ <;> rfl

theorem selDrive_putPack (i : Nat) (s : State) :
    selDrive i (s.putPack q k) = ((selDrive i s).1, (selDrive i s).2.putPack q k) := by
  have henv : (s.putPack q k).env = s.env := rfl
  unfold selDrive driveAnswer
  rw [henv]
  cases s.env.drives <;> rfl

theorem busXfer_putPack (tx : List Byte) (s : State) :
    busXfer tx (s.putPack q k) = ((busXfer tx s).1, (busXfer tx s).2.putPack q k) := by
  have henv : (s.putPack q k).env = s.env := rfl
  unfold busXfer busAnswer
  rw [henv]
  cases s.env.answers <;> rfl

theorem select_putPack (i : Nat) (s : State) : select i (s.putPack q k) = (select i s).putPack q k := by
  unfold select
  rw [selDrive_putPack, State.putPack_par]
  split
  · rfl
  · rcases selDrive i s with ⟨_ | _, t⟩ <;> rfl

theorem wrreg_putPack (a : Nat) (v : Word) (s : State) : wrreg a v (s.putPack q k) = (wrreg a v s).putPack q k := by
  unfold wrreg
  rw [busXfer_putPack, State.putPack_par]
  split
  · rcases busXfer (wrFrame s.par.crcPoly a v) s with ⟨_ | _, t⟩ <;> rfl
  · rfl

theorem rdreg_putPack (a n : Nat) (s : State) : rdreg a n (s.putPack q k) = (rdreg a n s).putPack q k := by
  unfold rdreg
  rw [busXfer_putPack, State.putPack_par]
  split
  · rfl
  split
  · rfl
  rcases busXfer (rdFrame a n) s with ⟨_ | rx, t⟩
  · rfl
  · dsimp only
    split <;> rfl

theorem afeWrite_putPack (p a : Nat) (v : Word) (s : State) :
    afeWrite p a v (s.putPack q k) = (afeWrite p a v s).putPack q k :=
  andThen_putPack (select_putPack p s) fun _ t => wrreg_putPack a v t

theorem afeWriteReg_putPack (p : Nat) (w : RegWrite) (s : State) :
    afeWriteReg p w (s.putPack q k) = (afeWriteReg p w s).putPack q k := afeWrite_putPack p _ _ s

theorem afeRead_putPack (p a n : Nat) (s : State) : afeRead p a n (s.putPack q k) = (afeRead p a n s).putPack q k := by
  unfold afeRead
  split
  · rfl
  · exact andThen_putPack (select_putPack p s) fun _ t => rdreg_putPack a n t

theorem writeAll_putPack (p : Nat) (ws : List RegWrite) (s : State) :
    writeAll p ws (s.putPack q k) = (writeAll p ws s).putPack q k := by
  induction ws generalizing s with
  | nil => rfl
  | cons w ws ih => exact andThen_putPack (afeWriteReg_putPack p w s) fun _ t => ih t

theorem readBlocks_putPack (p : Nat) (bs : List Burst) (s : State) :
    readBlocks p bs (s.putPack q k) = (readBlocks p bs s).putPack q k := by
  induction bs generalizing s with
  | nil => rfl
  | cons b bs ih =>
    exact andThen_putPack (afeRead_putPack p _ _ s) fun _ t => andThen_putPack (ih t) fun _ u => rfl

theorem readStatus_putPack (p : Nat) (s : State) : readStatus p (s.putPack q k) = (readStatus p s).putPack q k :=
  andThen_putPack (afeRead_putPack p _ _ s) fun _ _ => rfl

theorem readBack_putPack (p : Nat) (l : List RegWrite) (rs : List (Nat × Nat)) (s : State) :
    readBack p l rs (s.putPack q k) = (readBack p l rs s).putPack q k := by
  induction rs generalizing s with
  | nil => rfl
  | cons r rs ih =>
    refine andThen_putPack (afeRead_putPack p _ _ s) fun ws t => ?_
    split
    · exact ih t
    · rfl

/-! An operation of pack `p` reads and writes the record of pack `p`. -/

variable (hq : q ≠ p)
include hq

theorem State.pack_putPack (s : State) : (s.putPack q k).pack p = s.pack p := by
  simp [State.pack, State.putPack, List.getD_eq_getElem?_getD, hq]

theorem State.tel_putPack (s : State) : (s.putPack q k).tel p = s.tel p := congrArg Pack.tel (s.pack_putPack hq)

theorem State.cmd_putPack (s : State) : (s.putPack q k).cmd p = s.cmd p := congrArg Pack.cmd (s.pack_putPack hq)

theorem State.cfg_putPack (s : State) : (s.putPack q k).cfg p = s.cfg p := congrArg Pack.cfg (s.pack_putPack hq)

theorem State.setTel_putPack (s : State) (tel : Telemetry) :
    (s.putPack q k).setTel p tel = (s.setTel p tel).putPack q k := by
  simp only [State.setTel, s.pack_putPack hq]
  simp only [State.putPack, List.set_comm _ _ hq]

theorem State.setCode_putPack (s : State) (c : BitVec 4) :
    (s.putPack q k).setCode p c = (s.setCode p c).putPack q k := by
  rw [State.setCode, s.tel_putPack hq, s.setTel_putPack hq, ← State.setCode]

theorem State.setAlerts_putPack (s : State) (a : BitVec 32) :
    (s.putPack q k).setAlerts p a = (s.setAlerts p a).putPack q k := by
  rw [State.setAlerts, s.tel_putPack hq, s.setTel_putPack hq, ← State.setAlerts]

theorem State.setDrive_putPack (s : State) (d : BitVec 3) :
    (s.putPack q k).setDrive p d = (s.setDrive p d).putPack q k := by
  rw [State.setDrive, s.tel_putPack hq, s.setTel_putPack hq, ← State.setDrive]

theorem readCells_putPack (s : State) : readCells p (s.putPack q k) = (readCells p s).putPack q k :=
  andThen_putPack (readBlocks_putPack p _ s) fun _ t => by
    rw [State.putPack_par, s.cfg_putPack hq, Run.pure_putPack]

theorem readTelemetry_putPack (s : State) : readTelemetry p (s.putPack q k) = (readTelemetry p s).putPack q k :=
  andThen_putPack (readBlocks_putPack p _ s) fun _ t => by
    rw [State.putPack_par, t.cfg_putPack hq, t.tel_putPack hq, t.setTel_putPack hq, Run.pure_putPack]

theorem cellList_putPack (s : State) : cellList (s.putPack q k) p = cellList s p := by
  rw [cellList, s.tel_putPack hq, State.putPack_par, ← cellList]

theorem balance_putPack (s : State) : balance p (s.putPack q k) = (balance p s).putPack q k := by
  unfold balance
  simp only [State.putPack_par, s.cfg_putPack hq, cellList_putPack hq]
  exact andThen_putPack (afeWriteReg_putPack p _ s) fun _ _ => rfl

theorem balanceIfDue_putPack (s : State) : balanceIfDue p (s.putPack q k) = (balanceIfDue p s).putPack q k := by
  unfold balanceIfDue balanceDue
  simp only [s.tel_putPack hq, s.cfg_putPack hq, cellList_putPack hq]
  split
  · exact andThen_putPack (balance_putPack hq s) fun _ _ => rfl
  · rfl

theorem limits_putPack (s : State) : limits p (s.putPack q k) = (limits p s).putPack q k := by
  simp only [limits, s.tel_putPack hq, s.cfg_putPack hq, State.putPack_par, s.setTel_putPack hq]

theorem i2t_putPack (s : State) : i2t p (s.putPack q k) = (i2t p s).putPack q k := by
  simp only [i2t, s.tel_putPack hq, s.cfg_putPack hq, State.putPack_par, s.setTel_putPack hq]

theorem alerts_putPack (s : State) : alerts p (s.putPack q k) = (alerts p s).putPack q k := by
  simp only [alerts, s.tel_putPack hq, s.cfg_putPack hq, State.putPack_par, s.setAlerts_putPack hq]

theorem alertClear_putPack (c : Cmd) (s : State) :
    alertClear p c (s.putPack q k) = (alertClear p c s).putPack q k := by
  unfold alertClear
  split
  · exact s.setAlerts_putPack hq 0
  · rfl

theorem runStages_putPack (c : Cmd) (s : State) : runStages p c (s.putPack q k) = (runStages p c s).putPack q k := by
  simp only [runStages, alertClear_putPack hq, limits_putPack hq, i2t_putPack hq, alerts_putPack hq]

theorem runDrive_putPack (c : Cmd) (s : State) : runDrive p c (s.putPack q k) = runDrive p c s := by
  simp only [runDrive, s.tel_putPack hq, s.cfg_putPack hq]
  rfl

theorem nextRunState_putPack (s : State) : nextRunState p (s.putPack q k) = (nextRunState p s).putPack q k := by
  unfold nextRunState
  simp only [s.pack_putPack hq, s.tel_putPack hq, State.putPack_par, s.setCode_putPack hq]
  split
  · rfl
  split <;> rfl

theorem packFault_putPack (c : BitVec 4) (r : ReportKind) (s : State) :
    packFault p c r (s.putPack q k) = (packFault p c r s).putPack q k := by
  rw [packFault, s.setCode_putPack hq, State.putPack_emit, ← packFault]

theorem stWaitinit_putPack (s : State) : stWaitinit p (s.putPack q k) = (stWaitinit p s).putPack q k := by
  refine andThen_putPack (readStatus_putPack p s) fun code t => ?_
  rw [State.putPack_par]
  split
  · refine andThen_putPack (afeWrite_putPack p _ _ t) fun _ u => ?_
    rw [u.setDrive_putPack hq, State.putPack_par]
    exact andThen_putPack (afeWriteReg_putPack p _ _) fun _ w => by rw [w.setCode_putPack hq, Run.pure_putPack]
  · rfl

theorem stInit_putPack (s : State) : stInit p (s.putPack q k) = (stInit p s).putPack q k := by
  unfold stInit
  simp only [s.cfg_putPack hq, s.tel_putPack hq]
  refine andThen_putPack (writeAll_putPack p _ s) fun _ t =>
    andThen_putPack (readBack_putPack p _ _ t) fun matched u => ?_
  split
  · exact andThen_putPack (writeAll_putPack p _ u) fun _ w => by rw [w.setCode_putPack hq, Run.pure_putPack]
  · rw [packFault_putPack hq, Run.pure_putPack]

theorem stWaitdiag0_putPack (s : State) : stWaitdiag0 p (s.putPack q k) = (stWaitdiag0 p s).putPack q k := by
  obtain ⟨hfree, h⟩ | ⟨hheld, h⟩ := stWaitdiag0_cases p s <;>
    obtain ⟨hfree', h'⟩ | ⟨hheld', h'⟩ := stWaitdiag0_cases p (s.putPack q k) <;> rw [h, h']
  · rw [s.setCode_putPack hq]
    rfl
  · exact absurd hfree hheld'
  · exact absurd hfree' hheld

/-- The end of a sampling state: the samples are stored, then comes a command write. -/
theorem sampling_putPack {j : Nat} (command : Profile → RegWrite) {rest rest' : Unit → State → Run Unit} (s : State)
    (hrest : ∀ t, rest' () (t.putPack q k) = (rest () t).putPack q k) :
    ((readCells p (s.putPack q k)).andThen fun v t =>
        (afeWriteReg p (command t.par.profile) (storeSamples j v t)).andThen rest') =
      ((readCells p s).andThen fun v t =>
        (afeWriteReg p (command t.par.profile) (storeSamples j v t)).andThen rest).putPack q k :=
  andThen_putPack (readCells_putPack hq s) fun v t =>
    andThen_putPack (afeWriteReg_putPack p _ (storeSamples j v t)) fun _ u => hrest u

theorem stDiag0_putPack (s : State) : stDiag0 p (s.putPack q k) = (stDiag0 p s).putPack q k :=
  andThen_putPack (afeWriteReg_putPack p _ s) fun _ t =>
    sampling_putPack hq Profile.diagPullUp t fun u => by rw [u.setCode_putPack hq, Run.pure_putPack]

theorem stDiag1_putPack (s : State) : stDiag1 p (s.putPack q k) = (stDiag1 p s).putPack q k :=
  sampling_putPack hq Profile.diagPullDown s fun u => by rw [u.setCode_putPack hq, Run.pure_putPack]

theorem judged_putPack (c : BitVec 4) (s : State) : judged p c (s.putPack q k) = (judged p c s).putPack q k := by
  unfold judged
  rw [s.cfg_putPack hq, s.tel_putPack hq, s.setCode_putPack hq, s.setAlerts_putPack hq, packFault_putPack hq]
  change freeDiagBuf (if diagEval s.par.num s.par.ncell s.diagBuf (s.cfg p).diagThreshold then _ else _) = _
  split <;> rfl

theorem diagVerdict_putPack (c : BitVec 4) (s : State) :
    diagVerdict p c (s.putPack q k) = (diagVerdict p c s).putPack q k := by
  rw [diagVerdict_eq_judged, diagVerdict_eq_judged]
  exact judged_putPack hq c { s with diagLock := none }

theorem stDiag2_putPack (s : State) : stDiag2 p (s.putPack q k) = (stDiag2 p s).putPack q k := by
  unfold stDiag2
  rw [s.tel_putPack hq]
  exact sampling_putPack hq Profile.diagClear s fun u => by rw [diagVerdict_putPack hq, Run.pure_putPack]

theorem stConfig_putPack (s : State) : stConfig p (s.putPack q k) = (stConfig p s).putPack q k :=
  andThen_putPack (writeAll_putPack p _ s) fun _ t => by rw [t.setCode_putPack hq, Run.pure_putPack]

theorem stError_putPack (c : Cmd) (s : State) : stError p c (s.putPack q k) = (stError p c s).putPack q k := by
  unfold stError
  rw [s.setAlerts_putPack hq, State.setCode_putPack hq]
  split <;> rfl

theorem runBody_putPack (c : Cmd) (s : State) : runBody p c (s.putPack q k) = (runBody p c s).putPack q k := by
  refine andThen_putPack (readTelemetry_putPack hq s) fun _ t => ?_
  simp only [runStages_putPack hq, runDrive_putPack hq, State.putPack_par]
  refine andThen_putPack (afeWrite_putPack p _ _ _) fun _ u => ?_
  rw [u.setDrive_putPack hq]
  exact andThen_putPack (balanceIfDue_putPack hq _) fun _ w => by rw [nextRunState_putPack hq, Run.pure_putPack]

/-- The end of an operation, with another pack in place of pack `q`. -/
theorem onPack_putPack {s t u u' : State} (hu : u' = u.putPack q k) (h : onPack p s u = .next t) :
    onPack p (s.putPack q k) u' = .next (t.putPack q k) := by
  subst hu
  simp only [onPack, State.putPack_length, State.putPack_par, s.cfg_putPack hq] at h ⊢
  split_ifs at h ⊢
  cases h
  rfl

theorem onPack_finished_putPack {α : Type} {s t : State} {r r' : Run α} {f : α → OpResult} (hr : r' = r.putPack q k)
    (h : onPack p s (r.finished p (s.tel p).state f) = .next t) :
    onPack p (s.putPack q k) (r'.finished p ((s.putPack q k).tel p).state f) = .next (t.putPack q k) :=
  onPack_putPack hq (by rw [hr, s.tel_putPack hq, finished_putPack]) h

theorem onPack_done_putPack {s t u u' : State} (hu : u' = u.putPack q k)
    (h : onPack p s (u.setResult .done) = .next t) :
    onPack p (s.putPack q k) (u'.setResult .done) = .next (t.putPack q k) :=
  onPack_putPack hq (by rw [hu, State.putPack_setResult]) h

/-- Every operation of pack `p` but `PACK_STEP` does the same to its pack, whatever stands in place of pack `q`. -/
theorem exec_putPack {c : Cmd} {i : Instr} {s t : State} (hi : i ∈ (packOps p c).tail) (h : exec i s = .next t) :
    exec i (s.putPack q k) = .next (t.putPack q k) := by
  simp only [packOps, List.tail_cons, List.mem_cons, List.not_mem_nil, or_false] at hi
  rcases hi with rfl | rfl | rfl | rfl | rfl | rfl | rfl | rfl | rfl | rfl | rfl | rfl | rfl | rfl | rfl | rfl | rfl |
    rfl | rfl | rfl | rfl | rfl | rfl
  · simp only [exec, execStDisabled, onSlot, State.putPack_length] at h ⊢
    split_ifs at h ⊢
    cases h
    rfl
  · exact onPack_finished_putPack hq (stWaitinit_putPack hq s) h
  · exact onPack_finished_putPack hq (stInit_putPack hq s) h
  · exact onPack_done_putPack hq (stWaitdiag0_putPack hq s) h
  · exact onPack_finished_putPack hq (stDiag0_putPack hq s) h
  · exact onPack_done_putPack hq (s.setCode_putPack hq _) h
  · exact onPack_finished_putPack hq (stDiag1_putPack hq s) h
  · exact onPack_done_putPack hq (s.setCode_putPack hq _) h
  · exact onPack_finished_putPack hq (stDiag2_putPack hq s) h
  · exact onPack_finished_putPack hq (stConfig_putPack hq s) h
  · exact onPack_finished_putPack hq (runBody_putPack hq c s) h
  · exact onPack_finished_putPack hq (runBody_putPack hq c s) h
  · exact onPack_finished_putPack hq (runBody_putPack hq c s) h
  · exact onPack_done_putPack hq (stError_putPack hq c s) h
  · exact onPack_finished_putPack hq (readStatus_putPack p s) h
  · exact onPack_finished_putPack hq (readCells_putPack hq s) h
  · exact onPack_finished_putPack hq (readTelemetry_putPack hq s) h
  · exact onPack_finished_putPack hq (runBody_putPack hq c s) h
  · exact onPack_done_putPack hq (nextRunState_putPack hq s) h
  · exact onPack_done_putPack hq (limits_putPack hq s) h
  · exact onPack_done_putPack hq (i2t_putPack hq s) h
  · exact onPack_done_putPack hq (alerts_putPack hq s) h
  · exact onPack_finished_putPack hq (balance_putPack hq s) h

end

/-- Settles O39: every operation commutes with putting another pack in place of pack `q`, and `PACK_STEP` selects the same
operation. -/
theorem otherPacksDoNotMatter : Obligations.OtherPacksDoNotMatter := by
  intro p q c i k s t hi hq h
  obtain rfl | hi := List.mem_cons.1 hi
  · obtain ⟨hp, j, hj, hx⟩ := packStep_next h
    have hstep : exec (.packStep p) (s.putPack q k) = exec j (s.putPack q k) :=
      packStep_of_decodeState (by rwa [State.putPack_length]) (by rwa [s.cmd_putPack hq, s.tel_putPack hq])
    exact hstep.trans (exec_putPack hq (decodeState_mem hj) hx)
  · exact exec_putPack hq (c := c) hi h

/-! ## What a pack step sends outside the steady states (70_reset_and_hazards.md R358) -/

/-- Every transfer between `s` and `t` sends a read request, or the frame of a write of `W` with a legal address. -/
structure Sends (W : List RegWrite) (s t : State) : Prop where
  par : t.par = s.par
  sent : ∃ es, t.trace = s.trace ++ es ∧ ∀ d tx answer, Event.xfer d tx answer ∈ es →
    (∃ a n, tx = rdFrame a n) ∨ ∃ w ∈ W, addressOk w.addr = true ∧ tx = wrFrame s.par.crcPoly w.addr w.value

theorem Sends.of_silent {W : List RegWrite} {s t : State} (hpar : t.par = s.par) (htrace : t.trace = s.trace) :
    Sends W s t := ⟨hpar, [], by simp [htrace], by simp⟩

theorem Sends.refl (W : List RegWrite) (s : State) : Sends W s s := .of_silent rfl rfl

theorem Sends.trans {W : List RegWrite} {s t u : State} (h1 : Sends W s t) (h2 : Sends W t u) : Sends W s u := by
  obtain ⟨es1, htrace1, hes1⟩ := h1.sent
  obtain ⟨es2, htrace2, hes2⟩ := h2.sent
  refine ⟨h2.par.trans h1.par, es1 ++ es2, by rw [htrace2, htrace1, List.append_assoc], fun d tx answer hmem => ?_⟩
  obtain hmem | hmem := List.mem_append.1 hmem
  · exact hes1 d tx answer hmem
  · exact h1.par ▸ hes2 d tx answer hmem

/-- An event that is no transfer. -/
theorem Sends.of_event {W : List RegWrite} {s t : State} {e : Event} (hpar : t.par = s.par)
    (htrace : t.trace = s.trace ++ [e]) (he : ∀ d tx answer, e ≠ .xfer d tx answer) : Sends W s t :=
  ⟨hpar, [e], htrace, fun d tx answer hmem => absurd (List.mem_singleton.1 hmem).symm (he d tx answer)⟩

theorem sends_andThen {α β : Type} {W : List RegWrite} {s : State} {r : Run α} {f : α → State → Run β}
    (h1 : Sends W s r.state) (h2 : ∀ a t, t.par = s.par → Sends W t (f a t).state) : Sends W s (r.andThen f).state :=
  Run.andThen_keeps (P := Sends W s) h1 fun a t ht => ht.trans (h2 a t ht.par)

section
variable {W : List RegWrite}

theorem select_sends (i : Nat) (s : State) : Sends W s (select i s).state := by
  obtain ⟨_, h⟩ | ⟨_, n, h⟩ | ⟨_, n, j, h⟩ := select_cases i s <;> rw [h]
  · exact .refl W s
  · exact .of_event rfl rfl (by simp)
  · exact .of_event rfl rfl (by simp)

theorem wrreg_sends {w : RegWrite} (hw : w ∈ W) (s : State) : Sends W s (wrreg w.addr w.value s).state := by
  obtain ⟨_, h⟩ | ⟨ha, answer, n, h⟩ := wrreg_cases w.addr w.value s <;> rw [h]
  · exact .refl W s
  · refine ⟨rfl, _, rfl, fun d tx x hmem => .inr ⟨w, hw, ha, ?_⟩⟩
    obtain ⟨_, rfl, _⟩ := Event.xfer.inj (List.mem_singleton.1 hmem)
    rfl

theorem rdreg_sends (a n : Nat) (s : State) : Sends W s (rdreg a n s).state := by
  obtain ⟨_, h⟩ | ⟨_, answer, env, r, h, _⟩ := rdreg_cases a n s <;> rw [h]
  · exact .refl W s
  · refine ⟨rfl, _, rfl, fun d tx x hmem => .inl ⟨a, n, ?_⟩⟩
    obtain ⟨_, rfl, _⟩ := Event.xfer.inj (List.mem_singleton.1 hmem)
    rfl

theorem afeWriteReg_sends {w : RegWrite} (hw : w ∈ W) (p : Nat) (s : State) : Sends W s (afeWriteReg p w s).state :=
  sends_andThen (select_sends p s) fun _ t _ => wrreg_sends hw t

theorem afeRead_sends (p a n : Nat) (s : State) : Sends W s (afeRead p a n s).state := by
  unfold afeRead
  split
  · exact .refl W s
  · exact sends_andThen (select_sends p s) fun _ t _ => rdreg_sends a n t

theorem writeAll_sends {ws : List RegWrite} (hws : ws ⊆ W) (p : Nat) (s : State) :
    Sends W s (writeAll p ws s).state := by
  induction ws generalizing s with
  | nil => exact .refl W s
  | cons w ws ih =>
    rw [List.cons_subset] at hws
    exact sends_andThen (afeWriteReg_sends hws.1 p s) fun _ t _ => ih hws.2 t

theorem readBlocks_sends (p : Nat) (bs : List Burst) (s : State) : Sends W s (readBlocks p bs s).state := by
  induction bs generalizing s with
  | nil => exact .refl W s
  | cons b bs ih =>
    exact sends_andThen (afeRead_sends p _ _ s) fun _ t _ => sends_andThen (ih t) fun _ u _ => .refl W u

theorem readStatus_sends (p : Nat) (s : State) : Sends W s (readStatus p s).state :=
  sends_andThen (afeRead_sends p _ _ s) fun _ t _ => .refl W t

theorem readCells_sends (p : Nat) (s : State) : Sends W s (readCells p s).state :=
  sends_andThen (readBlocks_sends p _ s) fun _ t _ => .refl W t

theorem readBack_sends (p : Nat) (l : List RegWrite) (rs : List (Nat × Nat)) (s : State) :
    Sends W s (readBack p l rs s).state := by
  induction rs generalizing s with
  | nil => exact .refl W s
  | cons r rs ih =>
    refine sends_andThen (afeRead_sends p _ _ s) fun ws t _ => ?_
    split
    · exact ih t
    · exact .refl W t

theorem setTel_sends (s : State) (p : Nat) (tel : Telemetry) : Sends W s (s.setTel p tel) := .of_silent rfl rfl

theorem packFault_sends (p : Nat) (c : BitVec 4) (k : ReportKind) (s : State) : Sends W s (packFault p c k s) :=
  .of_event rfl rfl (by simp)

theorem diagVerdict_sends (p : Nat) (c : BitVec 4) (s : State) : Sends W s (diagVerdict p c s) := by
  unfold diagVerdict
  dsimp only
  split
  · exact .of_silent rfl rfl
  · exact .of_event rfl rfl (by simp)

theorem stWaitinit_sends {p : Nat} {s : State} (hcommands : commandWrites s.par.profile ⊆ W)
    (hoff : ⟨s.par.profile.mosfetCtrlAddr, 0⟩ ∈ W) : Sends W s (stWaitinit p s).state := by
  refine sends_andThen (readStatus_sends p s) fun code t ht => ?_
  split
  · refine sends_andThen (afeWriteReg_sends (ht ▸ hoff) p t) fun _ u hu => ?_
    have hbal : u.par.profile.balOff ∈ W := hcommands (by simp [hu, ht, commandWrites])
    exact sends_andThen ((setTel_sends u p _).trans (afeWriteReg_sends hbal p _)) fun _ w _ => setTel_sends w p _
  · exact .refl W t

theorem stInit_sends {p : Nat} {s : State} (hcommands : commandWrites s.par.profile ⊆ W)
    (huser : userList (s.cfg p).userRegs ⊆ W) : Sends W s (stInit p s).state := by
  refine sends_andThen (writeAll_sends huser p s) fun _ t ht => ?_
  refine sends_andThen (readBack_sends p _ _ t) fun matched u hu => ?_
  split
  · have hlast : [u.par.profile.clrReset, u.par.profile.balWindow] ⊆ W := by
      simp only [List.cons_subset, List.nil_subset, and_true]
      constructor <;> exact hcommands (by simp [hu, ht, commandWrites])
    exact sends_andThen (writeAll_sends hlast p u) fun _ w _ => setTel_sends w p _
  · exact packFault_sends p _ _ u

/-- The end of a sampling state: the samples are stored, then comes a command write. -/
theorem sampling_sends {p j : Nat} {s : State} (command : Profile → RegWrite) (rest : Unit → State → Run Unit)
    (hcommand : command s.par.profile ∈ W) (hrest : ∀ t, Sends W t (rest () t).state) :
    Sends W s ((readCells p s).andThen fun v t =>
      (afeWriteReg p (command t.par.profile) (storeSamples j v t)).andThen rest).state := by
  refine sends_andThen (readCells_sends p s) fun v t ht => ?_
  have hstored : Sends W t (storeSamples j v t) := .of_silent rfl rfl
  exact sends_andThen (hstored.trans (afeWriteReg_sends (ht ▸ hcommand) p _)) fun _ u _ => hrest u

theorem stDiag0_sends {p : Nat} {s : State} (hcommands : commandWrites s.par.profile ⊆ W) :
    Sends W s (stDiag0 p s).state :=
  sends_andThen (afeWriteReg_sends (hcommands (by simp [commandWrites])) p s) fun _ t ht =>
    sampling_sends Profile.diagPullUp _ (hcommands (by simp [ht, commandWrites])) fun u => setTel_sends u p _

theorem stDiag1_sends {p : Nat} {s : State} (hcommands : commandWrites s.par.profile ⊆ W) :
    Sends W s (stDiag1 p s).state :=
  sampling_sends Profile.diagPullDown _ (hcommands (by simp [commandWrites])) fun u => setTel_sends u p _

theorem stDiag2_sends {p : Nat} {s : State} (hcommands : commandWrites s.par.profile ⊆ W) :
    Sends W s (stDiag2 p s).state :=
  sampling_sends Profile.diagClear _ (hcommands (by simp [commandWrites])) fun u => diagVerdict_sends p _ u

theorem stConfig_sends {p : Nat} {s : State} (hcommands : commandWrites s.par.profile ⊆ W) :
    Sends W s (stConfig p s).state := by
  have hws : s.par.profile.clrErrors ++ [s.par.profile.wdtArm] ⊆ W := fun w hw => by
    obtain hw | rfl : w ∈ s.par.profile.clrErrors ∨ w = s.par.profile.wdtArm := by simpa using hw
    · exact hcommands (List.mem_append_right _ hw)
    · exact hcommands (by simp [commandWrites])
  exact sends_andThen (writeAll_sends hws p s) fun _ t _ => setTel_sends t p _

theorem finished_sends {α : Type} {s : State} {r : Run α} (h : Sends W s r.state) (p : Nat) (c : BitVec 4)
    (f : α → OpResult) : Sends W s (r.finished p c f) := by
  rcases r with ⟨a | k, t⟩
  · exact h.trans (.of_silent rfl rfl)
  · exact h.trans (.of_event rfl (takeAbort_trace p c k t) (by simp))

end

/-- The register writes a pack step of pack `p` may make outside the steady states. -/
def offDutyWrites (p : Nat) (s : State) : List RegWrite :=
  ⟨s.par.profile.mosfetCtrlAddr, 0⟩ :: commandWrites s.par.profile ++
    if (s.tel p).state = codeInit then userList (s.cfg p).userRegs else []

theorem commandWrites_subset (p : Nat) (s : State) : commandWrites s.par.profile ⊆ offDutyWrites p s :=
  fun w hw => by simp [offDutyWrites, hw]

/-- What the state operation `r` of a pack step does outside the steady states (70_reset_and_hazards.md R344, R358). -/
structure OffDuty (p : Nat) (s : State) (r : Run Unit) : Prop where
  record : Small p s r.state
  sends : Sends (offDutyWrites p s) s r.state

theorem OffDuty.of_busIdle {p : Nat} {s t : State} (hpar : t.par = s.par) (hsmall : Small p s t) (hidle : BusIdle s t) :
    OffDuty p s (.pure () t) := ⟨hsmall, .of_silent hpar hidle.trace⟩

theorem OffDuty.ends {p : Nat} {s t : State} {r : Run Unit} (hr : OffDuty p s r)
    (h : onPack p s (r.finished p (s.tel p).state fun _ => .done) = .next t) :
    ∃ r, OffDuty p s r ∧ t = r.finished p (s.tel p).state fun _ => .done :=
  ⟨r, hr, (onPack_next h).1⟩

/-- A pack step outside the steady states does nothing, in a disabled pack, or ends such an operation. -/
theorem packStep_offDuty {p : Nat} {s t : State} (h : exec (.packStep p) s = .next t)
    (hcode : (s.tel p).state ∉ [codeRun, codeRunWarning, codeSanityCheck]) :
    t = s ∨ ∃ r, OffDuty p s r ∧ t = r.finished p (s.tel p).state fun _ => .done := by
  obtain ⟨_, i, hi, hx⟩ := packStep_next h
  have hcommands := commandWrites_subset p s
  simp only [List.mem_cons, List.not_mem_nil, or_false, not_or] at hcode
  obtain ⟨hrun, hwarning, hsanity⟩ := hcode
  unfold decodeState at hi
  split at hi <;> cases hi
  case h_1.refl hc => exact .inl (exec_stDisabled_next hx)
  case h_11.refl hc => exact absurd (BitVec.eq_of_toNat_eq hc) hrun
  case h_12.refl hc => exact absurd (BitVec.eq_of_toNat_eq hc) hwarning
  case h_13.refl hc => exact absurd (BitVec.eq_of_toNat_eq hc) hsanity
  all_goals right
  case h_2.refl hc =>
    exact OffDuty.ends ⟨stWaitinit_small p s, stWaitinit_sends hcommands (by simp [offDutyWrites])⟩ hx
  case h_3.refl hc =>
    have hinit : (s.tel p).state = codeInit := BitVec.eq_of_toNat_eq hc
    exact OffDuty.ends ⟨stInit_small p s, stInit_sends hcommands fun w hw => by simp [offDutyWrites, hinit, hw]⟩ hx
  case h_4.refl hc =>
    exact OffDuty.ends (.of_busIdle (stWaitdiag0_serves p s).par (stWaitdiag0_small p s) (stWaitdiag0_busIdle p s)) hx
  case h_5.refl hc => exact OffDuty.ends ⟨stDiag0_small p s, stDiag0_sends hcommands⟩ hx
  case h_6.refl hc =>
    exact OffDuty.ends (.of_busIdle (t := s.setCode p codeDiag1) rfl (Small.setCode p s _) (setTel_busIdle s p _)) hx
  case h_7.refl hc => exact OffDuty.ends ⟨stDiag1_small p s, stDiag1_sends hcommands⟩ hx
  case h_8.refl hc =>
    exact OffDuty.ends (.of_busIdle (t := s.setCode p codeDiag2) rfl (Small.setCode p s _) (setTel_busIdle s p _)) hx
  case h_9.refl hc => exact OffDuty.ends ⟨stDiag2_small p s, stDiag2_sends hcommands⟩ hx
  case h_10.refl hc => exact OffDuty.ends ⟨stConfig_small p s, stConfig_sends hcommands⟩ hx
  case h_14.refl hc =>
    exact OffDuty.ends (.of_busIdle (stError_moves p _ s).par (stError_small p _ s) (stError_busIdle p _ s)) hx

/-- A pack step that does something runs under valid parameters. -/
theorem packStep_paramsValid {p : Nat} {s t : State} (h : exec (.packStep p) s = .next t) :
    t = s ∨ paramsValid s.par = true := by
  obtain ⟨hp, i, hi, hx⟩ := packStep_next h
  by_cases hdisabled : i = .stDisabled p
  · subst hdisabled
    exact .inl (exec_stDisabled_next hx)
  · have hop := decodeState_mem hi
    obtain ⟨u, hu⟩ := exec_eq_onPack (List.mem_of_mem_tail hop) (by rintro rfl; simp [packOps] at hop) hdisabled s
    refine .inr (by_contra fun hv => ?_)
    rw [hu, onPack_invalidParams hp (by simpa using hv)] at hx
    cases hx

/-- A write frame tells its address and its value. -/
theorem wrFrame_injective {poly : Byte} {a b : Nat} {v w : Word} (ha : addressOk a = true) (hb : addressOk b = true)
    (h : wrFrame poly a v = wrFrame poly b w) : a = b ∧ v = w := by
  have hdecoded := congrArg decodeFrame h
  simp only [addressOk, decide_eq_true_eq] at ha hb
  rw [wrFrame, wrFrame, decodeFrame_wrHead ha, decodeFrame_wrHead hb] at hdecoded
  simpa using hdecoded

/-- A write frame has an even number of bytes, a read request an odd one. -/
theorem wrFrame_ne_rdFrame (poly : Byte) (a b n : Nat) (v : Word) : wrFrame poly a v ≠ rdFrame b n := fun h => by
  have hlen := congrArg List.length h
  rw [wrFrame_length, rdFrame_length] at hlen
  omega

/-- Of the writes outside the steady states, those to the MOSFET control register. -/
theorem mosfet_of_offDutyWrites {p : Nat} {s : State} {w : RegWrite} (hw : w ∈ offDutyWrites p s)
    (haddr : w.addr = s.par.profile.mosfetCtrlAddr)
    (hnone : ∀ x ∈ commandWrites s.par.profile, x.addr ≠ s.par.profile.mosfetCtrlAddr) :
    w.value = 0 ∨ (s.tel p).state = codeInit ∧ w ∈ userList (s.cfg p).userRegs := by
  simp only [offDutyWrites, List.mem_append, List.mem_cons] at hw
  obtain (rfl | hw) | hw := hw
  · exact .inl rfl
  · exact absurd haddr (hnone w hw)
  · split at hw
    · next hinit => exact .inr ⟨hinit, hw⟩
    · cases hw

/-- Settles O37: the record by the small changes, the frames by the writes each state operation may make. -/
theorem onlySteadyStatesMeasureAndDrive : Obligations.OnlySteadyStatesMeasureAndDrive := by
  intro p s t h hcode
  obtain rfl | hv := packStep_paramsValid h
  · exact ⟨⟨_, _, _, rfl⟩, .inl rfl, fun _ => ⟨[], by simp, by simp⟩⟩
  obtain rfl | ⟨r, hr, rfl⟩ := packStep_offDuty h hcode
  · exact ⟨⟨_, _, _, rfl⟩, .inl rfl, fun _ => ⟨[], by simp, by simp⟩⟩
  obtain ⟨code, drive, alerts, htel, hdrive⟩ := hr.record
  rw [Run.finished_tel, htel]
  refine ⟨⟨code, drive, alerts, rfl⟩, hdrive, fun hnone => ?_⟩
  obtain ⟨es, htrace, hsent⟩ := (finished_sends hr.sends p (s.tel p).state fun _ => .done).sent
  refine ⟨es, htrace, fun d v answer hmem => ?_⟩
  obtain ⟨a, n, hread⟩ | ⟨w, hw, hlegal, hframe⟩ := hsent d _ answer hmem
  · exact absurd hread (wrFrame_ne_rdFrame _ _ a n v)
  · obtain ⟨_, _, hmosfet, _⟩ := paramsValid_spec hv
    obtain ⟨haddr, rfl⟩ := wrFrame_injective hmosfet hlegal hframe
    rw [haddr]
    exact mosfet_of_offDutyWrites hw haddr.symm hnone

end Sys2Proof.Machine
